-- ==== Sys2Proof/Word.lean ====
section
/-! DEFINITION. The value types of the engine (00_scope.md R9): bytes, 64-bit words, and the size of the address
space (20_memory.md R60). -/

namespace Sys2Proof

/-- A byte: 8 bits (R9). -/
abbrev Byte := BitVec 8

/-- The 64-bit unsigned value of every register (R8, REG_W = 64). -/
abbrev Word := BitVec 64

/-- The number of bytes of the DMA memory space: addresses run from 0 to 2^64 - 1 (R60). -/
abbrev addressSpace : Nat := 2 ^ 64

end Sys2Proof
end

