-- ==== Sys2Proof/Config.lean ====
section
/-! DEFINITION. What is fixed for the machine: the parameters of 00_scope.md R7, and the free values of the spec's open
points. A free value is an opaque constant: nothing in Lean can evaluate it, so a claim holds whatever it is. -/

namespace Sys2Proof.Config

/-- WINDOW: the largest displacement a match may have (R7). -/
abbrev window : Nat := 65535

/-- MAX_MATCH: the largest match length (R7). -/
abbrev maxMatch : Nat := 255

/-- MIN_MATCH: the smallest length emitted as a match (R7, D5). -/
abbrev minMatch : Nat := 3

/-- MATCH_REC_BYTES: the width of a serialized match record (R7). -/
abbrev matchRecBytes : Nat := 3

/-- HEADER_BYTES: three u64 header fields (R7). -/
abbrev headerBytes : Nat := 24

/-- FREE VALUE. The byte an address holds before anything has been written there: the spec gives memory no contents
(R232; 95_test_vectors.md section 3: memory not listed is arbitrary). Log 1. -/
opaque initialByte : Nat → Byte

/-- FREE VALUE. Byte `i` of draw number `n`: an unspecified destination byte or host read (U8, U15, U16, U17).
Logs 8, 10, 11, 12. -/
opaque freeByte : Nat → Nat → Byte

/-- FREE VALUE. Word `i` of draw number `n`: an unspecified result register (U4). Logs 7 and 8. -/
opaque freeWord : Nat → Nat → Word

end Sys2Proof.Config
end

