-- ==== Sys2Proof/Syntax.lean ====
section
/-! DEFINITION. The instructions of the engine (00_scope.md R2): the three commands a host writes to CMD and the two
tokens the replay engine executes. One constructor per row of spec/opcode_table.json. -/

namespace Sys2Proof

/-- The instruction set (R2, R89, R90). The commands take their operands from the latched registers (R44), the tokens
from the content stream (R85, R86). Reserved command words (R91) are no instruction: they do not decode. -/
inductive Instr where
  /-- COMPRESS, command word 0x1 (R136). -/
  | compress
  /-- DECOMPRESS, command word 0x2 (R157). -/
  | decompress
  /-- FIND_MATCH, command word 0x3 (R104). -/
  | findMatch
  /-- LIT, decision bit 0, with its content byte `b` (R85, R152). -/
  | lit (b : Byte)
  /-- MATCH, decision bit 1, with its record's displacement `d` and length `l` (R86, R153). -/
  | matchRecord (d : BitVec 16) (l : Byte)
  deriving DecidableEq, Repr

end Sys2Proof
end

