-- ==== Sys2Proof/WellFormed.lean ====
section
/-! DEFINITION. Checks on instructions and command words. The operand widths are in the types of `Instr`, and every one
of the 2^24 record values is a MATCH (30_encoding.md R87), so every term of `Instr` is well formed; what remains to
check is the command word (R81) and which records are canonical, that is, can be emitted by the encoder (R87). -/

namespace Sys2Proof

/-- R81: a command word is valid exactly when `w[63:8] = 0` and `w[7:0]` is 0x01, 0x02 or 0x03. -/
def validCommandWord (w : Word) : Bool :=
  w >>> 8 == 0#64 && (w.setWidth 8 == 0x01#8 || w.setWidth 8 == 0x02#8 || w.setWidth 8 == 0x03#8)

/-- Every term of `Instr` is well formed: its operand widths (u8, u16) are its types', and R87 makes every record value
a MATCH. One arm per constructor, so that a later operand cannot slip past. -/
def Instr.wellFormed : Instr → Bool
  | .compress => true
  | .decompress => true
  | .findMatch => true
  | .lit _ => true
  | .matchRecord _ _ => true

/-- R87, R14: the encoder emits a record at input position `pos` with `remaining` input bytes left only if
`1 ≤ d ≤ min(pos, WINDOW)` and `MIN_MATCH ≤ l ≤ min(MAX_MATCH, remaining)`. -/
def canonicalRecord (pos remaining : Nat) (d : BitVec 16) (l : Byte) : Bool :=
  decide (1 ≤ d.toNat ∧ d.toNat ≤ min pos Config.window ∧
    Config.minMatch ≤ l.toNat ∧ l.toNat ≤ min Config.maxMatch remaining)

end Sys2Proof
end

