-- ==== Sys2Proof/Decode.lean ====
section
/-! DEFINITION. Encodings and formats (30_encoding.md, 41_decision_stream.md R122 and R123): byte order, the command
word, the two tokens, flag bits, the decoder and the encoder of instructions, and of whole token streams. -/

namespace Sys2Proof

/-! ### Byte order, decided once (R63, R10) -/

/-- The `n` low bytes of `v`, least significant first. -/
def leBytes : Nat → Nat → List Byte
  | 0, _ => []
  | n + 1, v => BitVec.ofNat 8 v :: leBytes n (v / 256)

/-- The number a little-endian byte sequence stands for. -/
def leValue : List Byte → Nat
  | [] => 0
  | b :: bs => b.toNat + 256 * leValue bs

/-- `LE64(v)` (R10). -/
def le64 (v : Word) : List Byte := leBytes 8 v.toNat

/-- `LE16(v)` (R10). -/
def le16 (v : BitVec 16) : List Byte := leBytes 2 v.toNat

/-- `ceil8(n) = (n + 7) div 8` (R9): the flag bytes that `n` decisions take. -/
def ceil8 (n : Nat) : Nat := (n + 7) / 8

/-! ### Decoding, rejecting by name -/

/-- Why bits are no instruction. -/
inductive DecodeError where
  /-- A command word whose bits 63:8 are not 0 (R81, R91). -/
  | reservedBits
  /-- A command word whose opcode is 0x00 or 0x04 to 0xFF (R81, R91). -/
  | reservedOpcode
  /-- A token whose content stream holds fewer bytes than its decision asks for (R152, R153). -/
  | contentExhausted
  /-- Fewer than the 8 bytes of a command word (R27: register accesses are 64 bits wide). -/
  | shortCommand
  deriving DecidableEq, Repr

/-- The command word decoder (R81, R89). -/
def decodeCommand (w : Word) : Except DecodeError Instr :=
  if w >>> 8 ≠ 0#64 then .error .reservedBits
  else if w = 0x1#64 then .ok .compress
  else if w = 0x2#64 then .ok .decompress
  else if w = 0x3#64 then .ok .findMatch
  else .error .reservedOpcode

/-- The token decoder: the decision bit selects the kind (R90), the kind alone gives the content length (R88), and the
bytes not consumed come back. A record is `[d[7:0], d[15:8], l]` (R86). -/
def decodeToken : Bool → List Byte → Except DecodeError (Instr × List Byte)
  | false, b :: rest => .ok (.lit b, rest)
  | false, [] => .error .contentExhausted
  | true, d0 :: d1 :: l :: rest => .ok (.matchRecord (BitVec.ofNat 16 (leValue [d0, d1])) l, rest)
  | true, [_, _] => .error .contentExhausted
  | true, [_] => .error .contentExhausted
  | true, [] => .error .contentExhausted

/-- The bits of one instruction as the hardware holds them: the 8 bus bytes of a CMD write (R27), or a decision bit and
the content bytes at the read cursor (R85, R86). -/
inductive Code where
  | command (bytes : List Byte)
  | token (decision : Bool) (content : List Byte)
  deriving DecidableEq, Repr

/-- The decoder, total on any bytes: the instruction and the bytes after it, or the reason there is none. -/
def decode : Code → Except DecodeError (Instr × List Byte)
  | .command bytes =>
    if bytes.length < 8 then .error .shortCommand
    else match decodeCommand (BitVec.ofNat 64 (leValue (bytes.take 8))) with
      | .ok i => .ok (i, bytes.drop 8)
      | .error e => .error e
  | .token decision content => decodeToken decision content

/-! ### Encoding -/

/-- The bits of an instruction (R81, R85, R86; spec/opcode_table.json). -/
def encode : Instr → Code
  | .compress => .command (le64 0x1#64)
  | .decompress => .command (le64 0x2#64)
  | .findMatch => .command (le64 0x3#64)
  | .lit b => .token false [b]
  | .matchRecord d l => .token true (le16 d ++ [l])

/-- `c` with the bytes `rest` standing after it. -/
def Code.followedBy : Code → List Byte → Code
  | .command bytes, rest => .command (bytes ++ rest)
  | .token decision content, rest => .token decision (content ++ rest)

/-! ### The decision stream (R84, R121 to R123) -/

/-- Decision `i` of the flag byte that holds it: bit `7 - (i mod 8)`, so the first decision is the most significant bit
(R84, R122). -/
def flagBit (flagByte : Byte) (i : Nat) : Bool := flagByte.getLsbD (7 - i % 8)

/-- One flag byte from at most eight decisions, MSB-first, the missing ones 0 (R84). -/
def packByte (flags : List Bool) : Byte :=
  (List.range 8).foldl (fun acc m => acc ||| ((BitVec.ofBool (flags.getD m false)).setWidth 8 <<< (7 - m))) 0#8

/-- `PackFlags(flags)` (R123): flag byte `j` holds decisions `8j` to `8j + 7`. -/
def packFlags (flags : List Bool) : List Byte :=
  (List.range (ceil8 flags.length)).map (fun j => packByte ((flags.drop (8 * j)).take 8))

/-! ### Token streams (R96, R99) -/

/-- The decision bit of a token (R90); a command has none. -/
def tokenDecision : Instr → Option Bool
  | .compress => none
  | .decompress => none
  | .findMatch => none
  | .lit _ => some false
  | .matchRecord _ _ => some true

/-- The content bytes of a token (R85, R86); a command has none. -/
def tokenContent : Instr → List Byte
  | .compress => []
  | .decompress => []
  | .findMatch => []
  | .lit b => [b]
  | .matchRecord d l => le16 d ++ [l]

/-- The decisions of a token stream, in order (R120). -/
def streamFlags (ts : List Instr) : List Bool := ts.filterMap tokenDecision

/-- The content stream of a token stream: the contents concatenated in decision order (R99). -/
def streamContent (ts : List Instr) : List Byte := ts.flatMap tokenContent

/-- Parse `n` tokens: decision `i` from the packed flag bytes, contents in order from the content stream (R88, R122). -/
def decodeStream (flagBytes : List Byte) : Nat → Nat → List Byte → Except DecodeError (List Instr)
  | 0, _, _ => .ok []
  | n + 1, i, content =>
    match decodeToken (flagBit (flagBytes.getD (i / 8) 0#8) i) content with
    | .error e => .error e
    | .ok (t, rest) =>
      match decodeStream flagBytes n (i + 1) rest with
      | .error e => .error e
      | .ok ts => .ok (t :: ts)

/-! ### The host's words (spec/opcode_table.json's numbering of bits) -/

/-- The bytes of a table word after its first byte. -/
def tableContent (nbits w : Nat) : List Byte := leBytes 3 ((w % 2 ^ nbits) / 256)

/-- A row of 64 bits is a CMD word; a shorter row is a token, whose bit 0 is the decision and whose later bytes are the
content (bits 7:1 of the first byte are no part of the token). The decision bit stands alone in its flag byte: log 22. -/
def decodeTableWord (nbits w : Nat) : Option Instr :=
  match decode (if 64 ≤ nbits then .command (leBytes 8 (w % 2 ^ nbits)) else .token (w.testBit 0) (tableContent nbits w)) with
  | .ok (i, _) => some i
  | .error _ => none

end Sys2Proof
end

