-- ==== Sys2Proof/Machine/State.lean ====
section
/-! DEFINITION. The state of the engine and of what stands around it: the register block (10_state.md R26 to R43), the
hidden state (R45, R46), the working registers (R21 to R23, 41_decision_stream.md R121), the DMA memory (20_memory.md
R60), the host's pending operations (30_encoding.md R97), and the reset state (70_reset_and_hazards.md R230). Plain
data. -/

namespace Sys2Proof.Machine

/-- Why the machine stops with a fault. The engine's own errors are no faults in this sense: they are fault completions
(60_exceptions.md R204), which are next states. -/
inductive Fault where
  /-- Raised by LIT, MATCH and the engine's single iterations in a state whose regions pass 2^64: the spec says such an
  address does not exist (20_memory.md R60, R71). No run reaches one: the checks of R203 come first. Safe. Log 23. -/
  | outsideAddressSpace
  deriving DecidableEq, Repr

/-- What the model has no transition for. -/
inductive Refusal where
  /-- Raised by `exec` for an instruction that has no meaning yet. Safe. -/
  | notModelled (mnemonic : String)
  /-- Raised by a host register access that is not 64 bits wide and 8-byte aligned: undefined, and a model refuses it
  (10_state.md R27, U1). Safe. Log 15. -/
  | registerAccessShape
  /-- Raised by a CMD write that would launch a command whose source or destination region maps to a device or to the
  register block: undefined, and the model refuses the write (20_memory.md R61, U7). Safe. Log 14. -/
  | regionNotMemory
  /-- Raised by a host write to a region of the running command: undefined, and the model has no such move
  (70_reset_and_hazards.md R248, U6). Safe. Log 14. -/
  | bufferOwnership
  /-- Raised by a host byte access to an address that is not ordinary memory: a device's behaviour is not the spec's, and
  a byte access to the register block is undefined (U1, 20_memory.md R61). Safe. Log 27. -/
  | deviceAccess
  deriving DecidableEq, Repr

/-- The cause codes of STATUS.CAUSE (60_exceptions.md R201). Codes 0x0C to 0xFF are never produced, so they have no
constructor (U23). -/
inductive Cause where
  | none
  | alloc
  | badCmd
  | addrRange
  | overlap
  | badPosition
  | blobTruncated
  | contentOverrun
  | badDisplacement
  | outputOverrun
  | lengthMismatch
  | contentLeftover
  deriving DecidableEq, Repr

/-- STATUS (10_state.md R29). The reserved bits read 0 and ignore writes, so they are not held. -/
structure Status where
  busy : Bool
  done : Bool
  error : Bool
  dropped : Bool
  cause : Cause
  deriving DecidableEq, Repr

/-- MATCH_RESULT (10_state.md R41). The reserved bits read 0, so they are not held. -/
structure MatchResult where
  disp : BitVec 16
  len : Byte
  deriving DecidableEq, Repr

/-- The engine phase (10_state.md R45). -/
inductive Phase where
  | idle
  | runCompress
  | runDecompress
  | runFind
  | runBadCmd
  deriving DecidableEq, Repr

/-- The latched configuration `L` (10_state.md R46). -/
structure Latched where
  cmd : Word
  srcAddr : Word
  srcLen : Word
  dstAddr : Word
  dstCap : Word
  position : Word
  windowLimit : Word
  deriving DecidableEq, Repr

/-- The encoder's working registers (10_state.md R21) with the packer's bit cursor and flag bytes (41_decision_stream.md
R121). The cursors are 64 bits wide (D29) and cannot wrap (R24, log 18). -/
structure EncRegs where
  pos : Word
  wcur : Word
  dcount : Word
  flags : List Bool
  content : List Byte
  wbit : Word
  fbuf : List Byte
  deriving DecidableEq, Repr

/-- The decoder's working registers (10_state.md R22), each 64 bits wide (D29). The cursors never pass their header
fields (R159, log 18). -/
structure DecRegs where
  rc : Word
  di : Word
  wc : Word
  ol : Word
  cl : Word
  fc : Word
  deriving DecidableEq, Repr

/-- The match finder's working registers (10_state.md R23): the query's operands (R100: `wl ≤ 65535`, `maxlen ≤ 255`), the
candidate displacement, the length counter and the best pair so far. `d` holds the candidate last tried, 0 before the
first, so it stays within the 16 bits the rule gives it (log 18). -/
structure FinderRegs where
  p : Word
  wl : BitVec 16
  maxlen : Byte
  d : BitVec 16
  k : Byte
  bestD : BitVec 16
  bestL : Byte
  deriving DecidableEq, Repr

/-- A span of addresses, `len` bytes from `base`. -/
structure Span where
  base : Nat
  len : Nat
  deriving DecidableEq, Repr

/-- One operation of the host (30_encoding.md R97, 20_memory.md R73, 70_reset_and_hazards.md R230). Register accesses
name the offset in the block and the access width in bytes. -/
inductive HostOp where
  /-- A register write of `v` at offset `off` (`WR`). -/
  | wr (off : Byte) (width : Nat) (v : Word)
  /-- A register read at offset `off` (`RD`). -/
  | rd (off : Byte) (width : Nat)
  /-- Repeated reads of STATUS until BUSY reads 0 (`WAIT`, R97). -/
  | wait
  /-- A byte store to memory. -/
  | store (a : Word) (v : Byte)
  /-- A byte load from memory. -/
  | load (a : Word)
  /-- The reset input (70_reset_and_hazards.md R230, R231). -/
  | reset
  deriving DecidableEq, Repr

/-- Who moves next, and for the engine in which granularity (92_eei_decisions.md D31). -/
inductive Turn where
  /-- The host carries out its next operation. -/
  | host
  /-- The engine runs a command not yet begun whole, or one iteration of a command in progress. -/
  | engine
  /-- The engine begins a command not yet begun, or runs one iteration of a command in progress. -/
  | engineFine
  deriving DecidableEq, Repr

/-- The whole state. The last seven fields are the model's own (INVENTORY.md, State). -/
structure State where
  /-- CMD (R28). -/
  cmd : Word
  /-- STATUS (R29). -/
  status : Status
  /-- IRQ_EN.DONE_IE (R31). -/
  doneIe : Bool
  /-- SRC_ADDR (R32). -/
  srcAddr : Word
  /-- SRC_LEN (R33). -/
  srcLen : Word
  /-- DST_ADDR (R34). -/
  dstAddr : Word
  /-- DST_CAP (R35). -/
  dstCap : Word
  /-- POSITION (R36). -/
  position : Word
  /-- WINDOW_LIMIT (R37). -/
  windowLimit : Word
  /-- RESULT_LEN (R38). -/
  resultLen : Word
  /-- RES_FLAG_COUNT (R39). -/
  resFlagCount : Word
  /-- RES_CONTENT_LEN (R40). -/
  resContentLen : Word
  /-- MATCH_RESULT (R41). -/
  matchResult : MatchResult
  /-- The engine phase (R45). -/
  phase : Phase
  /-- The latched configuration (R46). -/
  latched : Latched
  /-- The encoder's working registers (R21). -/
  enc : EncRegs
  /-- The decoder's working registers (R22). -/
  dec : DecRegs
  /-- The match finder's working registers (R23). -/
  finder : FinderRegs
  /-- The DMA memory (R60): the bytes written so far, in canonical form (log 2). -/
  mem : List Host.Cell
  /-- The running command has begun and goes on iteration by iteration (D31, log 5). -/
  inLoop : Bool
  /-- How many draws of free values were made (log 7). -/
  draws : Nat
  /-- The host operations still to come, the next first (log 3). -/
  host : List HostOp
  /-- Who moves next; when empty, the engine while a command runs, else the host (log 4). -/
  turns : List Turn
  /-- The data of the host's last read (log 3). -/
  busData : Word
  /-- REG_BASE, the address of the register block (R26, OPEN, log 16). -/
  regBase : Word
  /-- The platform's addresses that are not ordinary memory, the register block apart (R61, log 16). -/
  devices : List Span
  deriving DecidableEq, Repr

/-- The latched configuration at reset: unspecified and unread (R230). DESIGN CHOICE: zeros (log 17). -/
def Latched.zero : Latched := ⟨0, 0, 0, 0, 0, 0, 0⟩

/-- The encoder's registers at the start of COMPRESS (R21, R121), and outside a command (DESIGN CHOICE, log 17). -/
def EncRegs.zero : EncRegs := ⟨0, 0, 0, [], [], 0, []⟩

/-- The decoder's registers outside a command (DESIGN CHOICE, log 17). -/
def DecRegs.zero : DecRegs := ⟨0, 0, 0, 0, 0, 0⟩

/-- The finder's registers outside a query (DESIGN CHOICE, log 17). -/
def FinderRegs.zero : FinderRegs := ⟨0, 0, 0, 0, 0, 0, 0⟩

/-- The machine right after reset (R230): every register of the block 0, the phase IDLE. Memory lists nothing (log 1).
The latched and working registers are unspecified and unread (log 17); REG_BASE is OPEN (log 16). -/
def State.reset : State where
  cmd := 0
  status := ⟨false, false, false, false, .none⟩
  doneIe := false
  srcAddr := 0
  srcLen := 0
  dstAddr := 0
  dstCap := 0
  position := 0
  windowLimit := 0
  resultLen := 0
  resFlagCount := 0
  resContentLen := 0
  matchResult := ⟨0, 0⟩
  phase := .idle
  latched := Latched.zero
  enc := EncRegs.zero
  dec := DecRegs.zero
  finder := FinderRegs.zero
  mem := []
  inLoop := false
  draws := 0
  host := []
  turns := []
  busData := 0
  regBase := 0x8000000000000000
  devices := []

end Sys2Proof.Machine
end

