-- ==== Sys2Proof/Machine/Flags.lean ====
section
/-! DEFINITION. STATUS and the other register words as the host sees them (10_state.md R29 to R31, R41, R42), every
update of a STATUS bit (R28, R30, 60_exceptions.md R204, R205) and the interrupt output (R210). -/

namespace Sys2Proof.Machine

/-- The code of a cause (60_exceptions.md R201). -/
def causeCode : Cause → Byte
  | .none => 0x00
  | .alloc => 0x01
  | .badCmd => 0x02
  | .addrRange => 0x03
  | .overlap => 0x04
  | .badPosition => 0x05
  | .blobTruncated => 0x06
  | .contentOverrun => 0x07
  | .badDisplacement => 0x08
  | .outputOverrun => 0x09
  | .lengthMismatch => 0x0A
  | .contentLeftover => 0x0B

/-- STATUS as a word (R29): BUSY, DONE, ERROR, DROPPED in bits 0 to 3, CAUSE in bits 15:8, the rest 0. -/
def statusWord (st : Status) : Word :=
  (BitVec.ofBool st.busy).setWidth 64 ||| (BitVec.ofBool st.done).setWidth 64 <<< 1
    ||| (BitVec.ofBool st.error).setWidth 64 <<< 2 ||| (BitVec.ofBool st.dropped).setWidth 64 <<< 3
    ||| (causeCode st.cause).setWidth 64 <<< 8

/-- MATCH_RESULT as a word (R41): DISP in bits 15:0, LEN in bits 23:16, the rest 0. -/
def matchResultWord (r : MatchResult) : Word := r.disp.setWidth 64 ||| r.len.setWidth 64 <<< 16

/-- IRQ_EN as a word (R31): DONE_IE in bit 0, the rest 0. -/
def irqEnWord (doneIe : Bool) : Word := (BitVec.ofBool doneIe).setWidth 64

/-- PARAMS (R42): WINDOW in bits 15:0, MAX_MATCH in 23:16, MIN_MATCH in 31:24, MATCH_REC_BYTES in 39:32, HEADER_BYTES
in 47:40, the rest 0. -/
def paramsWord : Word :=
  BitVec.ofNat 64 (Config.window + 2 ^ 16 * Config.maxMatch + 2 ^ 24 * Config.minMatch
    + 2 ^ 32 * Config.matchRecBytes + 2 ^ 40 * Config.headerBytes)

/-- STATUS after an accepted CMD write (R28). DROPPED is kept. -/
def statusAccepted (st : Status) : Status :=
  { st with busy := true, done := false, error := false, cause := .none }

/-- STATUS after a dropped CMD write (R28). -/
def statusDropped (st : Status) : Status := { st with dropped := true }

/-- STATUS after a host write of `w` (R30): bit 1 clears DONE, bit 2 clears ERROR and CAUSE, bit 3 clears DROPPED. -/
def statusCleared (w : Word) (st : Status) : Status where
  busy := st.busy
  done := st.done && !w.getLsbD 1
  error := st.error && !w.getLsbD 2
  dropped := st.dropped && !w.getLsbD 3
  cause := if w.getLsbD 2 then .none else st.cause

/-- STATUS after a fault completion with cause `c` (R204). -/
def statusFaulted (c : Cause) (st : Status) : Status :=
  { st with cause := c, error := true, done := true, busy := false }

/-- STATUS after a successful completion (R205). -/
def statusCompleted (st : Status) : Status :=
  { st with cause := .none, error := false, done := true, busy := false }

/-- The interrupt output (R210): `IRQ_EN.DONE_IE AND STATUS.DONE`, a level. -/
def irq (s : State) : Bool := s.doneIe && s.status.done

end Sys2Proof.Machine
end

