-- ==== Sys2Proof/Machine/Ops.lean ====
section
/-! DEFINITION. The named operations on memory and registers: reading and writing bytes (20_memory.md R60), free values
(93_implementation_defined.md U4, U8, U15, U16), acceptance of a command (10_state.md R28, R44), the two completions
(60_exceptions.md R204, R205), and reset (70_reset_and_hazards.md R230 to R232). -/

namespace Sys2Proof.Machine

/-! ### Memory -/

/-- The cells of `bytes` laid out from address `a` up, none at or past 2^64. -/
def cellsFrom : Nat → List Byte → List Host.Cell
  | _, [] => []
  | a, b :: bs => if a < addressSpace then (a, b) :: cellsFrom (a + 1) bs else []

/-- The byte listed at address `a`, if any. -/
def memGet : List Host.Cell → Nat → Option Byte
  | [], _ => none
  | (x, b) :: m, a => if x = a then some b else memGet m a

/-- `MemWrite` of the bytes `bytes` at `a`, `a + 1`, …: the cells below, the new cells, the cells above. Addresses at or
past 2^64 do not exist and hold nothing (R60, R71). -/
def memWrite (m : List Host.Cell) (a : Nat) (bytes : List Byte) : List Host.Cell :=
  m.filter (fun c => c.1 < a) ++ cellsFrom a bytes ++ m.filter (fun c => a + bytes.length ≤ c.1)

/-- `MemRead(a, 1)` (R11): the byte last written at `a`, or the unknown byte the address held before anything was
written there (log 1). -/
def memRead (m : List Host.Cell) (a : Nat) : Byte := (memGet m a).getD (Config.initialByte a)

/-- The canonical form of a memory: addresses strictly rising and below 2^64 (log 2). -/
def memWf : List Host.Cell → Bool
  | [] => true
  | [c] => decide (c.1 < addressSpace)
  | c :: e :: m => decide (c.1 < e.1) && memWf (e :: m)

/-- The byte at address `a`. -/
def readByte (s : State) (a : Nat) : Byte := memRead s.mem a

/-- The state with `bytes` written from address `a` up. -/
def writeBytes (s : State) (a : Nat) (bytes : List Byte) : State := { s with mem := memWrite s.mem a bytes }

/-! ### Free values -/

/-- `n` bytes of draw number `draw`. -/
def drawnBytes (draw n : Nat) : List Byte := (List.range n).map (Config.freeByte draw)

/-- The `n` bytes from address `a` up take unspecified values (U8, U15, U16). -/
def drawBytes (s : State) (a n : Nat) : State :=
  { writeBytes s a (drawnBytes s.draws n) with draws := s.draws + 1 }

/-- MATCH_RESULT with unspecified fields; its reserved bits still read 0 (R41, U2, log 9). -/
def drawnMatchResult (draw : Nat) : MatchResult :=
  ⟨(Config.freeWord draw 3).setWidth 16, (Config.freeWord draw 3 >>> 16).setWidth 8⟩

/-- The four result registers take unspecified values (60_exceptions.md R202, U4). -/
def drawResults (s : State) : State :=
  { s with
    resultLen := Config.freeWord s.draws 0
    resFlagCount := Config.freeWord s.draws 1
    resContentLen := Config.freeWord s.draws 2
    matchResult := drawnMatchResult s.draws
    draws := s.draws + 1 }

/-! ### Regions (R71, R62) -/

/-- The region of `n` bytes at `a` is in range (R71). -/
def regionInRange (a n : Nat) : Bool := decide (a + n ≤ addressSpace)

/-- Two regions are both non-empty and intersect (the OVERLAP condition of R136 and R157). -/
def regionsOverlap (a n b m : Nat) : Bool := decide (0 < n ∧ 0 < m ∧ a < b + m ∧ b < a + n)

/-- Address `x` lies in the region of `n` bytes at `a`. -/
def inRegion (a n x : Nat) : Bool := decide (a ≤ x ∧ x < a + n)

/-- The command word `w` reads the source region (R62). -/
def reachesSource (w : Word) : Bool := validCommandWord w

/-- The command word `w` reaches the destination region: COMPRESS and DECOMPRESS only (R62, log 13). -/
def reachesDest (w : Word) : Bool := w == 0x1#64 || w == 0x2#64

/-- Address `x` lies in the source region of the running command. -/
def inRunningSource (s : State) (x : Nat) : Bool :=
  s.status.busy && reachesSource s.latched.cmd && inRegion s.latched.srcAddr.toNat s.latched.srcLen.toNat x

/-- Address `x` lies in the destination region of the running command. -/
def inRunningDest (s : State) (x : Nat) : Bool :=
  s.status.busy && reachesDest s.latched.cmd && inRegion s.latched.dstAddr.toNat s.latched.dstCap.toNat x

/-- The register block takes 0x100 bytes at REG_BASE (R26). -/
def registerBlock (s : State) : Span := ⟨s.regBase.toNat, 0x100⟩

/-- Everything that is not ordinary memory (R61): the register block and the platform's devices. -/
def notMemory (s : State) : List Span := registerBlock s :: s.devices

/-- A region of `n` bytes at `a` maps to something that is not ordinary memory. -/
def regionOnDevice (s : State) (a n : Nat) : Bool := (notMemory s).any (fun d => regionsOverlap a n d.base d.len)

/-! ### Acceptance and completion -/

/-- The RUN phase a command word selects (R45). -/
def phaseOf (w : Word) : Phase :=
  match decodeCommand w with
  | .ok .compress => .runCompress
  | .ok .decompress => .runDecompress
  | .ok .findMatch => .runFind
  | .ok (.lit _) => .runBadCmd
  | .ok (.matchRecord _ _) => .runBadCmd
  | .error _ => .runBadCmd

/-- The configuration that accepting the command word `w` now would latch (R44). -/
def pendingLatched (s : State) (w : Word) : Latched :=
  ⟨w, s.srcAddr, s.srcLen, s.dstAddr, s.dstCap, s.position, s.windowLimit⟩

/-- Acceptance of the command word `w` (R28, R44, R45). -/
def acceptCommand (w : Word) (s : State) : State :=
  { s with
    cmd := w
    status := statusAccepted s.status
    phase := phaseOf w
    latched := pendingLatched s w
    inLoop := false }

/-- The engine goes idle: no working register survives a command (R47, R204, log 18). DESIGN CHOICE: the latched
configuration keeps its old values, where the spec leaves it unspecified and unread (R46, U5, log 29). -/
def toIdle (s : State) : State :=
  { s with
    phase := .idle
    enc := EncRegs.zero
    dec := DecRegs.zero
    finder := FinderRegs.zero
    inLoop := false }

/-- `raise Fault(c)` (R204): the fault completion, the engine's exception entry. CAUSE, ERROR, DONE and BUSY change in
one update, the phase is IDLE, and the result registers become unspecified (R202). -/
def raiseFault (c : Cause) (s : State) : State :=
  { toIdle (drawResults s) with status := statusFaulted c s.status }

/-- A fault raised at or after the first token (R206, C8): `dst[0, ol)` is unspecified as a whole (U15). -/
def raiseReplayFault (c : Cause) (s : State) : State :=
  raiseFault c (drawBytes s s.latched.dstAddr.toNat s.dec.ol.toNat)

/-- `complete()` (R205) after the result registers were written with the given values. -/
def complete (resultLen resFlagCount resContentLen : Word) (r : MatchResult) (s : State) : State :=
  { toIdle s with
    resultLen := resultLen
    resFlagCount := resFlagCount
    resContentLen := resContentLen
    matchResult := r
    status := statusCompleted s.status }

/-- Clearing an error (R207) and every STATUS write (R30): there is no other return from a fault. -/
def writeStatus (w : Word) (s : State) : State := { s with status := statusCleared w s.status }

/-! ### Reset -/

/-- Reset abandons a running command: every byte of its destination region becomes unspecified (R231, U16). -/
def abandonCommand (s : State) : State :=
  if s.status.busy && reachesDest s.latched.cmd then
    drawBytes s s.latched.dstAddr.toNat s.latched.dstCap.toNat
  else s

/-- The reset input (R230 to R232): the engine as `State.reset` says, memory kept but for an abandoned command's
destination, and the host and the platform untouched. The latched and working registers take the values of log 17. -/
def resetEngine (s : State) : State :=
  { State.reset with
    mem := (abandonCommand s).mem
    draws := (abandonCommand s).draws
    host := s.host
    turns := s.turns
    busData := s.busData
    regBase := s.regBase
    devices := s.devices }

end Sys2Proof.Machine
end

