-- ==== Sys2Proof/Machine/Operands.lean ====
section
/-! DEFINITION. The operand forms: bytes of the source region (40_match_finder.md R105), the header fields
(30_encoding.md R82), decisions and content bytes of the blob being replayed (41_decision_stream.md R122,
43_decoder.md), output bytes, and the checks on the latched regions (20_memory.md R71, 60_exceptions.md R203). -/

namespace Sys2Proof.Machine

/-- Byte `i` of the source region, the input or buffer `B[i]` (R104, R136). -/
def sourceByte (s : State) (i : Nat) : Byte := readByte s (s.latched.srcAddr.toNat + i)

/-- The bytes of the source region from `i` on, `n` of them. -/
def sourceBytes (s : State) (i n : Nat) : List Byte := (List.range n).map (fun j => sourceByte s (i + j))

/-- `rdLE64(B, i)` (R10): the header field at blob offset `i` (R82). -/
def headerField (s : State) (i : Nat) : Word := BitVec.ofNat 64 (leValue (sourceBytes s i 8))

/-- `flag(i)` (R122): decision `i` of the blob being replayed. -/
def decision (s : State) (i : Nat) : Bool := flagBit (sourceByte s (Config.headerBytes + i / 8)) i

/-- `C[i]`: content byte `i` of the blob being replayed (43_decoder.md; the content area starts at 24 + ceil8(fc)). -/
def contentByte (s : State) (i : Nat) : Byte :=
  sourceByte s (Config.headerBytes + ceil8 s.dec.fc.toNat + i)

/-- The content bytes the next token may take: at most 3, and none at or past `cl` (R88, R152, R153). -/
def tokenBytes (s : State) : List Byte :=
  (List.range (min Config.matchRecBytes (s.dec.cl.toNat - s.dec.rc.toNat))).map (fun j => contentByte s (s.dec.rc.toNat + j))

/-- The address of output byte `i`, `O[i]` (43_decoder.md). -/
def outputAddr (s : State) (i : Nat) : Nat := s.latched.dstAddr.toNat + i

/-- ADDR_RANGE for the source region (R203, check 2). -/
def sourceOutOfRange (l : Latched) : Bool := !regionInRange l.srcAddr.toNat l.srcLen.toNat

/-- ADDR_RANGE for the destination region (R203, check 3). -/
def destOutOfRange (l : Latched) : Bool := !regionInRange l.dstAddr.toNat l.dstCap.toNat

/-- OVERLAP (R203, check 4). -/
def latchedOverlap (l : Latched) : Bool :=
  regionsOverlap l.srcAddr.toNat l.srcLen.toNat l.dstAddr.toNat l.dstCap.toNat

/-- Every address a token of the blob being replayed reaches exists: a run has checked it (R159, log 23). -/
def replayInSpace (s : State) : Bool :=
  decide (s.latched.srcAddr.toNat + Config.headerBytes + ceil8 s.dec.fc.toNat + s.dec.cl.toNat ≤ addressSpace
    ∧ s.latched.dstAddr.toNat + s.dec.ol.toNat ≤ addressSpace)

end Sys2Proof.Machine
end

