-- ==== Sys2Proof/Machine/Finder.lean ====
section
/-! DEFINITION. The match finder (40_match_finder.md R100 to R107) and the FIND_MATCH command (R104). The finder reads
its sequence `B` through a function of the index, on demand (R105). -/

namespace Sys2Proof.Machine

/-- The inner loop of R100: how many of the next `n` bytes at `i` and at `j` agree before the first that differ. -/
def matchLen (B : Nat → Byte) : Nat → Nat → Nat → Nat
  | 0, _, _ => 0
  | n + 1, i, j => if B i = B j then matchLen B n (i + 1) (j + 1) + 1 else 0

/-- The finder's registers at the start of a query (R100): no candidate tried yet. -/
def finderStart (p : Word) (wl : BitVec 16) (maxlen : Byte) : FinderRegs := ⟨p, wl, maxlen, 0, 0, 0, 0⟩

/-- The next candidate displacement (R100): the best pair changes only on a strictly longer agreement, so ties keep the
nearer one (R101). -/
def finderCandidate (B : Nat → Byte) (f : FinderRegs) : FinderRegs :=
  let d := f.d + 1
  let k := BitVec.ofNat 8 (matchLen B f.maxlen.toNat (f.p.toNat - d.toNat) f.p.toNat)
  if f.bestL.toNat < k.toNat then { f with d := d, k := k, bestD := d, bestL := k } else { f with d := d, k := k }

/-- `n` candidates, in rising displacement. -/
def finderLoop (B : Nat → Byte) : Nat → FinderRegs → FinderRegs
  | 0, f => f
  | n + 1, f => finderLoop B n (finderCandidate B f)

/-- `FindLongestMatch(B, p, wl, maxlen)` (R100): the registers after the last candidate. -/
def findLongestMatch (B : Nat → Byte) (p : Word) (wl : BitVec 16) (maxlen : Byte) : FinderRegs :=
  finderLoop B wl.toNat (finderStart p wl maxlen)

/-- The checks of FIND_MATCH (R104), after BAD_CMD: ADDR_RANGE, then BAD_POSITION. -/
def findChecks (l : Latched) : Option Cause :=
  if sourceOutOfRange l then some .addrRange
  else if l.srcLen.toNat < l.position.toNat then some .badPosition
  else none

/-- `min(n, WINDOW)` as the 16-bit window limit of a query (R100). -/
def clampWindow (n : Nat) : BitVec 16 := BitVec.ofNat 16 (min n Config.window)

/-- `min(MAX_MATCH, n)` as the 8-bit forward bound of a query (R100). -/
def clampMaxlen (n : Nat) : Byte := BitVec.ofNat 8 (min Config.maxMatch n)

/-- The effective window of FIND_MATCH (R37, R104). -/
def findWindow (l : Latched) : BitVec 16 := clampWindow (min l.windowLimit.toNat l.position.toNat)

/-- The forward bound of FIND_MATCH (R104). -/
def findMaxlen (l : Latched) : Byte := clampMaxlen (l.srcLen.toNat - l.position.toNat)

/-- FIND_MATCH begins its query. -/
def findBegin (s : State) : State :=
  { s with
    finder := finderStart s.latched.position (findWindow s.latched) (findMaxlen s.latched)
    inLoop := true }

/-- FIND_MATCH tries one candidate displacement. -/
def findIteration (s : State) : State := { s with finder := finderCandidate (sourceByte s) s.finder }

/-- FIND_MATCH tries `n` candidates. -/
def findLoop : Nat → State → State
  | 0, s => s
  | n + 1, s => findLoop n (findIteration s)

/-- FIND_MATCH completes with the best pair in MATCH_RESULT and the other results 0 (R104). -/
def findFinish (s : State) : State :=
  complete 0 0 0 ⟨s.finder.bestD, s.finder.bestL⟩ s

/-- FIND_MATCH (R104). -/
def execFindMatch (s : State) : Host.Outcome State Fault Refusal :=
  match findChecks s.latched with
  | some c => .next (raiseFault c s)
  | none => .next (findFinish (findLoop (findWindow s.latched).toNat (findBegin s)))

/-- The addresses a query in progress reads exist (R105, log 23). -/
def findInSpace (s : State) : Bool :=
  decide (s.latched.srcAddr.toNat + s.finder.p.toNat + s.finder.maxlen.toNat ≤ addressSpace)

/-- One iteration of a FIND_MATCH in progress: the next candidate, or the completion when none is left. -/
def findStep (s : State) : Host.Outcome State Fault Refusal :=
  if s.finder.d.toNat < s.finder.wl.toNat then
    if findInSpace s then .next (findIteration s) else .fault .outsideAddressSpace
  else .next (findFinish s)

end Sys2Proof.Machine
end

