-- ==== Sys2Proof/Machine/Encoder.lean ====
section
/-! DEFINITION. The encoder state machine (42_encoder.md R130 to R135), the bit packer (41_decision_stream.md R121), the
container formatter (44_container.md R171) and the COMPRESS command (R136). -/

namespace Sys2Proof.Machine

/-! ### The packer (R121) -/

/-- `FBUF[j] <- FBUF[j] | v`. -/
def orAt : List Byte → Nat → Byte → List Byte
  | [], _, _ => []
  | b :: bs, 0, v => (b ||| v) :: bs
  | b :: bs, j + 1, v => b :: orAt bs j v

/-- `write_bit(b)` (R121): a new byte starts as 0, the decision goes to bit `7 - m`. -/
def writeBit (b : Bool) (e : EncRegs) : EncRegs :=
  let fbuf := if e.wbit.toNat % 8 = 0 then e.fbuf ++ [0#8] else e.fbuf
  { e with
    fbuf := orAt fbuf (e.wbit.toNat / 8) ((BitVec.ofBool b).setWidth 8 <<< (7 - e.wbit.toNat % 8))
    wbit := e.wbit + 1 }

/-! ### One iteration (R130) -/

/-- One decision `b` with the content bytes `c`, which consumes `n` input bytes. -/
def emitToken (b : Bool) (c : List Byte) (n : Nat) (e : EncRegs) : EncRegs :=
  { writeBit b e with
    flags := e.flags ++ [b]
    content := e.content ++ c
    pos := e.pos + BitVec.ofNat 64 n
    wcur := e.wcur + BitVec.ofNat 64 c.length
    dcount := e.dcount + 1 }

/-- A literal run of `r` bytes (R132): each byte its own decision and its own content byte. -/
def literalRun (B : Nat → Byte) : Nat → EncRegs → EncRegs
  | 0, e => e
  | r + 1, e => literalRun B r (emitToken false [B e.pos.toNat] 1 e)

/-- One match (R133): decision 1 and the record `LE16(d) ++ [l]`. -/
def emitMatch (d : BitVec 16) (l : Byte) (e : EncRegs) : EncRegs := emitToken true (le16 d ++ [l]) l.toNat e

/-- The finder query of one iteration (R131). -/
def encodeQuery (B : Nat → Byte) (n : Nat) (e : EncRegs) : FinderRegs :=
  findLongestMatch B e.pos (clampWindow e.pos.toNat) (clampMaxlen (n - e.pos.toNat))

/-- What an iteration emits, given its query's result (R132, R133). No search takes place inside a literal run
(R134). -/
def encodeEmit (B : Nat → Byte) (f : FinderRegs) (e : EncRegs) : EncRegs :=
  if f.bestL.toNat < Config.minMatch then literalRun B (max 1 f.bestL.toNat) e else emitMatch f.bestD f.bestL e

/-! ### The container formatter (R171) -/

/-- `Pack(n, content, flags)` (R171). -/
def pack (n : Nat) (content : List Byte) (flags : List Bool) : List Byte :=
  le64 (BitVec.ofNat 64 n) ++ le64 (BitVec.ofNat 64 content.length) ++ le64 (BitVec.ofNat 64 flags.length)
    ++ packFlags flags ++ content

/-- The blob the encoder's registers hold: Pack with the cursors as the counts and FBUF as the packed decisions
(R82, R121, R171). -/
def blobOf (n : Nat) (e : EncRegs) : List Byte :=
  le64 (BitVec.ofNat 64 n) ++ le64 e.wcur ++ le64 e.dcount ++ e.fbuf ++ e.content

/-! ### COMPRESS (R136) -/

/-- The checks of COMPRESS (R136), after BAD_CMD, in the order of R203. -/
def compressChecks (l : Latched) : Option Cause :=
  if sourceOutOfRange l then some .addrRange
  else if destOutOfRange l then some .addrRange
  else if latchedOverlap l then some .overlap
  else if l.dstCap.toNat < Config.headerBytes + ceil8 l.srcLen.toNat + l.srcLen.toNat then some .alloc
  else none

/-- The encoder starts (R130). -/
def compressBegin (s : State) : State := { s with enc := EncRegs.zero, inLoop := true }

/-- One encoder iteration (R130). -/
def compressIteration (s : State) : State :=
  { s with
    finder := encodeQuery (sourceByte s) s.latched.srcLen.toNat s.enc
    enc := encodeEmit (sourceByte s) (encodeQuery (sourceByte s) s.latched.srcLen.toNat s.enc) s.enc }

/-- At most `n` encoder iterations, while input is left (R130, R139). -/
def compressLoop : Nat → State → State
  | 0, s => s
  | n + 1, s => if s.enc.pos.toNat < s.latched.srcLen.toNat then compressLoop n (compressIteration s) else s

/-- The blob of the command. -/
def compressBlob (s : State) : List Byte := blobOf s.latched.srcLen.toNat s.enc

/-- The blob goes to the destination (R136, log 26). -/
def storeBlob (s : State) : State := writeBytes s s.latched.dstAddr.toNat (compressBlob s)

/-- The destination past the blob is unspecified (R136, U8, log 11). -/
def scratchDest (blobLen : Nat) (s : State) : State :=
  drawBytes s (s.latched.dstAddr.toNat + blobLen) (s.latched.dstCap.toNat - blobLen)

/-- COMPRESS completes: the blob, the scratch area, the result registers (R136). -/
def compressFinish (s : State) : State :=
  complete (BitVec.ofNat 64 (compressBlob s).length) (BitVec.ofNat 64 s.enc.flags.length)
    (BitVec.ofNat 64 s.enc.content.length) ⟨0, 0⟩ (scratchDest (compressBlob s).length (storeBlob s))

/-- COMPRESS (R136). -/
def execCompress (s : State) : Host.Outcome State Fault Refusal :=
  match compressChecks s.latched with
  | some c => .next (raiseFault c s)
  | none => .next (compressFinish (compressLoop s.latched.srcLen.toNat (compressBegin s)))

/-- The addresses a COMPRESS in progress reads or writes exist (log 23). -/
def compressInSpace (s : State) : Bool :=
  regionInRange s.latched.srcAddr.toNat s.latched.srcLen.toNat
    && regionInRange s.latched.dstAddr.toNat s.latched.dstCap.toNat
    && regionInRange s.latched.dstAddr.toNat (compressBlob s).length

/-- One iteration of a COMPRESS in progress: the next encoder iteration, or the completion when no input is left. -/
def compressStep (s : State) : Host.Outcome State Fault Refusal :=
  if compressInSpace s then
    if s.enc.pos.toNat < s.latched.srcLen.toNat then .next (compressIteration s) else .next (compressFinish s)
  else .fault .outsideAddressSpace

end Sys2Proof.Machine
end

