-- ==== Sys2Proof/Machine/Decoder.lean ====
section
/-! DEFINITION. The decoder and replay engine (43_decoder.md R150 to R159), the container parser (44_container.md R173)
and the instructions LIT, MATCH and DECOMPRESS. A step of the replay answers the state after it or the cause it faults
with. -/

namespace Sys2Proof.Machine

/-! ### The two tokens (R152, R153) -/

/-- LIT (R152). -/
def litToken (b : Byte) (s : State) : Except Cause State :=
  if s.dec.cl.toNat < s.dec.rc.toNat + 1 then .error .contentOverrun
  else if s.dec.ol.toNat < s.dec.wc.toNat + 1 then .error .outputOverrun
  else .ok { writeBytes s (outputAddr s s.dec.wc.toNat) [b] with
      dec := { s.dec with rc := s.dec.rc + 1, wc := s.dec.wc + 1, di := s.dec.di + 1 } }

/-- The copy of a MATCH (R154): `n` single-byte copies from `d` bytes back, in rising order from output address `a`;
each read sees the writes before it (R69). -/
def copyBytes : Nat → Nat → Nat → State → State
  | 0, _, _, s => s
  | n + 1, a, d, s => copyBytes n (a + 1) d (writeBytes s a [readByte s (a - d)])

/-- MATCH (R153): CONTENT_OVERRUN, then BAD_DISPLACEMENT whatever the length (R155), then OUTPUT_OVERRUN, then the
copy. -/
def matchToken (d : BitVec 16) (l : Byte) (s : State) : Except Cause State :=
  if s.dec.cl.toNat < s.dec.rc.toNat + Config.matchRecBytes then .error .contentOverrun
  else if d.toNat = 0 ∨ s.dec.wc.toNat < d.toNat then .error .badDisplacement
  else if s.dec.ol.toNat < s.dec.wc.toNat + l.toNat then .error .outputOverrun
  else .ok { copyBytes l.toNat (outputAddr s s.dec.wc.toNat) d.toNat s with
      dec := { s.dec with
        rc := s.dec.rc + BitVec.ofNat 64 Config.matchRecBytes, wc := s.dec.wc + l.setWidth 64, di := s.dec.di + 1 } }

/-- The state after a token, or the fault completion it raises (R204, R206). -/
def settleToken (s : State) : Except Cause State → State
  | .ok t => t
  | .error c => raiseReplayFault c s

/-- LIT (R152). -/
def execLit (b : Byte) (s : State) : Host.Outcome State Fault Refusal :=
  if replayInSpace s then .next (settleToken s (litToken b s)) else .fault .outsideAddressSpace

/-- MATCH (R153). -/
def execMatchRecord (d : BitVec 16) (l : Byte) (s : State) : Host.Outcome State Fault Refusal :=
  if replayInSpace s then .next (settleToken s (matchToken d l s)) else .fault .outsideAddressSpace

/-! ### Replay (R150, R151, R156) -/

/-- The token at the decision index: its decision, then its content (R151). -/
def fetchToken (s : State) : Except DecodeError Instr :=
  match decodeToken (decision s s.dec.di.toNat) (tokenBytes s) with
  | .ok (i, _) => .ok i
  | .error e => .error e

/-- Execute a token. A command is no token: no decision bit decodes to one. -/
def runToken : Instr → State → Except Cause State
  | .compress, s => .ok s
  | .decompress, s => .ok s
  | .findMatch, s => .ok s
  | .lit b, s => litToken b s
  | .matchRecord d l, s => matchToken d l s

/-- One pass of the replay loop: fetch a token and execute it. A token whose content is exhausted is CONTENT_OVERRUN, the
first check of both tokens (R203, check 8). -/
def replayToken (s : State) : Except Cause State :=
  match fetchToken s with
  | .ok i => runToken i s
  | .error _ => .error .contentOverrun

/-- The end-of-replay checks (R156). -/
def endOfReplay (s : State) : Except Cause State :=
  if s.dec.wc ≠ s.dec.ol then .error .lengthMismatch
  else if s.dec.rc ≠ s.dec.cl then .error .contentLeftover
  else .ok s

/-- The replay loop with `n` decisions left, then the end checks (R150). -/
def replay : Nat → State → Except Cause State
  | 0, s => endOfReplay s
  | n + 1, s =>
    match replayToken s with
    | .ok t => replay n t
    | .error c => .error c

/-! ### DECOMPRESS (R157) -/

/-- The checks of DECOMPRESS before Unpack (R157, R203). -/
def decompressChecks (l : Latched) : Option Cause :=
  if sourceOutOfRange l then some .addrRange
  else if destOutOfRange l then some .addrRange
  else if latchedOverlap l then some .overlap
  else none

/-- The header fields at the start of the source region, with the cursors at 0 (R82, R22). -/
def headerRegs (s : State) : DecRegs :=
  ⟨0, 0, 0, headerField s 0, headerField s 8, headerField s 16⟩

/-- The size of a blob with these header fields (R175). -/
def blobSize (r : DecRegs) : Nat := Config.headerBytes + ceil8 r.fc.toNat + r.cl.toNat

/-- `Unpack(src_addr, sl)` (R173). -/
def unpack (s : State) : Except Cause DecRegs :=
  if s.latched.srcLen.toNat < Config.headerBytes then .error .blobTruncated
  else if s.latched.srcLen.toNat < blobSize (headerRegs s) then .error .blobTruncated
  else .ok (headerRegs s)

/-- Everything of DECOMPRESS before the first token: the checks, Unpack, and the capacity check (R157). -/
def decompressBegin (s : State) : Except Cause State :=
  match decompressChecks s.latched with
  | some c => .error c
  | none =>
    match unpack s with
    | .error c => .error c
    | .ok r =>
      if s.latched.dstCap.toNat < r.ol.toNat then .error .alloc
      else .ok { s with dec := r, inLoop := true }

/-- DECOMPRESS completes (R157). -/
def decompressFinish (s : State) : State := complete s.dec.ol s.dec.fc s.dec.cl ⟨0, 0⟩ s

/-- What the end of a replay begun at `s` comes to. -/
def settleReplay (s : State) : Except Cause State → State
  | .ok t => decompressFinish t
  | .error c => raiseReplayFault c s

/-- DECOMPRESS (R157). -/
def execDecompress (s : State) : Host.Outcome State Fault Refusal :=
  match decompressBegin s with
  | .error c => .next (raiseFault c s)
  | .ok t => .next (settleReplay t (replay t.dec.fc.toNat t))

end Sys2Proof.Machine
end

