-- ==== Sys2Proof/Machine/Dispatch.lean ====
section
/-! DEFINITION. The dispatch: one arm per instruction, one direct call of its meaning. -/

namespace Sys2Proof.Machine

def exec (i : Instr) (s : State) : Host.Outcome State Fault Refusal :=
  match i with
  | .compress => Sys2Proof.Machine.execCompress s
  | .decompress => Sys2Proof.Machine.execDecompress s
  | .findMatch => Sys2Proof.Machine.execFindMatch s
  | .lit b => Sys2Proof.Machine.execLit b s
  | .matchRecord d l => Sys2Proof.Machine.execMatchRecord d l s

end Sys2Proof.Machine
end

