-- ==== Sys2Proof/Machine/Engine.lean ====
section
/-! DEFINITION. The engine's turn: which instruction it runs next (00_scope.md R2, 10_state.md R45), in one of the two
granularities 92_eei_decisions.md D31 allows (log 5), and how a word of the opcode table is placed where the engine
fetches next (log 6). -/

namespace Sys2Proof.Machine

/-- The command the engine fetches: the latched command word, decoded (R28, R44). -/
def fetchCommand (s : State) : Except DecodeError Instr := decodeCommand s.latched.cmd

/-- A reserved command word completes with BAD_CMD (R91, R203 check 1). -/
def badCommand (s : State) : State := raiseFault .badCmd s

/-- The engine runs a command not yet begun, whole: from acceptance to completion in one transition (D31). -/
def runCommand (s : State) : Host.Outcome State Fault Refusal :=
  match fetchCommand s with
  | .ok i => exec i s
  | .error _ => .next (badCommand s)

/-- One pass of a DECOMPRESS in progress (R150): the next token, or, when the decisions are used up, the end checks and
the completion (R156, R157). -/
def replayStep (s : State) : Host.Outcome State Fault Refusal :=
  if s.dec.di.toNat < s.dec.fc.toNat then
    match fetchToken s with
    | .ok i => exec i s
    | .error _ =>
      if replayInSpace s then .next (raiseReplayFault .contentOverrun s) else .fault .outsideAddressSpace
  else if replayInSpace s then .next (settleReplay s (endOfReplay s)) else .fault .outsideAddressSpace

/-- One iteration of the command in progress, by the phase (R45). -/
def engineIteration (s : State) : Host.Outcome State Fault Refusal :=
  match s.phase with
  | .idle => .next s
  | .runCompress => compressStep s
  | .runDecompress => replayStep s
  | .runFind => findStep s
  | .runBadCmd => .next (badCommand s)

/-- The checks of a command not yet begun, then its start, without its first iteration (D31). -/
def beginCommand (s : State) : State :=
  match fetchCommand s with
  | .ok .compress =>
    match compressChecks s.latched with
    | some c => raiseFault c s
    | none => compressBegin s
  | .ok .decompress =>
    match decompressBegin s with
    | .ok t => t
    | .error c => raiseFault c s
  | .ok .findMatch =>
    match findChecks s.latched with
    | some c => raiseFault c s
    | none => findBegin s
  | .ok (.lit _) => badCommand s
  | .ok (.matchRecord _ _) => badCommand s
  | .error _ => badCommand s

/-- The engine's turn with a command as one transition. An idle engine does nothing (R233, log 25). -/
def engineTurn (s : State) : Host.Outcome State Fault Refusal :=
  if s.status.busy then if s.inLoop then engineIteration s else runCommand s else .next s

/-- The engine's turn with one transition per iteration (D31). -/
def engineFineTurn (s : State) : Host.Outcome State Fault Refusal :=
  if s.status.busy then if s.inLoop then engineIteration s else .next (beginCommand s) else .next s

/-- `n` turns of the engine in the fine granularity. -/
def engineFineTurns : Nat → State → Host.Outcome State Fault Refusal
  | 0, s => .next s
  | n + 1, s =>
    match engineFineTurn s with
    | .next t => engineFineTurns n t
    | .fault f => .fault f
    | .refused r => .refused r

/-! ### Placing an instruction where the engine fetches next (log 6) -/

/-- The state right after the acceptance of the command word `w`, with no turn pending. -/
def placeCommand (w : Word) (s : State) : State := { acceptCommand w s with turns := [] }

/-- The decoder's registers at the start of a blob of one token with `cl` content bytes and `ol` output bytes. -/
def oneTokenRegs (ol cl : Nat) : DecRegs := ⟨0, 0, 0, BitVec.ofNat 64 ol, BitVec.ofNat 64 cl, 1⟩

/-- The latched configuration of a DECOMPRESS of a one-token blob at address 0 with `cl` content bytes, whose output
goes to 0x1000. -/
def oneTokenLatched (ol cl : Nat) : Latched :=
  ⟨0x2, 0, BitVec.ofNat 64 (Config.headerBytes + 1 + cl), 0x1000, BitVec.ofNat 64 ol, 0, 0⟩

/-- A DECOMPRESS in progress whose next token has the given decision and content bytes: header read, cursors at 0, the
flag byte and the content in memory. -/
def placeToken (decisionBit : Bool) (content : List Byte) (ol : Nat) (s : State) : State :=
  { s with
    cmd := 0x2
    status := statusAccepted s.status
    phase := .runDecompress
    latched := oneTokenLatched ol content.length
    dec := oneTokenRegs ol content.length
    inLoop := true
    turns := []
    mem := memWrite s.mem Config.headerBytes (packByte [decisionBit] :: content) }

/-- The instruction of a table word (spec/opcode_table.json's numbering of bits, log 22) placed where the engine fetches
next. A LIT has one content byte and one byte of output to fill; a MATCH has three content bytes. -/
def placeTableWord (s : State) (nbits w : Nat) : State :=
  if 64 ≤ nbits then placeCommand (BitVec.ofNat 64 (leValue (leBytes 8 (w % 2 ^ nbits)))) s
  else if w.testBit 0 then placeToken true (tableContent nbits w) 0 s
  else placeToken false ((tableContent nbits w).take 1) 1 s

end Sys2Proof.Machine
end

