-- ==== Sys2Proof/Machine/Bus.lean ====
section
/-! DEFINITION. The host's side: the register block as it is read and written (10_state.md R26 to R43), host accesses to
memory (20_memory.md R73), and the host's turn (30_encoding.md R97). -/

namespace Sys2Proof.Machine

/-- The registers of the block (R26). -/
inductive Reg where
  | cmd | status | irqEn | srcAddr | srcLen | dstAddr | dstCap | position | windowLimit
  | resultLen | resFlagCount | resContentLen | matchResult | params
  /-- Offsets 0x70 to 0xF8 (R43). -/
  | reserved
  deriving DecidableEq, Repr

/-- The register at an offset (R26). -/
def regAt (off : Byte) : Reg :=
  match off.toNat with
  | 0x00 => .cmd
  | 0x08 => .status
  | 0x10 => .irqEn
  | 0x18 => .srcAddr
  | 0x20 => .srcLen
  | 0x28 => .dstAddr
  | 0x30 => .dstCap
  | 0x38 => .position
  | 0x40 => .windowLimit
  | 0x48 => .resultLen
  | 0x50 => .resFlagCount
  | 0x58 => .resContentLen
  | 0x60 => .matchResult
  | 0x68 => .params
  | _ => .reserved

/-- A register access is defined only when it is 8 bytes wide and aligned to 8 (R27). -/
def accessDefined (off : Byte) (width : Nat) : Bool := width == 8 && off.toNat % 8 == 0

/-- The held value of a register (R26). PARAMS is hard-wired (R42), reserved offsets read 0 (R43). -/
def regValue (s : State) : Reg → Word
  | .cmd => s.cmd
  | .status => statusWord s.status
  | .irqEn => irqEnWord s.doneIe
  | .srcAddr => s.srcAddr
  | .srcLen => s.srcLen
  | .dstAddr => s.dstAddr
  | .dstCap => s.dstCap
  | .position => s.position
  | .windowLimit => s.windowLimit
  | .resultLen => s.resultLen
  | .resFlagCount => s.resFlagCount
  | .resContentLen => s.resContentLen
  | .matchResult => matchResultWord s.matchResult
  | .params => paramsWord
  | .reserved => 0

/-- The result registers, unspecified while BUSY = 1 (R38 to R41, U4). -/
def isResult : Reg → Bool
  | .resultLen => true
  | .resFlagCount => true
  | .resContentLen => true
  | .matchResult => true
  | .cmd => false
  | .status => false
  | .irqEn => false
  | .srcAddr => false
  | .srcLen => false
  | .dstAddr => false
  | .dstCap => false
  | .position => false
  | .windowLimit => false
  | .params => false
  | .reserved => false

/-- An unspecified value of a result register; MATCH_RESULT's reserved bits still read 0 (log 8, log 9). -/
def drawnReg (draw : Nat) : Reg → Word
  | .matchResult => matchResultWord (drawnMatchResult draw)
  | _ => Config.freeWord draw 0

/-- A host read of a register: the value goes to the host, and nothing of the engine changes (R27). A result register
read while BUSY = 1 gives any value, drawn for this read (U4). -/
def readReg (r : Reg) (s : State) : State :=
  if isResult r && s.status.busy then { s with busData := drawnReg s.draws r, draws := s.draws + 1 }
  else { s with busData := regValue s r }

/-- The checks DECOMPRESS makes before it reads its header (R203, checks 2 to 4, and check 5: `src_len < 24`). -/
def decompressLaunchCheck (l : Latched) : Option Cause :=
  match decompressChecks l with
  | some c => some c
  | none => if l.srcLen.toNat < Config.headerBytes then some .blobTruncated else none

/-- The first check that the latched command would fail before its first memory access (R203, checks 1 to 5, and
COMPRESS's check 7). Such a command reaches neither region (R62), so DEDUCED: what its regions map to does not matter and
it is not refused (log 14). Check 6 and DECOMPRESS's check 7 come after the header read and are no part of this. -/
def launchCheck (l : Latched) : Option Cause :=
  match decodeCommand l.cmd with
  | .ok .compress => compressChecks l
  | .ok .decompress => decompressLaunchCheck l
  | .ok .findMatch => findChecks l
  | .ok (.lit _) => some .badCmd
  | .ok (.matchRecord _ _) => some .badCmd
  | .error _ => some .badCmd

/-- The command word `w`, launched now, would pass the checks before its first access and have a region that is not
ordinary memory (R61, U7, log 14). -/
def launchesOnDevice (s : State) (w : Word) : Bool :=
  launchCheck (pendingLatched s w) == none
    && ((reachesSource w && regionOnDevice s s.srcAddr.toNat s.srcLen.toNat)
      || (reachesDest w && regionOnDevice s s.dstAddr.toNat s.dstCap.toNat))

/-- A host write to CMD (R28): dropped while BUSY = 1, refused when it would launch a command on a region that is not
memory (U7), else accepted. -/
def writeCmd (w : Word) (s : State) : Host.Outcome State Fault Refusal :=
  if s.status.busy then .next { s with status := statusDropped s.status }
  else if launchesOnDevice s w then .refused .regionNotMemory
  else .next (acceptCommand w s)

/-- A host write of `w` to a register (R26 to R43). RO registers and reserved offsets ignore it. -/
def writeReg (r : Reg) (w : Word) (s : State) : Host.Outcome State Fault Refusal :=
  match r with
  | .cmd => writeCmd w s
  | .status => .next (writeStatus w s)
  | .irqEn => .next { s with doneIe := w.getLsbD 0 }
  | .srcAddr => .next { s with srcAddr := w }
  | .srcLen => .next { s with srcLen := w }
  | .dstAddr => .next { s with dstAddr := w }
  | .dstCap => .next { s with dstCap := w }
  | .position => .next { s with position := w }
  | .windowLimit => .next { s with windowLimit := w }
  | .resultLen => .next s
  | .resFlagCount => .next s
  | .resContentLen => .next s
  | .matchResult => .next s
  | .params => .next s
  | .reserved => .next s

/-- Address `a` is not ordinary memory (R61, log 27). -/
def onDevice (s : State) (a : Nat) : Bool := (notMemory s).any (fun d => inRegion d.base d.len a)

/-- A host byte store: refused on a device and on a region of the running command (R248, U6). -/
def hostStore (a : Word) (v : Byte) (s : State) : Host.Outcome State Fault Refusal :=
  if onDevice s a.toNat then .refused .deviceAccess
  else if inRunningSource s a.toNat || inRunningDest s a.toNat then .refused .bufferOwnership
  else .next (writeBytes s a.toNat [v])

/-- A host byte load: any value in the destination region of the running command (R73, U17), else the byte there. -/
def hostLoad (a : Word) (s : State) : Host.Outcome State Fault Refusal :=
  if onDevice s a.toNat then .refused .deviceAccess
  else if inRunningDest s a.toNat then
    .next { s with busData := (Config.freeByte s.draws 0).setWidth 64, draws := s.draws + 1 }
  else .next { s with busData := (readByte s a.toNat).setWidth 64 }

/-- One host operation. -/
def hostOp (op : HostOp) (s : State) : Host.Outcome State Fault Refusal :=
  match op with
  | .wr off width v =>
    if accessDefined off width then writeReg (regAt off) v s else .refused .registerAccessShape
  | .rd off width =>
    if accessDefined off width then .next (readReg (regAt off) s) else .refused .registerAccessShape
  | .wait =>
    if s.status.busy then .next { readReg .status s with host := .wait :: s.host } else .next (readReg .status s)
  | .store a v => hostStore a v s
  | .load a => hostLoad a s
  | .reset => .next (resetEngine s)

/-- The host's turn: its next operation, or nothing when none is left (log 25). -/
def hostTurn (s : State) : Host.Outcome State Fault Refusal :=
  match s.host with
  | [] => .next s
  | op :: rest => hostOp op { s with host := rest }

/-- `RUN op` (R97, R98): a CMD write, then WAIT. -/
def runOps (w : Word) : List HostOp := [.wr 0x00 8 w, .wait]

end Sys2Proof.Machine
end

