-- ==== Sys2Proof/Machine/Step.lean ====
section
/-! DEFINITION. One step of the machine: whose turn it is, and that agent's turn. -/

namespace Sys2Proof.Machine

/-- Who moves next (log 4): the head of `turns`, or, when it is empty, the engine while a command runs and else the
host. -/
def nextTurn (s : State) : Turn :=
  match s.turns with
  | t :: _ => t
  | [] => if s.status.busy then .engine else .host

/-- One step: the turn is taken off the list and its agent moves. -/
def step (s : State) : Host.Outcome State Fault Refusal :=
  match nextTurn s with
  | .host => hostTurn { s with turns := s.turns.tail }
  | .engine => engineTurn { s with turns := s.turns.tail }
  | .engineFine => engineFineTurn { s with turns := s.turns.tail }

/-- `s` with the instruction of a table word placed where the engine fetches next (log 6). -/
def State.withFetchWord (s : State) (nbits w : Nat) : State := placeTableWord s nbits w

end Sys2Proof.Machine
end

