-- ==== Sys2Proof/Safety.lean ====
section
/-! DEFINITION. The terms the claims use: the invariants of the machine (10_state.md R29, R45, 42_encoder.md R137,
43_decoder.md R159), and the encoder and the decoder as pure functions on token streams (42_encoder.md R130,
43_decoder.md R150), against which the machine is stated. -/

namespace Sys2Proof.Machine

/-! ### Invariants -/

/-- The legal combinations of STATUS and the phase (R29, R45): IDLE exactly when BUSY = 0; BUSY = 1 implies DONE = 0,
ERROR = 0 and CAUSE = 0; ERROR = 1 exactly when CAUSE ≠ 0. -/
abbrev StatusLegal (s : State) : Prop :=
  (s.phase = .idle ↔ s.status.busy = false) ∧
  (s.status.busy = true → s.status.done = false ∧ s.status.error = false ∧ s.status.cause = .none) ∧
  (s.status.error = true ↔ s.status.cause ≠ .none)

/-- While a command runs, CMD is the latched command word and the phase is the one it selects (R28, R45). -/
abbrev CommandLegal (s : State) : Prop :=
  s.status.busy = true → s.cmd = s.latched.cmd ∧ s.phase = phaseOf s.latched.cmd

/-- Only a command that passed its checks is in progress, and none of a reserved word (R203, log 5). -/
abbrev LoopLegal (s : State) : Prop :=
  s.inLoop = true → s.status.busy = true ∧ s.phase ≠ .runBadCmd

/-- A FIND_MATCH in progress (R23, R103, R104): its checks passed, the operands are the clamped ones, and the best pair
is within them. -/
abbrev FindProgress (s : State) : Prop :=
  s.inLoop = true → s.phase = .runFind →
    findChecks s.latched = none ∧
    s.finder.p = s.latched.position ∧
    s.finder.wl = findWindow s.latched ∧
    s.finder.maxlen = findMaxlen s.latched ∧
    s.finder.d.toNat ≤ s.finder.wl.toNat ∧
    s.finder.k.toNat ≤ s.finder.maxlen.toNat ∧
    s.finder.bestL.toNat ≤ s.finder.maxlen.toNat ∧ s.finder.bestD.toNat ≤ s.finder.d.toNat ∧
    (s.finder.bestL = 0 ↔ s.finder.bestD = 0)

/-- A COMPRESS in progress (R24, R121, R137): its checks passed, the cursors count what was emitted, which is no more
than the input consumed, and FBUF holds the packed decisions. -/
abbrev CompressProgress (s : State) : Prop :=
  s.inLoop = true → s.phase = .runCompress →
    compressChecks s.latched = none ∧
    s.enc.pos.toNat ≤ s.latched.srcLen.toNat ∧
    s.enc.flags.length = s.enc.dcount.toNat ∧ s.enc.dcount.toNat ≤ s.enc.pos.toNat ∧
    s.enc.content.length = s.enc.wcur.toNat ∧ s.enc.wcur.toNat ≤ s.enc.pos.toNat ∧
    s.enc.wbit = s.enc.dcount ∧ s.enc.fbuf = packFlags s.enc.flags

/-- A DECOMPRESS in progress (R159): its checks passed, the blob lies in the source region, the output fits, and no
cursor has passed its header field. -/
abbrev DecompressProgress (s : State) : Prop :=
  s.inLoop = true → s.phase = .runDecompress →
    decompressChecks s.latched = none ∧
    blobSize s.dec ≤ s.latched.srcLen.toNat ∧
    s.dec.ol.toNat ≤ s.latched.dstCap.toNat ∧
    s.dec.rc.toNat ≤ s.dec.cl.toNat ∧ s.dec.wc.toNat ≤ s.dec.ol.toNat ∧ s.dec.di.toNat ≤ s.dec.fc.toNat

/-- The invariant of the machine. -/
abbrev Inv (s : State) : Prop :=
  memWf s.mem = true ∧ StatusLegal s ∧ CommandLegal s ∧ LoopLegal s ∧
    FindProgress s ∧ CompressProgress s ∧ DecompressProgress s

/-! ### The encoder and the decoder on token streams -/

/-- The finder query at position `pos` of the `n`-byte input `B` (R131). -/
def queryAt (B : Nat → Byte) (n pos : Nat) : FinderRegs :=
  findLongestMatch B (BitVec.ofNat 64 pos) (clampWindow pos) (clampMaxlen (n - pos))

/-- `Encode(B)` (R130) as the list of tokens it emits from position `pos` on, with `fuel` iterations at most: a literal
run of one or two bytes, or a match, per finder query. -/
def encodeTokens (B : Nat → Byte) (n : Nat) : Nat → Nat → List Instr
  | 0, _ => []
  | fuel + 1, pos =>
    if pos < n then
      let f := queryAt B n pos
      if f.bestL.toNat < Config.minMatch then
        (List.range (max 1 f.bestL.toNat)).map (fun i => Instr.lit (B (pos + i)))
          ++ encodeTokens B n fuel (pos + max 1 f.bestL.toNat)
      else .matchRecord f.bestD f.bestL :: encodeTokens B n fuel (pos + f.bestL.toNat)
    else []

/-- The tokens of the `n`-byte input `B` (R130, R139: at most `n` iterations). -/
def inputTokens (B : Nat → Byte) (n : Nat) : List Instr := encodeTokens B n n 0

/-- The blob of the `n`-byte input `B` (R130, R171). -/
def inputBlob (B : Nat → Byte) (n : Nat) : List Byte :=
  pack n (streamContent (inputTokens B n)) (streamFlags (inputTokens B n))

/-- `n` bytes appended to `out`, each the byte `d` back from the end (R154). -/
def expandCopy : Nat → Nat → List Byte → List Byte
  | 0, _, out => out
  | n + 1, d, out => expandCopy n d (out ++ [out.getD (out.length - d) 0])

/-- The output after a token (R152, R153), or none where its displacement is bad (R155). A command is no token. -/
def expandToken (out : List Byte) : Instr → Option (List Byte)
  | .compress => none
  | .decompress => none
  | .findMatch => none
  | .lit b => some (out ++ [b])
  | .matchRecord d l =>
    if d.toNat = 0 ∨ out.length < d.toNat then none else some (expandCopy l.toNat d.toNat out)

/-- The replay of a blob's flag bytes and content as a function (R150 to R156): `n` decisions left, the next one
decision `i`, the content left, the output so far. -/
def expandFrom (ol : Nat) (flagBytes : List Byte) : Nat → Nat → List Byte → List Byte → Except Cause (List Byte)
  | 0, _, content, out =>
    if out.length ≠ ol then .error .lengthMismatch
    else if content ≠ [] then .error .contentLeftover
    else .ok out
  | n + 1, i, content, out =>
    match decodeToken (flagBit (flagBytes.getD (i / 8) 0#8) i) content with
    | .error _ => .error .contentOverrun
    | .ok (t, rest) =>
      match expandToken out t with
      | none => .error .badDisplacement
      | some out' =>
        if ol < out'.length then .error .outputOverrun else expandFrom ol flagBytes n (i + 1) rest out'

/-- The replay of a whole blob (R150): `fc` decisions from the packed flags, the content, and an empty output. -/
def expandBlob (ol fc : Nat) (flagBytes content : List Byte) : Except Cause (List Byte) :=
  expandFrom ol flagBytes fc 0 content []

/-- The bytes of a blob with the given header fields and areas (R82, R83). -/
def blobBytes (ol cl fc : Word) (flagBytes content : List Byte) : List Byte :=
  le64 ol ++ le64 cl ++ le64 fc ++ flagBytes ++ content

/-- The source region of `s` begins with the bytes `bytes`. -/
abbrev SourceHolds (s : State) (bytes : List Byte) : Prop :=
  bytes.length ≤ s.latched.srcLen.toNat ∧ sourceBytes s 0 bytes.length = bytes

/-- How many input bytes a token stands for (R24): 1 for a LIT, its length for a MATCH. -/
def tokenSpan : Instr → Nat
  | .compress => 0
  | .decompress => 0
  | .findMatch => 0
  | .lit _ => 1
  | .matchRecord _ l => l.toNat

/-! ### Frames and completions -/

/-- What no engine instruction writes: CMD, IRQ_EN, the six operand registers, DROPPED, and everything outside the engine
(R44, R208). The latched configuration is apart: after a completion it is unspecified (R46, log 29). -/
abbrev SameConfiguration (s t : State) : Prop :=
  t.cmd = s.cmd ∧ t.doneIe = s.doneIe ∧ t.srcAddr = s.srcAddr ∧ t.srcLen = s.srcLen ∧ t.dstAddr = s.dstAddr ∧
    t.dstCap = s.dstCap ∧ t.position = s.position ∧ t.windowLimit = s.windowLimit ∧
    t.status.dropped = s.status.dropped ∧ t.host = s.host ∧ t.turns = s.turns ∧ t.busData = s.busData ∧
    t.regBase = s.regBase ∧ t.devices = s.devices

/-- `t` is `s` after the fault completion with cause `c` (R204), memory and result registers apart. -/
abbrev FaultCompletion (c : Cause) (s t : State) : Prop :=
  t.status = ⟨false, true, true, s.status.dropped, c⟩ ∧ t.phase = .idle ∧ t.inLoop = false ∧ SameConfiguration s t

/-- `t` is `s` after a successful completion with the given result registers (R205), memory apart. -/
abbrev SuccessCompletion (resultLen flagCount contentLen : Nat) (r : MatchResult) (s t : State) : Prop :=
  t.status = ⟨false, true, false, s.status.dropped, .none⟩ ∧ t.phase = .idle ∧ t.inLoop = false ∧
    t.resultLen = BitVec.ofNat 64 resultLen ∧ t.resFlagCount = BitVec.ofNat 64 flagCount ∧
    t.resContentLen = BitVec.ofNat 64 contentLen ∧ t.matchResult = r ∧ SameConfiguration s t

/-- Memory outside the `n` bytes at `a` reads in `t` as in `s`. -/
abbrev SameOutside (a n : Nat) (s t : State) : Prop := ∀ x, ¬(a ≤ x ∧ x < a + n) → readByte t x = readByte s x

/-- What a register holds after a host write of `w` to it while it held `old` (R26, R31): the operand registers take it,
IRQ_EN takes bit 0, a read-only or reserved one keeps its value. CMD and STATUS have rules of their own (R28, R30). -/
def storedValue (r : Reg) (w old : Word) : Word :=
  match r with
  | .srcAddr => w
  | .srcLen => w
  | .dstAddr => w
  | .dstCap => w
  | .position => w
  | .windowLimit => w
  | .irqEn => w &&& 1#64
  | .cmd => old
  | .status => old
  | .resultLen => old
  | .resFlagCount => old
  | .resContentLen => old
  | .matchResult => old
  | .params => old
  | .reserved => old

/-- An outcome with its next state changed by `f`. -/
def mapNext (f : State → State) : Host.Outcome State Fault Refusal → Host.Outcome State Fault Refusal
  | .next t => .next (f t)
  | .fault x => .fault x
  | .refused x => .refused x

end Sys2Proof.Machine
end

