-- ==== Sys2Proof/Certificates/Slice0/Obligations.lean ====
section
/-! DEFINITION. The statements for the provers. Each docstring names the rule of spec/ it formalises. -/

open Sys2Proof Sys2Proof.Machine

/-! ### Encodings -/

/-- R81, R85, R86, R88: decoding the encoding of a well-formed instruction, with any bytes after it, gives the instruction
and those bytes back, with every operand at every value. -/
def Obligations.DecodeInvertsEncode : Prop :=
  ∀ (i : Instr) (rest : List Byte), i.wellFormed = true → decode ((encode i).followedBy rest) = .ok (i, rest)

/-- R83, R84, R99: the packed decisions and the content stream of any token stream parse back to the token stream. -/
def Obligations.TokenStreamParsesBack : Prop :=
  ∀ ts : List Instr, (∀ t ∈ ts, tokenDecision t ≠ none) →
    decodeStream (packFlags (streamFlags ts)) ts.length 0 (streamContent ts) = .ok ts

/-- R123: `PackFlags(f)` has `ceil8(|f|)` bytes; bit `7 - m` of byte `j` is decision `8j + m`, or 0 where there is none;
and unpacking inverts packing. -/
def Obligations.PackFlagsFormat : Prop :=
  ∀ f : List Bool,
    (packFlags f).length = (f.length + 7) / 8 ∧
    (∀ j m, j < (f.length + 7) / 8 → m < 8 →
      ((packFlags f).getD j 0#8).getLsbD (7 - m) = (decide (8 * j + m < f.length) && f.getD (8 * j + m) false)) ∧
    (∀ i, i < f.length → flagBit ((packFlags f).getD (i / 8) 0#8) i = f.getD i false)

/-- R121: after `n < 2^64` calls of `write_bit` from an empty packer (the cursor is 64 bits wide), the cursor is `n`, FBUF
has `ceil8(n)` bytes, decision `i` is bit `7 - (i & 7)` of `FBUF[i >> 3]`, and every bit at or beyond position `n` is 0. -/
def Obligations.WriteBitPacksMsbFirst : Prop :=
  ∀ bits : List Bool, bits.length < 2 ^ 64 →
    let e := bits.foldl (fun e b => writeBit b e) EncRegs.zero
    e.wbit.toNat = bits.length ∧ e.fbuf.length = (bits.length + 7) / 8 ∧
      (∀ i, i < bits.length → (e.fbuf.getD (i / 8) 0#8).getLsbD (7 - i % 8) = bits.getD i false) ∧
      (∀ i, bits.length ≤ i → i < 8 * ((bits.length + 7) / 8) →
        (e.fbuf.getD (i / 8) 0#8).getLsbD (7 - i % 8) = false)

/-- R81: a command word decodes exactly when `w[63:8] = 0` and `w[7:0]` is 0x01, 0x02 or 0x03, and then to the command
of its opcode (R89). -/
def Obligations.CommandWordsDecodeExactlyWhenValid : Prop :=
  ∀ w : Word,
    (validCommandWord w = true ↔ ∃ i, decodeCommand w = .ok i) ∧
    (validCommandWord w = true ↔ w.toNat / 256 = 0 ∧ (w.toNat % 256 = 1 ∨ w.toNat % 256 = 2 ∨ w.toNat % 256 = 3)) ∧
    (decodeCommand w = .ok .compress ↔ w.toNat = 1) ∧ (decodeCommand w = .ok .decompress ↔ w.toNat = 2) ∧
    (decodeCommand w = .ok .findMatch ↔ w.toNat = 3)

/-- Sanity: words written out from the spec's encodings (R81, R85, R86; vectors E3 and D2) decode to the instructions
they stand for. -/
def Obligations.WordsOfTheSpecDecode : Prop :=
  decode (.command [0x01, 0, 0, 0, 0, 0, 0, 0]) = .ok (.compress, []) ∧
  decode (.command [0x02, 0, 0, 0, 0, 0, 0, 0]) = .ok (.decompress, []) ∧
  decode (.command [0x03, 0, 0, 0, 0, 0, 0, 0]) = .ok (.findMatch, []) ∧
  decode (.command [0x04, 0x01, 0, 0, 0, 0, 0, 0]) = .error .reservedBits ∧
  decode (.token false [0x41]) = .ok (.lit 0x41, []) ∧
  decode (.token true [0x02, 0x00, 0x05]) = .ok (.matchRecord 2 5, []) ∧
  decode (.token true [0x34, 0x12, 0xFF]) = .ok (.matchRecord 0x1234 255, [])

/-! ### The register block -/

/-- R26, R31 to R37, R43: an aligned 64-bit host write to a register other than CMD and STATUS succeeds; then every
register reads as before, except that the written one holds the stored value (all of it for the operand registers, bit 0
for IRQ_EN, the old value for a read-only or reserved one); nothing else of the state changes. -/
def Obligations.RegisterWritesReadBack : Prop :=
  ∀ (s : State) (off : Byte) (w : Word), off.toNat % 8 = 0 → off ≠ 0x00 → off ≠ 0x08 →
    ∃ t, hostOp (.wr off 8 w) s = .next t ∧
      (∀ off' : Byte, off'.toNat % 8 = 0 → regValue t (regAt off') =
        if off' = off then storedValue (regAt off) w (regValue s (regAt off)) else regValue s (regAt off')) ∧
      { t with
        doneIe := s.doneIe, srcAddr := s.srcAddr, srcLen := s.srcLen, dstAddr := s.dstAddr, dstCap := s.dstCap
        position := s.position, windowLimit := s.windowLimit } = s

/-- R27, R42, R43: an aligned 64-bit host read succeeds and has no effect on the engine or on memory; it gives the held
value unless the register is a result register and BUSY = 1; PARAMS gives its constant, a reserved offset 0. -/
def Obligations.RegisterReadsHaveNoEffect : Prop :=
  ∀ (s : State) (off : Byte), off.toNat % 8 = 0 →
    ∃ t, hostOp (.rd off 8) s = .next t ∧ { t with busData := s.busData, draws := s.draws } = s ∧
      ((s.status.busy = false ∨ off.toNat < 0x48 ∨ 0x60 < off.toNat) → t.busData = regValue s (regAt off)) ∧
      (off = 0x68 → t.busData = 0x0000180303FFFFFF) ∧ (0x70 ≤ off.toNat → t.busData = 0)

/-- R26, R27, R31 to R43: which field of the state each offset of the block reads and writes, with 64-bit accesses. A read
changes only the data the host gets, a write only the field of its register; writes to RO and reserved offsets change
nothing. CMD and STATUS writes have statements of their own (R28, R30). -/
def Obligations.EachOffsetReadsAndWritesItsField : Prop :=
  ∀ (s : State) (w : Word),
    (hostOp (.rd 0x00 8) s = .next { s with busData := s.cmd } ∧
      hostOp (.rd 0x08 8) s = .next { s with busData := statusWord s.status } ∧
      hostOp (.rd 0x10 8) s = .next { s with busData := irqEnWord s.doneIe } ∧
      hostOp (.rd 0x18 8) s = .next { s with busData := s.srcAddr } ∧
      hostOp (.rd 0x20 8) s = .next { s with busData := s.srcLen } ∧
      hostOp (.rd 0x28 8) s = .next { s with busData := s.dstAddr } ∧
      hostOp (.rd 0x30 8) s = .next { s with busData := s.dstCap } ∧
      hostOp (.rd 0x38 8) s = .next { s with busData := s.position } ∧
      hostOp (.rd 0x40 8) s = .next { s with busData := s.windowLimit } ∧
      hostOp (.rd 0x68 8) s = .next { s with busData := 0x0000180303FFFFFF }) ∧
    (s.status.busy = false →
      hostOp (.rd 0x48 8) s = .next { s with busData := s.resultLen } ∧
      hostOp (.rd 0x50 8) s = .next { s with busData := s.resFlagCount } ∧
      hostOp (.rd 0x58 8) s = .next { s with busData := s.resContentLen } ∧
      hostOp (.rd 0x60 8) s = .next { s with busData := matchResultWord s.matchResult }) ∧
    (hostOp (.wr 0x10 8 w) s = .next { s with doneIe := w.getLsbD 0 } ∧
      hostOp (.wr 0x18 8 w) s = .next { s with srcAddr := w } ∧
      hostOp (.wr 0x20 8 w) s = .next { s with srcLen := w } ∧
      hostOp (.wr 0x28 8 w) s = .next { s with dstAddr := w } ∧
      hostOp (.wr 0x30 8 w) s = .next { s with dstCap := w } ∧
      hostOp (.wr 0x38 8 w) s = .next { s with position := w } ∧
      hostOp (.wr 0x40 8 w) s = .next { s with windowLimit := w }) ∧
    (∀ off ∈ [(0x48 : Byte), 0x50, 0x58, 0x60, 0x68], hostOp (.wr off 8 w) s = .next s) ∧
    (∀ off : Byte, 0x70 ≤ off.toNat → off.toNat % 8 = 0 →
      hostOp (.wr off 8 w) s = .next s ∧ hostOp (.rd off 8) s = .next { s with busData := 0 })

/-- R41: the fields of MATCH_RESULT are where the rule puts them, and its reserved bits read 0. -/
def Obligations.MatchResultWordFields : Prop :=
  ∀ s : State,
    (∀ i, i < 16 → (regValue s .matchResult).getLsbD i = s.matchResult.disp.getLsbD i) ∧
    (∀ i, i < 8 → (regValue s .matchResult).getLsbD (16 + i) = s.matchResult.len.getLsbD i) ∧
    (∀ i, 24 ≤ i → (regValue s .matchResult).getLsbD i = false)

/-- R27, U1: a host register access that is not 8 bytes wide and 8-byte aligned is refused. -/
def Obligations.MisshapenAccessIsRefused : Prop :=
  ∀ (s : State) (off : Byte) (width : Nat) (v : Word) (rest : List HostOp),
    ¬(width = 8 ∧ off.toNat % 8 = 0) → nextTurn s = .host →
    (s.host = .wr off width v :: rest → step s = .refused .registerAccessShape) ∧
    (s.host = .rd off width :: rest → step s = .refused .registerAccessShape)

/-- R29, R201: the fields of STATUS are where the rule puts them, its reserved bits read 0, and the twelve causes have the
codes 0x00 to 0x0B of the table, in its order. -/
def Obligations.StatusWordFields : Prop :=
  ∀ s : State,
    (regValue s .status).getLsbD 0 = s.status.busy ∧ (regValue s .status).getLsbD 1 = s.status.done ∧
    (regValue s .status).getLsbD 2 = s.status.error ∧ (regValue s .status).getLsbD 3 = s.status.dropped ∧
    (∀ i, i < 8 → (regValue s .status).getLsbD (8 + i) = (causeCode s.status.cause).getLsbD i) ∧
    (∀ i, 4 ≤ i → i < 8 → (regValue s .status).getLsbD i = false) ∧
    (∀ i, 16 ≤ i → (regValue s .status).getLsbD i = false) ∧
    causeCode .none = 0x00 ∧ causeCode .alloc = 0x01 ∧ causeCode .badCmd = 0x02 ∧ causeCode .addrRange = 0x03 ∧
    causeCode .overlap = 0x04 ∧ causeCode .badPosition = 0x05 ∧ causeCode .blobTruncated = 0x06 ∧
    causeCode .contentOverrun = 0x07 ∧ causeCode .badDisplacement = 0x08 ∧ causeCode .outputOverrun = 0x09 ∧
    causeCode .lengthMismatch = 0x0A ∧ causeCode .contentLeftover = 0x0B

/-- R30: what a host write of `w` to STATUS does: bit 1 clears DONE, bit 2 clears ERROR and CAUSE, bit 3 clears DROPPED,
every other bit of `w` is ignored and BUSY cannot be written; clearing DONE lowers the interrupt; while BUSY = 1 (in a
state with legal STATUS) only DROPPED can change. -/
def Obligations.StatusWriteOneToClear : Prop :=
  ∀ (s : State) (w : Word), ∃ t, hostOp (.wr 0x08 8 w) s = .next t ∧ { t with status := s.status } = s ∧
    (∀ i, (regValue t .status).getLsbD i =
      ((regValue s .status).getLsbD i &&
        !((decide (1 ≤ i ∧ i ≤ 3) && w.getLsbD i) || (decide (8 ≤ i ∧ i < 16) && w.getLsbD 2)))) ∧
    (w.getLsbD 1 = true → irq t = false) ∧
    (StatusLegal s → s.status.busy = true → { t.status with dropped := s.status.dropped } = s.status)

/-- R28, R44, R45: a CMD write while BUSY = 0, unless it would launch on a region that is not memory, is accepted: CMD
reads the word, BUSY = 1, DONE, ERROR and CAUSE are 0, DROPPED is kept, the seven registers are latched, the phase is
the one the word selects, and neither the other registers nor memory change. -/
def Obligations.CmdWriteWhenIdleIsAccepted : Prop :=
  ∀ (s : State) (w : Word), s.status.busy = false → launchesOnDevice s w = false →
    ∃ t, hostOp (.wr 0x00 8 w) s = .next t ∧ regValue t .cmd = w ∧
      (∀ i, (regValue t .status).getLsbD i = (decide (i = 0) || (decide (i = 3) && s.status.dropped))) ∧
      t.latched = ⟨w, s.srcAddr, s.srcLen, s.dstAddr, s.dstCap, s.position, s.windowLimit⟩ ∧
      t.phase = (if w.toNat = 1 then .runCompress else if w.toNat = 2 then .runDecompress
        else if w.toNat = 3 then .runFind else .runBadCmd) ∧
      { t with cmd := s.cmd, status := s.status, latched := s.latched, phase := s.phase, inLoop := s.inLoop } = s

/-- R28, R208: a CMD write while BUSY = 1 is dropped: DROPPED becomes 1 and nothing else changes; and the running
command goes on as if it had not happened, whatever it does next, in either granularity. -/
def Obligations.CmdWriteWhileBusyIsDropped : Prop :=
  ∀ (s : State) (w : Word), s.status.busy = true →
    ∃ t, hostOp (.wr 0x00 8 w) s = .next t ∧ t.status.dropped = true ∧
      { t with status := { t.status with dropped := s.status.dropped } } = s ∧
      engineTurn t = mapNext (fun u => { u with status := { u.status with dropped := true } }) (engineTurn s) ∧
      engineFineTurn t = mapNext (fun u => { u with status := { u.status with dropped := true } }) (engineFineTurn s)

/-- R44, R244: a host write to an operand register while a command runs is stored, and what the command does is the same
as without it, in either granularity. -/
def Obligations.OperandWritesDoNotReachTheRunningCommand : Prop :=
  ∀ (s : State) (off : Byte) (w : Word), s.status.busy = true →
    off.toNat % 8 = 0 → 0x18 ≤ off.toNat → off.toNat ≤ 0x40 →
    ∃ f : State → State, (∀ u, writeReg (regAt off) w u = .next (f u)) ∧ hostOp (.wr off 8 w) s = .next (f s) ∧
      regValue (f s) (regAt off) = w ∧
      engineTurn (f s) = mapNext f (engineTurn s) ∧ engineFineTurn (f s) = mapNext f (engineFineTurn s)

/-- R61, U7: a CMD write while BUSY = 0 that would launch a command on a region that is not ordinary memory is
refused. -/
def Obligations.LaunchOnDeviceIsRefused : Prop :=
  ∀ (s : State) (w : Word) (rest : List HostOp), s.status.busy = false → nextTurn s = .host →
    s.host = .wr 0x00 8 w :: rest → launchesOnDevice s w = true → step s = .refused .regionNotMemory

/-- R210: `irq` is IRQ_EN bit 0 and STATUS bit 1; a STATUS write with bit 1 set and an accepted CMD write clear it;
writing DONE_IE = 0 masks it and leaves DONE; writing DONE_IE = 1 makes it follow DONE. -/
def Obligations.IrqIsDoneAndEnabled : Prop :=
  ∀ s : State,
    irq s = ((regValue s .irqEn).getLsbD 0 && (regValue s .status).getLsbD 1) ∧
    (∀ w t, w.getLsbD 1 = true → hostOp (.wr 0x08 8 w) s = .next t → irq t = false) ∧
    (∀ w t, s.status.busy = false → hostOp (.wr 0x00 8 w) s = .next t → irq t = false) ∧
    (∀ w, ∃ t, hostOp (.wr 0x10 8 w) s = .next t ∧ t.status = s.status ∧ irq t = (w.getLsbD 0 && s.status.done))

/-! ### The host and memory -/

/-- R60, R248, U6: a host byte store to ordinary memory is refused in a region of the running command; elsewhere it
succeeds, the byte reads back, every other byte and everything else is unchanged. -/
def Obligations.HostStoreWritesOneByte : Prop :=
  ∀ (s : State) (a : Word) (v : Byte), onDevice s a.toNat = false →
    (inRunningSource s a.toNat = true ∨ inRunningDest s a.toNat = true →
      hostOp (.store a v) s = .refused .bufferOwnership) ∧
    (inRunningSource s a.toNat = false → inRunningDest s a.toNat = false →
      ∃ t, hostOp (.store a v) s = .next t ∧ { t with mem := s.mem } = s ∧
        ∀ x, readByte t x = if x = a.toNat then v else readByte s x)

/-- R73, U17 and log 8: a host byte load from ordinary memory answers the byte there and changes only the data the host
gets; in the destination region of the running command the data is unspecified (a free value, one draw), and nothing
else changes. -/
def Obligations.HostLoadReadsOneByte : Prop :=
  ∀ (s : State) (a : Word), onDevice s a.toNat = false →
    (inRunningDest s a.toNat = false →
      hostOp (.load a) s = .next { s with busData := (readByte s a.toNat).setWidth 64 }) ∧
    (inRunningDest s a.toNat = true →
      ∃ v : Byte, hostOp (.load a) s = .next { s with busData := v.setWidth 64, draws := s.draws + 1 })

/-- R61, U1 and the model's choice of log 27: a host byte store or load at an address of a device or of the register block
is refused. -/
def Obligations.HostByteAccessToADeviceIsRefused : Prop :=
  ∀ (s : State) (a : Word) (v : Byte) (rest : List HostOp), onDevice s a.toNat = true → nextTurn s = .host →
    (s.host = .store a v :: rest → step s = .refused .deviceAccess) ∧
    (s.host = .load a :: rest → step s = .refused .deviceAccess)

/-- R97: WAIT reads STATUS; while BUSY = 1 it stays the host's next operation, and with BUSY = 0 the host goes on to the
one after it. Nothing else changes. -/
def Obligations.WaitReadsStatusUntilIdle : Prop :=
  ∀ (s : State) (rest : List HostOp), nextTurn s = .host → s.host = .wait :: rest →
    (s.status.busy = true → step s = .next { s with busData := statusWord s.status, turns := s.turns.tail }) ∧
    (s.status.busy = false →
      step s = .next { s with busData := statusWord s.status, turns := s.turns.tail, host := rest })

/-! ### Reset -/

/-- R230, R231: the reset input answers a next state from every state; after it, and in `State.reset`, every register of
the block reads 0 except PARAMS, which is its constant, `irq` is 0, the phase is IDLE and no command runs (so a command
running before is abandoned without a completion); the host's program and the platform are untouched. -/
def Obligations.ResetValues : Prop :=
  ∀ s : State, ∃ t, hostOp .reset s = .next t ∧
    (∀ u, u = t ∨ u = State.reset →
      (∀ off : Byte, off.toNat % 8 = 0 →
        regValue u (regAt off) = (if off = 0x68 then 0x0000180303FFFFFF else 0)) ∧
      irq u = false ∧ u.phase = .idle ∧ u.inLoop = false ∧ u.status = ⟨false, false, false, false, .none⟩) ∧
    t.host = s.host ∧ t.turns = s.turns ∧ t.busData = s.busData ∧ t.regBase = s.regBase ∧ t.devices = s.devices

/-- R231, R232: the reset input answers a next state that keeps every byte outside the destination region of a command
running at reset. -/
def Obligations.ResetKeepsMemory : Prop :=
  ∀ s : State, ∃ t, hostOp .reset s = .next t ∧
    ∀ x, ¬(s.status.busy = true ∧ reachesDest s.latched.cmd = true ∧
      s.latched.dstAddr.toNat ≤ x ∧ x < s.latched.dstAddr.toNat + s.latched.dstCap.toNat) →
    readByte t x = readByte s x

/-! ### COMPRESS -/

/-- R136: when its checks pass, COMPRESS completes successfully; `dst[0, RESULT_LEN)` holds the blob of the source bytes,
the result registers hold the blob's length, decision count and content length, MATCH_RESULT is 0, no byte outside the
destination region changes, and the configuration is unchanged. -/
def Obligations.CompressWritesItsBlob : Prop :=
  ∀ s : State,
    s.latched.srcAddr.toNat + s.latched.srcLen.toNat ≤ 2 ^ 64 →
    s.latched.dstAddr.toNat + s.latched.dstCap.toNat ≤ 2 ^ 64 →
    latchedOverlap s.latched = false →
    24 + (s.latched.srcLen.toNat + 7) / 8 + s.latched.srcLen.toNat ≤ s.latched.dstCap.toNat →
    ∃ t, exec .compress s = .next t ∧
      SuccessCompletion (inputBlob (sourceByte s) s.latched.srcLen.toNat).length
        (streamFlags (inputTokens (sourceByte s) s.latched.srcLen.toNat)).length
        (streamContent (inputTokens (sourceByte s) s.latched.srcLen.toNat)).length ⟨0, 0⟩ s t ∧
      (∀ i, i < (inputBlob (sourceByte s) s.latched.srcLen.toNat).length →
        readByte t (s.latched.dstAddr.toNat + i) = (inputBlob (sourceByte s) s.latched.srcLen.toNat).getD i 0) ∧
      SameOutside s.latched.dstAddr.toNat s.latched.dstCap.toNat s t

/-- R136, R203, R206: the fault completions of COMPRESS, in the order of its checks; memory is unchanged. -/
def Obligations.CompressFaultsInOrder : Prop :=
  ∀ s : State,
    (2 ^ 64 < s.latched.srcAddr.toNat + s.latched.srcLen.toNat →
      ∃ t, exec .compress s = .next t ∧ FaultCompletion .addrRange s t ∧ t.mem = s.mem) ∧
    (s.latched.srcAddr.toNat + s.latched.srcLen.toNat ≤ 2 ^ 64 →
      2 ^ 64 < s.latched.dstAddr.toNat + s.latched.dstCap.toNat →
      ∃ t, exec .compress s = .next t ∧ FaultCompletion .addrRange s t ∧ t.mem = s.mem) ∧
    (s.latched.srcAddr.toNat + s.latched.srcLen.toNat ≤ 2 ^ 64 →
      s.latched.dstAddr.toNat + s.latched.dstCap.toNat ≤ 2 ^ 64 → latchedOverlap s.latched = true →
      ∃ t, exec .compress s = .next t ∧ FaultCompletion .overlap s t ∧ t.mem = s.mem) ∧
    (s.latched.srcAddr.toNat + s.latched.srcLen.toNat ≤ 2 ^ 64 →
      s.latched.dstAddr.toNat + s.latched.dstCap.toNat ≤ 2 ^ 64 → latchedOverlap s.latched = false →
      s.latched.dstCap.toNat < 24 + (s.latched.srcLen.toNat + 7) / 8 + s.latched.srcLen.toNat →
      ∃ t, exec .compress s = .next t ∧ FaultCompletion .alloc s t ∧ t.mem = s.mem)

/-- R137: the encoder's counts on any input: at most `n` decisions, at most `n` content bytes, one content byte per LIT
and three per MATCH, and the tokens stand for exactly the `n` input bytes. -/
def Obligations.EncoderCounts : Prop :=
  ∀ (B : Nat → Byte) (n : Nat),
    (streamFlags (inputTokens B n)).length ≤ n ∧ (streamContent (inputTokens B n)).length ≤ n ∧
    (streamContent (inputTokens B n)).length =
      (streamFlags (inputTokens B n)).count false + 3 * (streamFlags (inputTokens B n)).count true ∧
    ((inputTokens B n).map tokenSpan).sum = n

/-- R87, R133: every match the encoder emits is canonical, and its record holds the finder's pair: where the query at
`pos` answers a length of 3 or more, the next token is the MATCH of that pair, and the position advances by its length. -/
def Obligations.EmittedMatchesAreCanonical : Prop :=
  ∀ (B : Nat → Byte) (n fuel pos : Nat), pos < n → 3 ≤ (queryAt B n pos).bestL.toNat →
    canonicalRecord pos (n - pos) (queryAt B n pos).bestD (queryAt B n pos).bestL = true ∧
    encodeTokens B n (fuel + 1) pos = .matchRecord (queryAt B n pos).bestD (queryAt B n pos).bestL ::
      encodeTokens B n fuel (pos + (queryAt B n pos).bestL.toNat)

/-- R176: the blob of an `n`-byte input has at most `24 + ceil8(n) + n` bytes, and exactly that many when every token is a
LIT. -/
def Obligations.BlobFitsTheRequiredCapacity : Prop :=
  ∀ (B : Nat → Byte) (n : Nat),
    (inputBlob B n).length ≤ 24 + (n + 7) / 8 + n ∧
    ((∀ t ∈ inputTokens B n, tokenDecision t = some false) → (inputBlob B n).length = 24 + (n + 7) / 8 + n)

/-- R138: two COMPRESS commands on the same input that pass their checks write the same blob and the same result
registers, wherever their regions lie and whatever else differs. -/
def Obligations.CompressIsDeterministic : Prop :=
  ∀ s s' t t' : State,
    compressChecks s.latched = none → compressChecks s'.latched = none →
    s.latched.srcLen = s'.latched.srcLen →
    (∀ i, i < s.latched.srcLen.toNat → sourceByte s i = sourceByte s' i) →
    exec .compress s = .next t → exec .compress s' = .next t' →
    t.resultLen = t'.resultLen ∧ t.resFlagCount = t'.resFlagCount ∧ t.resContentLen = t'.resContentLen ∧
      t.matchResult = t'.matchResult ∧
      ∀ i, i < t.resultLen.toNat →
        readByte t (s.latched.dstAddr.toNat + i) = readByte t' (s'.latched.dstAddr.toNat + i)

/-! ### FIND_MATCH -/

/-- R101, R103: when its checks pass, FIND_MATCH completes successfully with the greatest agreement over the window's
displacements and the nearest displacement that reaches it, or (0, 0) when nothing agrees; the other result registers
are 0 and memory is unchanged. -/
def Obligations.FindMatchAnswersTheNearestLongest : Prop :=
  ∀ s : State,
    s.latched.srcAddr.toNat + s.latched.srcLen.toNat ≤ 2 ^ 64 →
    s.latched.position.toNat ≤ s.latched.srcLen.toNat →
    let B := sourceByte s
    let p := s.latched.position.toNat
    let wl := min (min s.latched.windowLimit.toNat p) 65535
    let maxlen := min 255 (s.latched.srcLen.toNat - p)
    ∃ t d l, exec .findMatch s = .next t ∧
      SuccessCompletion 0 0 0 ⟨BitVec.ofNat 16 d, BitVec.ofNat 8 l⟩ s t ∧ t.mem = s.mem ∧
      d ≤ wl ∧ l ≤ maxlen ∧ (l = 0 ↔ d = 0) ∧
      (∀ k, k < l → B (p - d + k) = B (p + k)) ∧
      (∀ d' m, 1 ≤ d' → d' ≤ wl → m ≤ maxlen → (∀ k, k < m → B (p - d' + k) = B (p + k)) → m ≤ l) ∧
      (∀ d', 1 ≤ d' → d' < d → ∃ k, k < l ∧ B (p - d' + k) ≠ B (p + k))

/-- R104, R203, R206: the fault completions of FIND_MATCH, in order; memory is unchanged. -/
def Obligations.FindMatchFaultsInOrder : Prop :=
  ∀ s : State,
    (2 ^ 64 < s.latched.srcAddr.toNat + s.latched.srcLen.toNat →
      ∃ t, exec .findMatch s = .next t ∧ FaultCompletion .addrRange s t ∧ t.mem = s.mem) ∧
    (s.latched.srcAddr.toNat + s.latched.srcLen.toNat ≤ 2 ^ 64 →
      s.latched.srcLen.toNat < s.latched.position.toNat →
      ∃ t, exec .findMatch s = .next t ∧ FaultCompletion .badPosition s t ∧ t.mem = s.mem)

/-- R105: the pair FIND_MATCH answers depends only on the bytes in `[position - wl, position + maxlen)`. -/
def Obligations.FindMatchReadsOnlyItsWindow : Prop :=
  ∀ s s' t t' : State,
    s.latched = s'.latched → findChecks s.latched = none →
    (∀ i, s.latched.position.toNat - (findWindow s.latched).toNat ≤ i →
      i < s.latched.position.toNat + (findMaxlen s.latched).toNat → sourceByte s i = sourceByte s' i) →
    exec .findMatch s = .next t → exec .findMatch s' = .next t' → t.matchResult = t'.matchResult

/-! ### The tokens -/

/-- R152: LIT. With content and room left it writes its byte at `O[wc]` and advances the three cursors by 1, and nothing
else changes; with no content left it faults CONTENT_OVERRUN; failing that, with no room left, OUTPUT_OVERRUN. After a
fault only `dst[0, ol)` may differ. -/
def Obligations.LitExecutes : Prop :=
  ∀ (s : State) (b : Byte), replayInSpace s = true →
    (s.dec.rc.toNat + 1 ≤ s.dec.cl.toNat → s.dec.wc.toNat + 1 ≤ s.dec.ol.toNat →
      ∃ t, exec (.lit b) s = .next t ∧
        { t with mem := s.mem } =
          { s with dec := { s.dec with rc := s.dec.rc + 1, wc := s.dec.wc + 1, di := s.dec.di + 1 } } ∧
        ∀ x, readByte t x = if x = s.latched.dstAddr.toNat + s.dec.wc.toNat then b else readByte s x) ∧
    (s.dec.cl.toNat < s.dec.rc.toNat + 1 →
      ∃ t, exec (.lit b) s = .next t ∧ FaultCompletion .contentOverrun s t ∧
        SameOutside s.latched.dstAddr.toNat s.dec.ol.toNat s t) ∧
    (s.dec.rc.toNat + 1 ≤ s.dec.cl.toNat → s.dec.ol.toNat < s.dec.wc.toNat + 1 →
      ∃ t, exec (.lit b) s = .next t ∧ FaultCompletion .outputOverrun s t ∧
        SameOutside s.latched.dstAddr.toNat s.dec.ol.toNat s t)

/-- R153, R154: MATCH with a whole record left, a displacement in `[1, wc]` and room left: each of the `l` bytes written
at `O[wc + j]` is the byte `d` before it in the result, so bytes of the same copy are seen; every other byte is
unchanged; `rc` advances by 3, `di` by 1 and `wc` by `l`, and nothing else changes. -/
def Obligations.MatchCopiesByteByByte : Prop :=
  ∀ (s : State) (d : BitVec 16) (l : Byte), replayInSpace s = true →
    s.dec.rc.toNat + 3 ≤ s.dec.cl.toNat → 1 ≤ d.toNat → d.toNat ≤ s.dec.wc.toNat → s.dec.wc.toNat + l.toNat ≤ s.dec.ol.toNat →
    ∃ t, exec (.matchRecord d l) s = .next t ∧
      { t with mem := s.mem } =
        { s with dec := { s.dec with rc := s.dec.rc + 3, wc := s.dec.wc + l.setWidth 64, di := s.dec.di + 1 } } ∧
      (∀ j, j < l.toNat → readByte t (s.latched.dstAddr.toNat + s.dec.wc.toNat + j) =
        readByte s (s.latched.dstAddr.toNat + s.dec.wc.toNat - d.toNat + j % d.toNat)) ∧
      SameOutside (s.latched.dstAddr.toNat + s.dec.wc.toNat) l.toNat s t

/-- R153, R155, R203: the fault completions of MATCH, in order: fewer than 3 content bytes left; then `d = 0` or `d > wc`,
whatever the length, 0 included; then no room. After a fault only `dst[0, ol)` may differ. -/
def Obligations.MatchFaultsInOrder : Prop :=
  ∀ (s : State) (d : BitVec 16) (l : Byte), replayInSpace s = true →
    (s.dec.cl.toNat < s.dec.rc.toNat + 3 →
      ∃ t, exec (.matchRecord d l) s = .next t ∧ FaultCompletion .contentOverrun s t ∧
        SameOutside s.latched.dstAddr.toNat s.dec.ol.toNat s t) ∧
    (s.dec.rc.toNat + 3 ≤ s.dec.cl.toNat → d.toNat = 0 ∨ s.dec.wc.toNat < d.toNat →
      ∃ t, exec (.matchRecord d l) s = .next t ∧ FaultCompletion .badDisplacement s t ∧
        SameOutside s.latched.dstAddr.toNat s.dec.ol.toNat s t) ∧
    (s.dec.rc.toNat + 3 ≤ s.dec.cl.toNat → 1 ≤ d.toNat → d.toNat ≤ s.dec.wc.toNat → s.dec.ol.toNat < s.dec.wc.toNat + l.toNat →
      ∃ t, exec (.matchRecord d l) s = .next t ∧ FaultCompletion .outputOverrun s t ∧
        SameOutside s.latched.dstAddr.toNat s.dec.ol.toNat s t)

/-- R60, R71 and the model's choice of log 23: LIT and MATCH stop with the fault `outsideAddressSpace` exactly in the
states whose replay regions pass 2^64, which no run reaches. -/
def Obligations.TokensFaultExactlyOutsideTheAddressSpace : Prop :=
  ∀ (s : State) (i : Instr), tokenDecision i ≠ none →
    (exec i s = .fault .outsideAddressSpace ↔
      ¬(s.latched.srcAddr.toNat + 24 + (s.dec.fc.toNat + 7) / 8 + s.dec.cl.toNat ≤ 2 ^ 64 ∧
        s.latched.dstAddr.toNat + s.dec.ol.toNat ≤ 2 ^ 64))

/-! ### DECOMPRESS -/

/-- R157, R150 to R156: when the source region begins with a blob whose replay gives the output `out`, and the checks
pass, DECOMPRESS completes successfully: `dst[0, ol)` holds `out`, the result registers hold the header fields, every
byte outside `dst[0, ol)` and the configuration are unchanged. -/
def Obligations.DecompressWritesTheReplayedBytes : Prop :=
  ∀ (s : State) (ol cl fc : Word) (flagBytes content out : List Byte),
    s.latched.srcAddr.toNat + s.latched.srcLen.toNat ≤ 2 ^ 64 →
    s.latched.dstAddr.toNat + s.latched.dstCap.toNat ≤ 2 ^ 64 →
    latchedOverlap s.latched = false →
    flagBytes.length = (fc.toNat + 7) / 8 → content.length = cl.toNat →
    SourceHolds s (blobBytes ol cl fc flagBytes content) →
    ol.toNat ≤ s.latched.dstCap.toNat →
    expandBlob ol.toNat fc.toNat flagBytes content = .ok out →
    ∃ t, exec .decompress s = .next t ∧
      SuccessCompletion ol.toNat fc.toNat cl.toNat ⟨0, 0⟩ s t ∧ out.length = ol.toNat ∧
      (∀ i, i < ol.toNat → readByte t (s.latched.dstAddr.toNat + i) = out.getD i 0) ∧
      SameOutside s.latched.dstAddr.toNat ol.toNat s t

/-- R157, R203, R206: when the source region begins with a blob whose replay fails with a cause, and the checks before the
first token pass, DECOMPRESS completes with that cause, and only `dst[0, ol)` may differ. -/
def Obligations.DecompressFaultsAsTheReplayDoes : Prop :=
  ∀ (s : State) (ol cl fc : Word) (flagBytes content : List Byte) (c : Cause),
    s.latched.srcAddr.toNat + s.latched.srcLen.toNat ≤ 2 ^ 64 →
    s.latched.dstAddr.toNat + s.latched.dstCap.toNat ≤ 2 ^ 64 →
    latchedOverlap s.latched = false →
    flagBytes.length = (fc.toNat + 7) / 8 → content.length = cl.toNat →
    SourceHolds s (blobBytes ol cl fc flagBytes content) →
    ol.toNat ≤ s.latched.dstCap.toNat →
    expandBlob ol.toNat fc.toNat flagBytes content = .error c →
    ∃ t, exec .decompress s = .next t ∧ FaultCompletion c s t ∧
      SameOutside s.latched.dstAddr.toNat ol.toNat s t

/-- R157, R173, R203, R206: the fault completions of DECOMPRESS before its first token, in order; memory is unchanged. -/
def Obligations.DecompressFaultsBeforeReplayInOrder : Prop :=
  ∀ s : State,
    (2 ^ 64 < s.latched.srcAddr.toNat + s.latched.srcLen.toNat →
      ∃ t, exec .decompress s = .next t ∧ FaultCompletion .addrRange s t ∧ t.mem = s.mem) ∧
    (s.latched.srcAddr.toNat + s.latched.srcLen.toNat ≤ 2 ^ 64 →
      2 ^ 64 < s.latched.dstAddr.toNat + s.latched.dstCap.toNat →
      ∃ t, exec .decompress s = .next t ∧ FaultCompletion .addrRange s t ∧ t.mem = s.mem) ∧
    (s.latched.srcAddr.toNat + s.latched.srcLen.toNat ≤ 2 ^ 64 →
      s.latched.dstAddr.toNat + s.latched.dstCap.toNat ≤ 2 ^ 64 → latchedOverlap s.latched = true →
      ∃ t, exec .decompress s = .next t ∧ FaultCompletion .overlap s t ∧ t.mem = s.mem) ∧
    (decompressChecks s.latched = none → s.latched.srcLen.toNat < 24 →
      ∃ t, exec .decompress s = .next t ∧ FaultCompletion .blobTruncated s t ∧ t.mem = s.mem) ∧
    (decompressChecks s.latched = none → 24 ≤ s.latched.srcLen.toNat →
      s.latched.srcLen.toNat < 24 + ((headerField s 16).toNat + 7) / 8 + (headerField s 8).toNat →
      ∃ t, exec .decompress s = .next t ∧ FaultCompletion .blobTruncated s t ∧ t.mem = s.mem) ∧
    (decompressChecks s.latched = none → 24 ≤ s.latched.srcLen.toNat →
      24 + ((headerField s 16).toNat + 7) / 8 + (headerField s 8).toNat ≤ s.latched.srcLen.toNat →
      s.latched.dstCap.toNat < (headerField s 0).toNat →
      ∃ t, exec .decompress s = .next t ∧ FaultCompletion .alloc s t ∧ t.mem = s.mem)

/-- R93, R94: DECOMPRESS in two states that differ only inside the source region, and agree there on the header, on the
decisions with an index below `fc` and on the content, comes to the same STATUS and results, and memory outside the
source region comes out the same: padding bits and bytes after the blob have no effect. -/
def Obligations.PaddingAndTrailingBytesAreIgnored : Prop :=
  ∀ s s' t t' : State,
    { s with mem := s'.mem } = s' →
    (∀ x, inRegion s.latched.srcAddr.toNat s.latched.srcLen.toNat x = false → readByte s x = readByte s' x) →
    (∀ i, i < 24 → sourceByte s i = sourceByte s' i) →
    (∀ i, i < (headerField s 16).toNat →
      flagBit (sourceByte s (24 + i / 8)) i = flagBit (sourceByte s' (24 + i / 8)) i) →
    (∀ i, i < (headerField s 8).toNat → sourceByte s (24 + ((headerField s 16).toNat + 7) / 8 + i) =
      sourceByte s' (24 + ((headerField s 16).toNat + 7) / 8 + i)) →
    exec .decompress s = .next t → exec .decompress s' = .next t' →
    { t with mem := t'.mem } = t' ∧
      ∀ x, inRegion s.latched.srcAddr.toNat s.latched.srcLen.toNat x = false → readByte t x = readByte t' x

/-- R158: compress any input under the checks of COMPRESS, then decompress the blob it wrote, into any destination that
passes the checks of DECOMPRESS: it succeeds, RESULT_LEN is the input's length, and the destination holds the input. -/
def Obligations.CompressThenDecompressGivesTheInputBack : Prop :=
  ∀ (s t u : State) (dst cap : Word),
    compressChecks s.latched = none →
    exec .compress s = .next t →
    u.mem = t.mem →
    u.latched.srcAddr = s.latched.dstAddr → u.latched.srcLen = t.resultLen →
    u.latched.dstAddr = dst → u.latched.dstCap = cap →
    dst.toNat + cap.toNat ≤ 2 ^ 64 → latchedOverlap u.latched = false → s.latched.srcLen.toNat ≤ cap.toNat →
    ∃ v, exec .decompress u = .next v ∧ v.status.error = false ∧ v.status.cause = .none ∧ v.status.done = true ∧
      v.resultLen = s.latched.srcLen ∧
      ∀ i, i < s.latched.srcLen.toNat → readByte v (dst.toNat + i) = sourceByte s i

/-! ### Reserved command words -/

/-- R91: a reserved command word written while idle is accepted, is never refused, and completes with DONE = 1, ERROR = 1
and CAUSE = BAD_CMD, touching no memory, in either granularity. -/
def Obligations.ReservedWordsCompleteWithBadCmd : Prop :=
  ∀ (s : State) (w : Word), s.status.busy = false → validCommandWord w = false →
    ∃ t u, hostOp (.wr 0x00 8 w) s = .next t ∧ engineTurn t = .next u ∧ engineFineTurn t = .next u ∧
      t.status.busy = true ∧ FaultCompletion .badCmd t u ∧ u.cmd = w ∧ u.mem = s.mem

/-! ### Frames and whole-machine rules -/

/-- R44, R46, R208: no instruction writes CMD, IRQ_EN, an operand register, the latched configuration or DROPPED, nor
anything outside the engine and memory. That the latched configuration keeps its values after a completion, where the
spec leaves it unspecified, is the model's choice (log 29). -/
def Obligations.InstructionsKeepTheConfiguration : Prop :=
  ∀ (i : Instr) (s t : State), exec i s = .next t → SameConfiguration s t ∧ t.latched = s.latched

/-- R46: over one step of the machine the latched configuration changes only at an acceptance, which writes it from the
registers and the command word, or at reset. That a completion keeps it, and what reset leaves, is the model's choice
(log 29, log 17). -/
def Obligations.OnlyAcceptanceAndResetWriteTheLatchedConfiguration : Prop :=
  ∀ s t : State, step s = .next t → t.latched ≠ s.latched →
    nextTurn s = .host ∧ ∃ op rest, s.host = op :: rest ∧
      (op = .reset ∨ ∃ w, op = .wr 0x00 8 w ∧ s.status.busy = false ∧
        t.latched = ⟨w, s.srcAddr, s.srcLen, s.dstAddr, s.dstCap, s.position, s.windowLimit⟩)

/-- R204, R205: every command ends in one of the two completions: DONE = 1, BUSY = 0, the phase IDLE, and ERROR = 1
exactly when CAUSE is not 0; and a command always answers a next state. -/
def Obligations.CommandsEndInACompletion : Prop :=
  ∀ (i : Instr) (s : State), tokenDecision i = none →
    ∃ t, exec i s = .next t ∧ t.status.done = true ∧ t.status.busy = false ∧ t.phase = .idle ∧ t.inLoop = false ∧
      (t.status.error = true ↔ t.status.cause ≠ .none)

/-- R64, R206: in a state that meets the invariant, no turn of the engine, in either granularity, changes a byte outside
the destination region of the running command; FIND_MATCH and a reserved word change none at all. -/
def Obligations.EngineWritesOnlyTheDestination : Prop :=
  ∀ (s t : State) (x : Nat), Inv s → (engineTurn s = .next t ∨ engineFineTurn s = .next t) →
    inRunningDest s x = false → readByte t x = readByte s x

/-- R245: over one step of the machine from a legal state, DONE and ERROR are set only by the engine completing a command
and cleared only by an accepted CMD write, a STATUS write with the field's bit set, or reset; and CAUSE changes only by
the engine completing a command, or to NONE by one of those (a STATUS write with bit 2). -/
def Obligations.OnlyCompletionSetsAndOnlyTheHostClears : Prop :=
  ∀ s t : State, Inv s → step s = .next t →
    ((s.status.done = false ∧ t.status.done = true) ∨ (s.status.error = false ∧ t.status.error = true) →
      nextTurn s ≠ .host ∧ s.status.busy = true ∧ t.status.busy = false ∧ t.status.done = true) ∧
    (s.status.done = true → t.status.done = false →
      nextTurn s = .host ∧ ∃ op rest, s.host = op :: rest ∧
        (op = .reset ∨ (∃ v, op = .wr 0x00 8 v ∧ s.status.busy = false) ∨
          (∃ v, op = .wr 0x08 8 v ∧ v.getLsbD 1 = true))) ∧
    (s.status.error = true → t.status.error = false →
      nextTurn s = .host ∧ t.status.cause = .none ∧ ∃ op rest, s.host = op :: rest ∧
        (op = .reset ∨ (∃ v, op = .wr 0x00 8 v ∧ s.status.busy = false) ∨
          (∃ v, op = .wr 0x08 8 v ∧ v.getLsbD 2 = true))) ∧
    (t.status.cause ≠ s.status.cause →
      (nextTurn s ≠ .host ∧ s.status.busy = true ∧ t.status.busy = false ∧ t.status.done = true) ∨
      (nextTurn s = .host ∧ t.status.cause = .none ∧ ∃ op rest, s.host = op :: rest ∧
        (op = .reset ∨ (∃ v, op = .wr 0x00 8 v ∧ s.status.busy = false) ∨
          (∃ v, op = .wr 0x08 8 v ∧ v.getLsbD 2 = true))))

/-- R216: nothing wakes an idle engine except a CMD write, and an idle engine's turn changes nothing but the list of
turns. -/
def Obligations.OnlyACmdWriteWakesTheEngine : Prop :=
  ∀ s t : State, s.status.busy = false → step s = .next t →
    (t.status.busy = true → nextTurn s = .host ∧ ∃ w rest, s.host = .wr 0x00 8 w :: rest ∧ t.cmd = w) ∧
    (nextTurn s ≠ .host → t = { s with turns := s.turns.tail })

/-! ### The step -/

/-- R28, R44: when a command is accepted and not yet begun and its turn comes, the step runs the instruction its latched
word decodes to. -/
def Obligations.StepRunsTheLatchedCommand : Prop :=
  ∀ (s : State) (i : Instr), s.status.busy = true → s.inLoop = false → nextTurn s = .engine →
    decodeCommand s.latched.cmd = .ok i → step s = exec i { s with turns := s.turns.tail }

/-- R150, R151: when a replay is in progress, a decision is left and the engine's turn comes, the step runs the token that
the decision bit at `di` and the content at `rc` decode to. -/
def Obligations.StepRunsTheFetchedToken : Prop :=
  ∀ (s : State) (i : Instr) (rest : List Byte), s.status.busy = true → s.inLoop = true → s.phase = .runDecompress →
    nextTurn s ≠ .host → s.dec.di.toNat < s.dec.fc.toNat →
    decode (.token (decision s s.dec.di.toNat) (tokenBytes s)) = .ok (i, rest) →
    step s = exec i { s with turns := s.turns.tail }

/-- R97: when the host's turn comes, the step carries out the host's next operation, and takes it off the list. -/
def Obligations.StepRunsTheHostOperation : Prop :=
  ∀ (s : State) (op : HostOp) (rest : List HostOp), nextTurn s = .host → s.host = op :: rest →
    step s = hostOp op { s with turns := s.turns.tail, host := rest }

/-! ### Invariants, safety, completion -/

/-- Every step keeps the invariant: memory in canonical form, STATUS and phase legal (R29, R45), CMD the latched word
while a command runs (R28), and the working registers of a command in progress within their bounds (R103, R137, R159). -/
def Obligations.StepKeepsTheInvariant : Prop :=
  ∀ s t : State, Inv s → step s = .next t → Inv t

/-- The invariant holds at reset (R230). -/
def Obligations.InvariantHoldsAtReset : Prop := Inv State.reset

/-- R64, R71: from a state that meets the invariant, a step never stops with a fault: no access passes 2^64. -/
def Obligations.StepNeverFaults : Prop :=
  ∀ (s : State) (f : Fault), Inv s → step s ≠ .fault f

/-- D31: from a state that meets the invariant with a command accepted and not yet begun, running it iteration by
iteration reaches exactly the state that running it whole does. -/
def Obligations.IterationsReachTheCommandsOutcome : Prop :=
  ∀ s : State, Inv s → s.status.busy = true → s.inLoop = false →
    ∃ k t, engineFineTurns k s = .next t ∧ engineTurn s = .next t ∧ t.status.busy = false

/-- R242, R139, R159: every accepted command completes: run iteration by iteration it is done after at most `src_len + 2`
turns for COMPRESS, `fc + 2` for DECOMPRESS, `wl + 2` for FIND_MATCH, and one turn for a reserved word. -/
def Obligations.EveryAcceptedCommandCompletes : Prop :=
  ∀ s : State, Inv s → s.status.busy = true → s.inLoop = false →
    ∃ k t, engineFineTurns k s = .next t ∧ t.status.busy = false ∧ t.status.done = true ∧ t.phase = .idle ∧
      (s.phase = .runCompress → k ≤ s.latched.srcLen.toNat + 2) ∧
      (s.phase = .runDecompress → k ≤ (headerField s 16).toNat + 2) ∧
      (s.phase = .runFind → k ≤ min (min s.latched.windowLimit.toNat s.latched.position.toNat) 65535 + 2) ∧
      (s.phase = .runBadCmd → k = 1)
end

