-- ==== Sys2Proof/Laws/Encoding.lean ====
section
/-! SUPPORT. The laws of byte order, flag bytes and command words. -/

namespace Sys2Proof

/-! ### Byte order -/

@[simp] theorem leBytes_length (n v : Nat) : (leBytes n v).length = n := by
  induction n generalizing v with
  | zero => rfl
  | succ n ih => simp [leBytes, ih]

@[simp] theorem le64_length (v : Word) : (le64 v).length = 8 := leBytes_length 8 _

@[simp] theorem le16_length (v : BitVec 16) : (le16 v).length = 2 := leBytes_length 2 _

/-- Reading back the `n` low bytes of a number gives the number modulo `256 ^ n`. -/
theorem leValue_leBytes (n v : Nat) : leValue (leBytes n v) = v % 256 ^ n := by
  induction n generalizing v with
  | zero => simp [leBytes, leValue, Nat.mod_one]
  | succ n ih =>
    have h : 256 ^ (n + 1) = 256 * 256 ^ n := by rw [Nat.pow_succ, Nat.mul_comm]
    rw [leBytes, leValue, ih, BitVec.toNat_ofNat, h, Nat.mod_mul]

theorem leValue_lt (bs : List Byte) : leValue bs < 256 ^ bs.length := by
  induction bs with
  | nil => simp [leValue]
  | cons b bs ih =>
    have := b.isLt
    rw [leValue, List.length_cons, pow_succ]
    omega

/-- The header field assembled from `LE64(v)` is `v` (R63, R82). -/
theorem ofNat_leValue_le64 (v : Word) : BitVec.ofNat 64 (leValue (le64 v)) = v := by
  rw [le64, leValue_leBytes]
  apply BitVec.eq_of_toNat_eq
  have := v.isLt
  simp; omega

/-- The displacement assembled from `LE16(d)` is `d` (R86). -/
theorem ofNat_leValue_le16 (d : BitVec 16) : BitVec.ofNat 16 (leValue (le16 d)) = d := by
  rw [le16, leValue_leBytes]
  apply BitVec.eq_of_toNat_eq
  have := d.isLt
  simp; omega

/-! ### Flag bytes (R84, R123) -/

theorem packByte_eq (b : Nat → Bool) (flags : List Bool) (h : ∀ m, m < 8 → flags.getD m false = b m) :
    packByte flags = packByte [b 0, b 1, b 2, b 3, b 4, b 5, b 6, b 7] := by
  simp only [packByte, show List.range 8 = [0, 1, 2, 3, 4, 5, 6, 7] by decide, List.foldl]
  rw [h 0 (by omega), h 1 (by omega), h 2 (by omega), h 3 (by omega), h 4 (by omega), h 5 (by omega),
    h 6 (by omega), h 7 (by omega)]
  rfl

theorem packByte_eight_bit : ∀ b0 b1 b2 b3 b4 b5 b6 b7 : Bool, ∀ m : Fin 8,
    (packByte [b0, b1, b2, b3, b4, b5, b6, b7]).getLsbD (7 - m.val)
      = [b0, b1, b2, b3, b4, b5, b6, b7].getD m.val false := by
  decide +kernel

/-- Bit `7 - m` of a packed flag byte is its decision `m`, or 0 where there is none (R84). -/
theorem packByte_getLsbD (flags : List Bool) (m : Nat) (hm : m < 8) :
    (packByte flags).getLsbD (7 - m) = flags.getD m false := by
  rw [packByte_eq (fun m => flags.getD m false) flags (fun _ _ => rfl)]
  have := packByte_eight_bit (flags.getD 0 false) (flags.getD 1 false) (flags.getD 2 false) (flags.getD 3 false)
    (flags.getD 4 false) (flags.getD 5 false) (flags.getD 6 false) (flags.getD 7 false) ⟨m, hm⟩
  rw [this]
  interval_cases m <;> rfl

theorem packByte_nil : packByte [] = 0#8 := by decide

@[simp] theorem packFlags_length (flags : List Bool) : (packFlags flags).length = ceil8 flags.length := by
  simp [packFlags]

theorem packFlags_getElem? (flags : List Bool) (j : Nat) :
    (packFlags flags)[j]? =
      if j < ceil8 flags.length then some (packByte ((flags.drop (8 * j)).take 8)) else none := by
  by_cases h : j < ceil8 flags.length
  · simp [packFlags, h]
  · simp [packFlags, h]

theorem getD_take_drop (flags : List Bool) (j m : Nat) (hm : m < 8) :
    ((flags.drop (8 * j)).take 8).getD m false = flags.getD (8 * j + m) false := by
  simp [List.getD_eq_getElem?_getD, hm]

/-- Bit `7 - m` of flag byte `j` is decision `8j + m`, or 0 where there is none (R84, R123). -/
theorem packFlags_bit (flags : List Bool) (j m : Nat) (hj : j < ceil8 flags.length) (hm : m < 8) :
    ((packFlags flags).getD j 0#8).getLsbD (7 - m) = flags.getD (8 * j + m) false := by
  rw [List.getD_eq_getElem?_getD, packFlags_getElem?, if_pos hj, Option.getD_some, packByte_getLsbD _ _ hm,
    getD_take_drop _ _ _ hm]

/-- Unpacking decision `i` of packed flags gives decision `i` (R123). -/
theorem flagBit_packFlags (flags : List Bool) (i : Nat) (hi : i < flags.length) :
    flagBit ((packFlags flags).getD (i / 8) 0#8) i = flags.getD i false := by
  rw [flagBit, packFlags_bit _ _ _ (by unfold ceil8; omega) (Nat.mod_lt _ (by omega))]
  congr 1; omega

/-! ### Command words (R81) -/

/-- A command word decodes exactly when it is valid. -/
theorem decodeCommand_ok_iff (w : Word) (i : Instr) :
    decodeCommand w = .ok i ↔
      (w = 0x1#64 ∧ i = .compress) ∨ (w = 0x2#64 ∧ i = .decompress) ∨ (w = 0x3#64 ∧ i = .findMatch) := by
  by_cases h1 : w = 0x1#64
  · subst h1; simp [decodeCommand, eq_comm]
  by_cases h2 : w = 0x2#64
  · subst h2; simp [decodeCommand, eq_comm]
  by_cases h3 : w = 0x3#64
  · subst h3; simp [decodeCommand, eq_comm]
  simp only [decodeCommand, h1, h2, h3, if_false, false_and, or_false, iff_false]
  split <;> simp

/-- The content of a decoded token comes off the front of the content it was decoded from (R88). -/
theorem decodeToken_tokenContent (t : Instr) (b : Bool) (h : tokenDecision t = some b) (rest : List Byte) :
    decodeToken b (tokenContent t ++ rest) = .ok (t, rest) := by
  cases t with
  | compress => cases h
  | decompress => cases h
  | findMatch => cases h
  | lit c => cases h; rfl
  | matchRecord d l =>
    cases h
    have hd := ofNat_leValue_le16 d
    simp only [le16, leBytes] at hd
    simp only [tokenContent, le16, leBytes, List.cons_append, List.nil_append, decodeToken, hd]

end Sys2Proof
end

