-- ==== Sys2Proof/Laws/Memory.lean ====
section
/-! SUPPORT. The laws of memory: what a read gives after a write, that every write keeps the canonical form, and that
the form is canonical. -/

namespace Sys2Proof.Machine

/-! ### Reading -/

theorem memGet_append (m m' : List Host.Cell) (x : Nat) :
    memGet (m ++ m') x = (memGet m x).or (memGet m' x) := by
  induction m with
  | nil => simp [memGet]
  | cons c m ih =>
    obtain ⟨y, b⟩ := c
    by_cases h : y = x <;> simp [memGet, h, ih]

theorem memGet_filter (p : Nat → Bool) (m : List Host.Cell) (x : Nat) :
    memGet (m.filter (fun c => p c.1)) x = if p x then memGet m x else none := by
  induction m with
  | nil => simp [memGet]
  | cons c m ih =>
    obtain ⟨y, b⟩ := c
    by_cases hy : p y = true
    · rw [List.filter_cons_of_pos (by simpa using hy)]
      by_cases h : y = x
      · subst h; simp [memGet, hy]
      · simp [memGet, h, ih]
    · rw [List.filter_cons_of_neg (by simpa using hy), ih]
      by_cases h : y = x
      · subst h; simp [hy]
      · simp [memGet, h]

theorem memGet_cellsFrom (a : Nat) (bs : List Byte) (x : Nat) :
    memGet (cellsFrom a bs) x = if a ≤ x ∧ x < addressSpace then bs[x - a]? else none := by
  induction bs generalizing a with
  | nil => simp [cellsFrom, memGet]
  | cons b bs ih =>
    by_cases ha : a < addressSpace
    · rw [cellsFrom, if_pos ha]
      by_cases h : a = x
      · subst h; simp [memGet, ha]
      · rw [memGet, if_neg h, ih]
        by_cases hx : a ≤ x ∧ x < addressSpace
        · rw [if_pos ⟨by omega, hx.2⟩, if_pos hx, show x - a = (x - (a + 1)) + 1 by omega]
          simp
        · rw [if_neg (by omega), if_neg hx]
    · rw [cellsFrom, if_neg ha, if_neg (by omega)]; rfl

/-- Everything a write does to what is listed: the written addresses that exist hold the new bytes, the written
addresses that do not exist hold nothing, every other address is as before. -/
theorem memGet_memWrite (m : List Host.Cell) (a : Nat) (bs : List Byte) (x : Nat) :
    memGet (memWrite m a bs) x =
      if a ≤ x ∧ x < a + bs.length then (if x < addressSpace then bs[x - a]? else none) else memGet m x := by
  rw [memWrite, memGet_append, memGet_append, memGet_filter (fun y => decide (y < a)),
    memGet_filter (fun y => decide (a + bs.length ≤ y)), memGet_cellsFrom]
  have hnone : ¬x < a + bs.length → bs[x - a]? = none := fun h => List.getElem?_eq_none (by omega)
  by_cases h1 : x < a
  · simp [h1, show ¬a ≤ x by omega, show ¬a + bs.length ≤ x by omega]
  · by_cases h2 : x < a + bs.length
    · simp [h1, h2, show a ≤ x by omega, show ¬a + bs.length ≤ x by omega]
    · simp [h1, h2, hnone h2, show a + bs.length ≤ x by omega]

/-- A written byte reads back (R60). -/
theorem memRead_memWrite_of_mem (m : List Host.Cell) (a : Nat) (bs : List Byte) (i : Nat)
    (hi : i < bs.length) (hs : a + i < addressSpace) : memRead (memWrite m a bs) (a + i) = bs[i] := by
  rw [memRead, memGet_memWrite, if_pos ⟨by omega, by omega⟩, if_pos hs]
  simp [hi]

/-- A write leaves every address outside it alone. -/
theorem memRead_memWrite_of_not_mem (m : List Host.Cell) (a : Nat) (bs : List Byte) (x : Nat)
    (h : ¬(a ≤ x ∧ x < a + bs.length)) : memRead (memWrite m a bs) x = memRead m x := by
  rw [memRead, memGet_memWrite, if_neg h]; rfl

/-! ### The canonical form -/

theorem memWf_iff (m : List Host.Cell) :
    memWf m = true ↔ m.Pairwise (fun c e => c.1 < e.1) ∧ ∀ c ∈ m, c.1 < addressSpace := by
  induction m with
  | nil => simp [memWf]
  | cons c m ih =>
    cases m with
    | nil => simp [memWf]
    | cons e m =>
      rw [memWf, Bool.and_eq_true, decide_eq_true_iff, ih]
      constructor
      · rintro ⟨hce, hp, hs⟩
        refine ⟨List.pairwise_cons.2 ⟨fun x hx => ?_, hp⟩, fun x hx => ?_⟩
        · rcases List.mem_cons.1 hx with rfl | hx
          · exact hce
          · exact lt_trans hce ((List.pairwise_cons.1 hp).1 x hx)
        · rcases List.mem_cons.1 hx with rfl | hx
          · exact lt_trans hce (hs e (by simp))
          · exact hs x hx
      · rintro ⟨hp, hs⟩
        have h := List.pairwise_cons.1 hp
        exact ⟨h.1 e (by simp), h.2, fun x hx => hs x (List.mem_cons_of_mem _ hx)⟩

theorem cellsFrom_bounds (a : Nat) (bs : List Byte) :
    ∀ c ∈ cellsFrom a bs, a ≤ c.1 ∧ c.1 < a + bs.length ∧ c.1 < addressSpace := by
  induction bs generalizing a with
  | nil => simp [cellsFrom]
  | cons b bs ih =>
    intro c hc
    rw [cellsFrom] at hc
    split at hc
    · rcases List.mem_cons.1 hc with rfl | hc
      · simp; omega
      · have := ih (a + 1) c hc
        simp only [List.length_cons]; omega
    · simp at hc

theorem cellsFrom_pairwise (a : Nat) (bs : List Byte) :
    (cellsFrom a bs).Pairwise (fun c e => c.1 < e.1) := by
  induction bs generalizing a with
  | nil => simp [cellsFrom]
  | cons b bs ih =>
    rw [cellsFrom]
    split
    · exact List.pairwise_cons.2 ⟨fun c hc => by have := cellsFrom_bounds (a + 1) bs c hc; simp; omega, ih _⟩
    · simp

/-- Every write keeps the canonical form. -/
theorem memWf_memWrite {m : List Host.Cell} (h : memWf m = true) (a : Nat) (bs : List Byte) :
    memWf (memWrite m a bs) = true := by
  rw [memWf_iff] at h ⊢
  obtain ⟨hp, hs⟩ := h
  rw [memWrite]
  constructor
  · rw [List.pairwise_append, List.pairwise_append]
    refine ⟨⟨hp.filter _, cellsFrom_pairwise a bs, ?_⟩, hp.filter _, ?_⟩
    · intro c hc e he
      have h1 := (List.mem_filter.1 hc).2
      have h2 := cellsFrom_bounds a bs e he
      simp at h1; omega
    · intro c hc e he
      have h2 := (List.mem_filter.1 he).2
      rcases List.mem_append.1 hc with hc | hc
      · have h1 := (List.mem_filter.1 hc).2
        simp at h1 h2; omega
      · have h1 := cellsFrom_bounds a bs c hc
        simp at h2; omega
  · intro c hc
    rcases List.mem_append.1 hc with hc | hc
    · rcases List.mem_append.1 hc with hc | hc
      · exact hs c (List.mem_filter.1 hc).1
      · exact (cellsFrom_bounds a bs c hc).2.2
    · exact hs c (List.mem_filter.1 hc).1

theorem memGet_of_mem {m : List Host.Cell} (hp : m.Pairwise (fun c e => c.1 < e.1)) {x : Nat} {b : Byte} :
    memGet m x = some b ↔ (x, b) ∈ m := by
  induction m with
  | nil => simp [memGet]
  | cons c m ih =>
    obtain ⟨y, v⟩ := c
    have hp' := List.pairwise_cons.1 hp
    by_cases h : y = x
    · subst h
      simp only [memGet, if_true, Option.some.injEq, List.mem_cons, Prod.mk.injEq, true_and]
      constructor
      · intro h; exact .inl h.symm
      · rintro (h | h)
        · exact h.symm
        · exact absurd (hp'.1 _ h) (by simp)
    · simp only [memGet, if_neg h, ih hp'.2, List.mem_cons, Prod.mk.injEq]
      constructor
      · exact .inr
      · rintro (⟨h', -⟩ | h')
        · exact absurd h'.symm h
        · exact h'

/-- The form is canonical: memories that list the same bytes at the same addresses are equal data. -/
theorem memWf_ext {m m' : List Host.Cell} (h : memWf m = true) (h' : memWf m' = true)
    (heq : ∀ x, memGet m x = memGet m' x) : m = m' := by
  rw [memWf_iff] at h h'
  have hmem : ∀ c, c ∈ m ↔ c ∈ m' := fun c => by
    rw [show c = (c.1, c.2) from rfl, ← memGet_of_mem h.1, ← memGet_of_mem h'.1, heq]
  have hn : ∀ {l : List Host.Cell}, l.Pairwise (fun c e => c.1 < e.1) → l.Nodup := fun hl =>
    hl.imp (fun {c e} hce hceq => by subst hceq; exact lt_irrefl _ hce)
  exact List.Perm.eq_of_pairwise (fun a b _ _ hab hba => absurd hab (Nat.lt_asymm hba)) h.1 h'.1
    ((List.perm_ext_iff_of_nodup (hn h.1) (hn h'.1)).2 hmem)

end Sys2Proof.Machine
end

