-- ==== Sys2Proof/Laws/State.lean ====
section
/-! SUPPORT. The state's updates, field by field: what each named update leaves in each field. -/

namespace Sys2Proof.Machine

/-! ### writeBytes -/

@[simp] theorem writeBytes_cmd (s : State) (a : Nat) (bs : List Byte) : (writeBytes s a bs).cmd = s.cmd := rfl
@[simp] theorem writeBytes_status (s : State) (a : Nat) (bs : List Byte) : (writeBytes s a bs).status = s.status := rfl
@[simp] theorem writeBytes_doneIe (s : State) (a : Nat) (bs : List Byte) : (writeBytes s a bs).doneIe = s.doneIe := rfl
@[simp] theorem writeBytes_srcAddr (s : State) (a : Nat) (bs : List Byte) : (writeBytes s a bs).srcAddr = s.srcAddr := rfl
@[simp] theorem writeBytes_srcLen (s : State) (a : Nat) (bs : List Byte) : (writeBytes s a bs).srcLen = s.srcLen := rfl
@[simp] theorem writeBytes_dstAddr (s : State) (a : Nat) (bs : List Byte) : (writeBytes s a bs).dstAddr = s.dstAddr := rfl
@[simp] theorem writeBytes_dstCap (s : State) (a : Nat) (bs : List Byte) : (writeBytes s a bs).dstCap = s.dstCap := rfl
@[simp] theorem writeBytes_position (s : State) (a : Nat) (bs : List Byte) : (writeBytes s a bs).position = s.position := rfl
@[simp] theorem writeBytes_windowLimit (s : State) (a : Nat) (bs : List Byte) : (writeBytes s a bs).windowLimit = s.windowLimit := rfl
@[simp] theorem writeBytes_resultLen (s : State) (a : Nat) (bs : List Byte) : (writeBytes s a bs).resultLen = s.resultLen := rfl
@[simp] theorem writeBytes_resFlagCount (s : State) (a : Nat) (bs : List Byte) : (writeBytes s a bs).resFlagCount = s.resFlagCount := rfl
@[simp] theorem writeBytes_resContentLen (s : State) (a : Nat) (bs : List Byte) : (writeBytes s a bs).resContentLen = s.resContentLen := rfl
@[simp] theorem writeBytes_matchResult (s : State) (a : Nat) (bs : List Byte) : (writeBytes s a bs).matchResult = s.matchResult := rfl
@[simp] theorem writeBytes_phase (s : State) (a : Nat) (bs : List Byte) : (writeBytes s a bs).phase = s.phase := rfl
@[simp] theorem writeBytes_latched (s : State) (a : Nat) (bs : List Byte) : (writeBytes s a bs).latched = s.latched := rfl
@[simp] theorem writeBytes_enc (s : State) (a : Nat) (bs : List Byte) : (writeBytes s a bs).enc = s.enc := rfl
@[simp] theorem writeBytes_dec (s : State) (a : Nat) (bs : List Byte) : (writeBytes s a bs).dec = s.dec := rfl
@[simp] theorem writeBytes_finder (s : State) (a : Nat) (bs : List Byte) : (writeBytes s a bs).finder = s.finder := rfl
@[simp] theorem writeBytes_mem (s : State) (a : Nat) (bs : List Byte) : (writeBytes s a bs).mem = memWrite s.mem a bs := rfl
@[simp] theorem writeBytes_inLoop (s : State) (a : Nat) (bs : List Byte) : (writeBytes s a bs).inLoop = s.inLoop := rfl
@[simp] theorem writeBytes_draws (s : State) (a : Nat) (bs : List Byte) : (writeBytes s a bs).draws = s.draws := rfl
@[simp] theorem writeBytes_host (s : State) (a : Nat) (bs : List Byte) : (writeBytes s a bs).host = s.host := rfl
@[simp] theorem writeBytes_turns (s : State) (a : Nat) (bs : List Byte) : (writeBytes s a bs).turns = s.turns := rfl
@[simp] theorem writeBytes_busData (s : State) (a : Nat) (bs : List Byte) : (writeBytes s a bs).busData = s.busData := rfl
@[simp] theorem writeBytes_regBase (s : State) (a : Nat) (bs : List Byte) : (writeBytes s a bs).regBase = s.regBase := rfl
@[simp] theorem writeBytes_devices (s : State) (a : Nat) (bs : List Byte) : (writeBytes s a bs).devices = s.devices := rfl

/-! ### drawBytes -/

@[simp] theorem drawBytes_cmd (s : State) (a n : Nat) : (drawBytes s a n).cmd = s.cmd := rfl
@[simp] theorem drawBytes_status (s : State) (a n : Nat) : (drawBytes s a n).status = s.status := rfl
@[simp] theorem drawBytes_doneIe (s : State) (a n : Nat) : (drawBytes s a n).doneIe = s.doneIe := rfl
@[simp] theorem drawBytes_srcAddr (s : State) (a n : Nat) : (drawBytes s a n).srcAddr = s.srcAddr := rfl
@[simp] theorem drawBytes_srcLen (s : State) (a n : Nat) : (drawBytes s a n).srcLen = s.srcLen := rfl
@[simp] theorem drawBytes_dstAddr (s : State) (a n : Nat) : (drawBytes s a n).dstAddr = s.dstAddr := rfl
@[simp] theorem drawBytes_dstCap (s : State) (a n : Nat) : (drawBytes s a n).dstCap = s.dstCap := rfl
@[simp] theorem drawBytes_position (s : State) (a n : Nat) : (drawBytes s a n).position = s.position := rfl
@[simp] theorem drawBytes_windowLimit (s : State) (a n : Nat) : (drawBytes s a n).windowLimit = s.windowLimit := rfl
@[simp] theorem drawBytes_resultLen (s : State) (a n : Nat) : (drawBytes s a n).resultLen = s.resultLen := rfl
@[simp] theorem drawBytes_resFlagCount (s : State) (a n : Nat) : (drawBytes s a n).resFlagCount = s.resFlagCount := rfl
@[simp] theorem drawBytes_resContentLen (s : State) (a n : Nat) : (drawBytes s a n).resContentLen = s.resContentLen := rfl
@[simp] theorem drawBytes_matchResult (s : State) (a n : Nat) : (drawBytes s a n).matchResult = s.matchResult := rfl
@[simp] theorem drawBytes_phase (s : State) (a n : Nat) : (drawBytes s a n).phase = s.phase := rfl
@[simp] theorem drawBytes_latched (s : State) (a n : Nat) : (drawBytes s a n).latched = s.latched := rfl
@[simp] theorem drawBytes_enc (s : State) (a n : Nat) : (drawBytes s a n).enc = s.enc := rfl
@[simp] theorem drawBytes_dec (s : State) (a n : Nat) : (drawBytes s a n).dec = s.dec := rfl
@[simp] theorem drawBytes_finder (s : State) (a n : Nat) : (drawBytes s a n).finder = s.finder := rfl
@[simp] theorem drawBytes_mem (s : State) (a n : Nat) : (drawBytes s a n).mem = memWrite s.mem a (drawnBytes s.draws n) := rfl
@[simp] theorem drawBytes_inLoop (s : State) (a n : Nat) : (drawBytes s a n).inLoop = s.inLoop := rfl
@[simp] theorem drawBytes_draws (s : State) (a n : Nat) : (drawBytes s a n).draws = s.draws + 1 := rfl
@[simp] theorem drawBytes_host (s : State) (a n : Nat) : (drawBytes s a n).host = s.host := rfl
@[simp] theorem drawBytes_turns (s : State) (a n : Nat) : (drawBytes s a n).turns = s.turns := rfl
@[simp] theorem drawBytes_busData (s : State) (a n : Nat) : (drawBytes s a n).busData = s.busData := rfl
@[simp] theorem drawBytes_regBase (s : State) (a n : Nat) : (drawBytes s a n).regBase = s.regBase := rfl
@[simp] theorem drawBytes_devices (s : State) (a n : Nat) : (drawBytes s a n).devices = s.devices := rfl

/-! ### drawResults -/

@[simp] theorem drawResults_cmd (s : State) : (drawResults s).cmd = s.cmd := rfl
@[simp] theorem drawResults_status (s : State) : (drawResults s).status = s.status := rfl
@[simp] theorem drawResults_doneIe (s : State) : (drawResults s).doneIe = s.doneIe := rfl
@[simp] theorem drawResults_srcAddr (s : State) : (drawResults s).srcAddr = s.srcAddr := rfl
@[simp] theorem drawResults_srcLen (s : State) : (drawResults s).srcLen = s.srcLen := rfl
@[simp] theorem drawResults_dstAddr (s : State) : (drawResults s).dstAddr = s.dstAddr := rfl
@[simp] theorem drawResults_dstCap (s : State) : (drawResults s).dstCap = s.dstCap := rfl
@[simp] theorem drawResults_position (s : State) : (drawResults s).position = s.position := rfl
@[simp] theorem drawResults_windowLimit (s : State) : (drawResults s).windowLimit = s.windowLimit := rfl
@[simp] theorem drawResults_resultLen (s : State) : (drawResults s).resultLen = Config.freeWord s.draws 0 := rfl
@[simp] theorem drawResults_resFlagCount (s : State) : (drawResults s).resFlagCount = Config.freeWord s.draws 1 := rfl
@[simp] theorem drawResults_resContentLen (s : State) : (drawResults s).resContentLen = Config.freeWord s.draws 2 := rfl
@[simp] theorem drawResults_matchResult (s : State) : (drawResults s).matchResult = drawnMatchResult s.draws := rfl
@[simp] theorem drawResults_phase (s : State) : (drawResults s).phase = s.phase := rfl
@[simp] theorem drawResults_latched (s : State) : (drawResults s).latched = s.latched := rfl
@[simp] theorem drawResults_enc (s : State) : (drawResults s).enc = s.enc := rfl
@[simp] theorem drawResults_dec (s : State) : (drawResults s).dec = s.dec := rfl
@[simp] theorem drawResults_finder (s : State) : (drawResults s).finder = s.finder := rfl
@[simp] theorem drawResults_mem (s : State) : (drawResults s).mem = s.mem := rfl
@[simp] theorem drawResults_inLoop (s : State) : (drawResults s).inLoop = s.inLoop := rfl
@[simp] theorem drawResults_draws (s : State) : (drawResults s).draws = s.draws + 1 := rfl
@[simp] theorem drawResults_host (s : State) : (drawResults s).host = s.host := rfl
@[simp] theorem drawResults_turns (s : State) : (drawResults s).turns = s.turns := rfl
@[simp] theorem drawResults_busData (s : State) : (drawResults s).busData = s.busData := rfl
@[simp] theorem drawResults_regBase (s : State) : (drawResults s).regBase = s.regBase := rfl
@[simp] theorem drawResults_devices (s : State) : (drawResults s).devices = s.devices := rfl

/-! ### toIdle -/

@[simp] theorem toIdle_cmd (s : State) : (toIdle s).cmd = s.cmd := rfl
@[simp] theorem toIdle_status (s : State) : (toIdle s).status = s.status := rfl
@[simp] theorem toIdle_doneIe (s : State) : (toIdle s).doneIe = s.doneIe := rfl
@[simp] theorem toIdle_srcAddr (s : State) : (toIdle s).srcAddr = s.srcAddr := rfl
@[simp] theorem toIdle_srcLen (s : State) : (toIdle s).srcLen = s.srcLen := rfl
@[simp] theorem toIdle_dstAddr (s : State) : (toIdle s).dstAddr = s.dstAddr := rfl
@[simp] theorem toIdle_dstCap (s : State) : (toIdle s).dstCap = s.dstCap := rfl
@[simp] theorem toIdle_position (s : State) : (toIdle s).position = s.position := rfl
@[simp] theorem toIdle_windowLimit (s : State) : (toIdle s).windowLimit = s.windowLimit := rfl
@[simp] theorem toIdle_resultLen (s : State) : (toIdle s).resultLen = s.resultLen := rfl
@[simp] theorem toIdle_resFlagCount (s : State) : (toIdle s).resFlagCount = s.resFlagCount := rfl
@[simp] theorem toIdle_resContentLen (s : State) : (toIdle s).resContentLen = s.resContentLen := rfl
@[simp] theorem toIdle_matchResult (s : State) : (toIdle s).matchResult = s.matchResult := rfl
@[simp] theorem toIdle_phase (s : State) : (toIdle s).phase = .idle := rfl
@[simp] theorem toIdle_latched (s : State) : (toIdle s).latched = s.latched := rfl
@[simp] theorem toIdle_enc (s : State) : (toIdle s).enc = EncRegs.zero := rfl
@[simp] theorem toIdle_dec (s : State) : (toIdle s).dec = DecRegs.zero := rfl
@[simp] theorem toIdle_finder (s : State) : (toIdle s).finder = FinderRegs.zero := rfl
@[simp] theorem toIdle_mem (s : State) : (toIdle s).mem = s.mem := rfl
@[simp] theorem toIdle_inLoop (s : State) : (toIdle s).inLoop = false := rfl
@[simp] theorem toIdle_draws (s : State) : (toIdle s).draws = s.draws := rfl
@[simp] theorem toIdle_host (s : State) : (toIdle s).host = s.host := rfl
@[simp] theorem toIdle_turns (s : State) : (toIdle s).turns = s.turns := rfl
@[simp] theorem toIdle_busData (s : State) : (toIdle s).busData = s.busData := rfl
@[simp] theorem toIdle_regBase (s : State) : (toIdle s).regBase = s.regBase := rfl
@[simp] theorem toIdle_devices (s : State) : (toIdle s).devices = s.devices := rfl

/-! ### raiseFault -/

@[simp] theorem raiseFault_cmd (c : Cause) (s : State) : (raiseFault c s).cmd = s.cmd := rfl
@[simp] theorem raiseFault_status (c : Cause) (s : State) : (raiseFault c s).status = statusFaulted c s.status := rfl
@[simp] theorem raiseFault_doneIe (c : Cause) (s : State) : (raiseFault c s).doneIe = s.doneIe := rfl
@[simp] theorem raiseFault_srcAddr (c : Cause) (s : State) : (raiseFault c s).srcAddr = s.srcAddr := rfl
@[simp] theorem raiseFault_srcLen (c : Cause) (s : State) : (raiseFault c s).srcLen = s.srcLen := rfl
@[simp] theorem raiseFault_dstAddr (c : Cause) (s : State) : (raiseFault c s).dstAddr = s.dstAddr := rfl
@[simp] theorem raiseFault_dstCap (c : Cause) (s : State) : (raiseFault c s).dstCap = s.dstCap := rfl
@[simp] theorem raiseFault_position (c : Cause) (s : State) : (raiseFault c s).position = s.position := rfl
@[simp] theorem raiseFault_windowLimit (c : Cause) (s : State) : (raiseFault c s).windowLimit = s.windowLimit := rfl
@[simp] theorem raiseFault_resultLen (c : Cause) (s : State) : (raiseFault c s).resultLen = Config.freeWord s.draws 0 := rfl
@[simp] theorem raiseFault_resFlagCount (c : Cause) (s : State) : (raiseFault c s).resFlagCount = Config.freeWord s.draws 1 := rfl
@[simp] theorem raiseFault_resContentLen (c : Cause) (s : State) : (raiseFault c s).resContentLen = Config.freeWord s.draws 2 := rfl
@[simp] theorem raiseFault_matchResult (c : Cause) (s : State) : (raiseFault c s).matchResult = drawnMatchResult s.draws := rfl
@[simp] theorem raiseFault_phase (c : Cause) (s : State) : (raiseFault c s).phase = .idle := rfl
@[simp] theorem raiseFault_latched (c : Cause) (s : State) : (raiseFault c s).latched = s.latched := rfl
@[simp] theorem raiseFault_enc (c : Cause) (s : State) : (raiseFault c s).enc = EncRegs.zero := rfl
@[simp] theorem raiseFault_dec (c : Cause) (s : State) : (raiseFault c s).dec = DecRegs.zero := rfl
@[simp] theorem raiseFault_finder (c : Cause) (s : State) : (raiseFault c s).finder = FinderRegs.zero := rfl
@[simp] theorem raiseFault_mem (c : Cause) (s : State) : (raiseFault c s).mem = s.mem := rfl
@[simp] theorem raiseFault_inLoop (c : Cause) (s : State) : (raiseFault c s).inLoop = false := rfl
@[simp] theorem raiseFault_draws (c : Cause) (s : State) : (raiseFault c s).draws = s.draws + 1 := rfl
@[simp] theorem raiseFault_host (c : Cause) (s : State) : (raiseFault c s).host = s.host := rfl
@[simp] theorem raiseFault_turns (c : Cause) (s : State) : (raiseFault c s).turns = s.turns := rfl
@[simp] theorem raiseFault_busData (c : Cause) (s : State) : (raiseFault c s).busData = s.busData := rfl
@[simp] theorem raiseFault_regBase (c : Cause) (s : State) : (raiseFault c s).regBase = s.regBase := rfl
@[simp] theorem raiseFault_devices (c : Cause) (s : State) : (raiseFault c s).devices = s.devices := rfl

/-! ### complete -/

@[simp] theorem complete_cmd (rl rf rc : Word) (r : MatchResult) (s : State) : (complete rl rf rc r s).cmd = s.cmd := rfl
@[simp] theorem complete_status (rl rf rc : Word) (r : MatchResult) (s : State) : (complete rl rf rc r s).status = statusCompleted s.status := rfl
@[simp] theorem complete_doneIe (rl rf rc : Word) (r : MatchResult) (s : State) : (complete rl rf rc r s).doneIe = s.doneIe := rfl
@[simp] theorem complete_srcAddr (rl rf rc : Word) (r : MatchResult) (s : State) : (complete rl rf rc r s).srcAddr = s.srcAddr := rfl
@[simp] theorem complete_srcLen (rl rf rc : Word) (r : MatchResult) (s : State) : (complete rl rf rc r s).srcLen = s.srcLen := rfl
@[simp] theorem complete_dstAddr (rl rf rc : Word) (r : MatchResult) (s : State) : (complete rl rf rc r s).dstAddr = s.dstAddr := rfl
@[simp] theorem complete_dstCap (rl rf rc : Word) (r : MatchResult) (s : State) : (complete rl rf rc r s).dstCap = s.dstCap := rfl
@[simp] theorem complete_position (rl rf rc : Word) (r : MatchResult) (s : State) : (complete rl rf rc r s).position = s.position := rfl
@[simp] theorem complete_windowLimit (rl rf rc : Word) (r : MatchResult) (s : State) : (complete rl rf rc r s).windowLimit = s.windowLimit := rfl
@[simp] theorem complete_resultLen (rl rf rc : Word) (r : MatchResult) (s : State) : (complete rl rf rc r s).resultLen = rl := rfl
@[simp] theorem complete_resFlagCount (rl rf rc : Word) (r : MatchResult) (s : State) : (complete rl rf rc r s).resFlagCount = rf := rfl
@[simp] theorem complete_resContentLen (rl rf rc : Word) (r : MatchResult) (s : State) : (complete rl rf rc r s).resContentLen = rc := rfl
@[simp] theorem complete_matchResult (rl rf rc : Word) (r : MatchResult) (s : State) : (complete rl rf rc r s).matchResult = r := rfl
@[simp] theorem complete_phase (rl rf rc : Word) (r : MatchResult) (s : State) : (complete rl rf rc r s).phase = .idle := rfl
@[simp] theorem complete_latched (rl rf rc : Word) (r : MatchResult) (s : State) : (complete rl rf rc r s).latched = s.latched := rfl
@[simp] theorem complete_enc (rl rf rc : Word) (r : MatchResult) (s : State) : (complete rl rf rc r s).enc = EncRegs.zero := rfl
@[simp] theorem complete_dec (rl rf rc : Word) (r : MatchResult) (s : State) : (complete rl rf rc r s).dec = DecRegs.zero := rfl
@[simp] theorem complete_finder (rl rf rc : Word) (r : MatchResult) (s : State) : (complete rl rf rc r s).finder = FinderRegs.zero := rfl
@[simp] theorem complete_mem (rl rf rc : Word) (r : MatchResult) (s : State) : (complete rl rf rc r s).mem = s.mem := rfl
@[simp] theorem complete_inLoop (rl rf rc : Word) (r : MatchResult) (s : State) : (complete rl rf rc r s).inLoop = false := rfl
@[simp] theorem complete_draws (rl rf rc : Word) (r : MatchResult) (s : State) : (complete rl rf rc r s).draws = s.draws := rfl
@[simp] theorem complete_host (rl rf rc : Word) (r : MatchResult) (s : State) : (complete rl rf rc r s).host = s.host := rfl
@[simp] theorem complete_turns (rl rf rc : Word) (r : MatchResult) (s : State) : (complete rl rf rc r s).turns = s.turns := rfl
@[simp] theorem complete_busData (rl rf rc : Word) (r : MatchResult) (s : State) : (complete rl rf rc r s).busData = s.busData := rfl
@[simp] theorem complete_regBase (rl rf rc : Word) (r : MatchResult) (s : State) : (complete rl rf rc r s).regBase = s.regBase := rfl
@[simp] theorem complete_devices (rl rf rc : Word) (r : MatchResult) (s : State) : (complete rl rf rc r s).devices = s.devices := rfl

/-! ### acceptCommand -/

@[simp] theorem acceptCommand_cmd (w : Word) (s : State) : (acceptCommand w s).cmd = w := rfl
@[simp] theorem acceptCommand_status (w : Word) (s : State) : (acceptCommand w s).status = statusAccepted s.status := rfl
@[simp] theorem acceptCommand_doneIe (w : Word) (s : State) : (acceptCommand w s).doneIe = s.doneIe := rfl
@[simp] theorem acceptCommand_srcAddr (w : Word) (s : State) : (acceptCommand w s).srcAddr = s.srcAddr := rfl
@[simp] theorem acceptCommand_srcLen (w : Word) (s : State) : (acceptCommand w s).srcLen = s.srcLen := rfl
@[simp] theorem acceptCommand_dstAddr (w : Word) (s : State) : (acceptCommand w s).dstAddr = s.dstAddr := rfl
@[simp] theorem acceptCommand_dstCap (w : Word) (s : State) : (acceptCommand w s).dstCap = s.dstCap := rfl
@[simp] theorem acceptCommand_position (w : Word) (s : State) : (acceptCommand w s).position = s.position := rfl
@[simp] theorem acceptCommand_windowLimit (w : Word) (s : State) : (acceptCommand w s).windowLimit = s.windowLimit := rfl
@[simp] theorem acceptCommand_resultLen (w : Word) (s : State) : (acceptCommand w s).resultLen = s.resultLen := rfl
@[simp] theorem acceptCommand_resFlagCount (w : Word) (s : State) : (acceptCommand w s).resFlagCount = s.resFlagCount := rfl
@[simp] theorem acceptCommand_resContentLen (w : Word) (s : State) : (acceptCommand w s).resContentLen = s.resContentLen := rfl
@[simp] theorem acceptCommand_matchResult (w : Word) (s : State) : (acceptCommand w s).matchResult = s.matchResult := rfl
@[simp] theorem acceptCommand_phase (w : Word) (s : State) : (acceptCommand w s).phase = phaseOf w := rfl
@[simp] theorem acceptCommand_latched (w : Word) (s : State) : (acceptCommand w s).latched = pendingLatched s w := rfl
@[simp] theorem acceptCommand_enc (w : Word) (s : State) : (acceptCommand w s).enc = s.enc := rfl
@[simp] theorem acceptCommand_dec (w : Word) (s : State) : (acceptCommand w s).dec = s.dec := rfl
@[simp] theorem acceptCommand_finder (w : Word) (s : State) : (acceptCommand w s).finder = s.finder := rfl
@[simp] theorem acceptCommand_mem (w : Word) (s : State) : (acceptCommand w s).mem = s.mem := rfl
@[simp] theorem acceptCommand_inLoop (w : Word) (s : State) : (acceptCommand w s).inLoop = false := rfl
@[simp] theorem acceptCommand_draws (w : Word) (s : State) : (acceptCommand w s).draws = s.draws := rfl
@[simp] theorem acceptCommand_host (w : Word) (s : State) : (acceptCommand w s).host = s.host := rfl
@[simp] theorem acceptCommand_turns (w : Word) (s : State) : (acceptCommand w s).turns = s.turns := rfl
@[simp] theorem acceptCommand_busData (w : Word) (s : State) : (acceptCommand w s).busData = s.busData := rfl
@[simp] theorem acceptCommand_regBase (w : Word) (s : State) : (acceptCommand w s).regBase = s.regBase := rfl
@[simp] theorem acceptCommand_devices (w : Word) (s : State) : (acceptCommand w s).devices = s.devices := rfl

/-! ### writeStatus -/

@[simp] theorem writeStatus_cmd (w : Word) (s : State) : (writeStatus w s).cmd = s.cmd := rfl
@[simp] theorem writeStatus_status (w : Word) (s : State) : (writeStatus w s).status = statusCleared w s.status := rfl
@[simp] theorem writeStatus_doneIe (w : Word) (s : State) : (writeStatus w s).doneIe = s.doneIe := rfl
@[simp] theorem writeStatus_srcAddr (w : Word) (s : State) : (writeStatus w s).srcAddr = s.srcAddr := rfl
@[simp] theorem writeStatus_srcLen (w : Word) (s : State) : (writeStatus w s).srcLen = s.srcLen := rfl
@[simp] theorem writeStatus_dstAddr (w : Word) (s : State) : (writeStatus w s).dstAddr = s.dstAddr := rfl
@[simp] theorem writeStatus_dstCap (w : Word) (s : State) : (writeStatus w s).dstCap = s.dstCap := rfl
@[simp] theorem writeStatus_position (w : Word) (s : State) : (writeStatus w s).position = s.position := rfl
@[simp] theorem writeStatus_windowLimit (w : Word) (s : State) : (writeStatus w s).windowLimit = s.windowLimit := rfl
@[simp] theorem writeStatus_resultLen (w : Word) (s : State) : (writeStatus w s).resultLen = s.resultLen := rfl
@[simp] theorem writeStatus_resFlagCount (w : Word) (s : State) : (writeStatus w s).resFlagCount = s.resFlagCount := rfl
@[simp] theorem writeStatus_resContentLen (w : Word) (s : State) : (writeStatus w s).resContentLen = s.resContentLen := rfl
@[simp] theorem writeStatus_matchResult (w : Word) (s : State) : (writeStatus w s).matchResult = s.matchResult := rfl
@[simp] theorem writeStatus_phase (w : Word) (s : State) : (writeStatus w s).phase = s.phase := rfl
@[simp] theorem writeStatus_latched (w : Word) (s : State) : (writeStatus w s).latched = s.latched := rfl
@[simp] theorem writeStatus_enc (w : Word) (s : State) : (writeStatus w s).enc = s.enc := rfl
@[simp] theorem writeStatus_dec (w : Word) (s : State) : (writeStatus w s).dec = s.dec := rfl
@[simp] theorem writeStatus_finder (w : Word) (s : State) : (writeStatus w s).finder = s.finder := rfl
@[simp] theorem writeStatus_mem (w : Word) (s : State) : (writeStatus w s).mem = s.mem := rfl
@[simp] theorem writeStatus_inLoop (w : Word) (s : State) : (writeStatus w s).inLoop = s.inLoop := rfl
@[simp] theorem writeStatus_draws (w : Word) (s : State) : (writeStatus w s).draws = s.draws := rfl
@[simp] theorem writeStatus_host (w : Word) (s : State) : (writeStatus w s).host = s.host := rfl
@[simp] theorem writeStatus_turns (w : Word) (s : State) : (writeStatus w s).turns = s.turns := rfl
@[simp] theorem writeStatus_busData (w : Word) (s : State) : (writeStatus w s).busData = s.busData := rfl
@[simp] theorem writeStatus_regBase (w : Word) (s : State) : (writeStatus w s).regBase = s.regBase := rfl
@[simp] theorem writeStatus_devices (w : Word) (s : State) : (writeStatus w s).devices = s.devices := rfl

/-! ### Completions of a replay -/

@[simp] theorem raiseReplayFault_mem (c : Cause) (s : State) : (raiseReplayFault c s).mem =
    memWrite s.mem s.latched.dstAddr.toNat (drawnBytes s.draws s.dec.ol.toNat) := rfl

@[simp] theorem raiseReplayFault_status (c : Cause) (s : State) :
    (raiseReplayFault c s).status = statusFaulted c s.status := rfl

@[simp] theorem raiseReplayFault_phase (c : Cause) (s : State) : (raiseReplayFault c s).phase = .idle := rfl

@[simp] theorem raiseReplayFault_latched (c : Cause) (s : State) : (raiseReplayFault c s).latched = s.latched := rfl

@[simp] theorem raiseReplayFault_inLoop (c : Cause) (s : State) : (raiseReplayFault c s).inLoop = false := rfl

@[simp] theorem raiseReplayFault_draws (c : Cause) (s : State) : (raiseReplayFault c s).draws = s.draws + 2 := rfl

/-! ### STATUS -/

@[simp] theorem statusFaulted_busy (c : Cause) (st : Status) : (statusFaulted c st).busy = false := rfl
@[simp] theorem statusFaulted_done (c : Cause) (st : Status) : (statusFaulted c st).done = true := rfl
@[simp] theorem statusFaulted_error (c : Cause) (st : Status) : (statusFaulted c st).error = true := rfl
@[simp] theorem statusFaulted_dropped (c : Cause) (st : Status) : (statusFaulted c st).dropped = st.dropped := rfl
@[simp] theorem statusFaulted_cause (c : Cause) (st : Status) : (statusFaulted c st).cause = c := rfl
@[simp] theorem statusCompleted_busy (st : Status) : (statusCompleted st).busy = false := rfl
@[simp] theorem statusCompleted_done (st : Status) : (statusCompleted st).done = true := rfl
@[simp] theorem statusCompleted_error (st : Status) : (statusCompleted st).error = false := rfl
@[simp] theorem statusCompleted_dropped (st : Status) : (statusCompleted st).dropped = st.dropped := rfl
@[simp] theorem statusCompleted_cause (st : Status) : (statusCompleted st).cause = .none := rfl
@[simp] theorem statusAccepted_busy (st : Status) : (statusAccepted st).busy = true := rfl
@[simp] theorem statusAccepted_done (st : Status) : (statusAccepted st).done = false := rfl
@[simp] theorem statusAccepted_error (st : Status) : (statusAccepted st).error = false := rfl
@[simp] theorem statusAccepted_dropped (st : Status) : (statusAccepted st).dropped = st.dropped := rfl
@[simp] theorem statusAccepted_cause (st : Status) : (statusAccepted st).cause = .none := rfl

end Sys2Proof.Machine
end

