-- ==== Sys2Proof/Laws/Decoder.lean ====
section
/-! SUPPORT. The laws of the replay engine: what a byte write, a copy, a token and the replay loop do to the state
(43_decoder.md R150 to R157), and what they leave alone. -/

namespace Sys2Proof.Machine

/-! ### Byte writes as state operations -/

theorem readByte_writeBytes_of_mem (s : State) (a : Nat) (bs : List Byte) (i : Nat) (hi : i < bs.length)
    (hs : a + i < addressSpace) : readByte (writeBytes s a bs) (a + i) = bs[i] :=
  memRead_memWrite_of_mem s.mem a bs i hi hs

theorem readByte_writeBytes_of_not_mem (s : State) (a : Nat) (bs : List Byte) (x : Nat)
    (h : ¬(a ≤ x ∧ x < a + bs.length)) : readByte (writeBytes s a bs) x = readByte s x :=
  memRead_memWrite_of_not_mem s.mem a bs x h

/-! ### The copy (R154) -/

/-- A copy changes memory only. -/
theorem copyBytes_frame (n a d : Nat) (s : State) : copyBytes n a d s = { s with mem := (copyBytes n a d s).mem } := by
  induction n generalizing a s with
  | zero => rfl
  | succ n ih => rw [copyBytes]; exact ih (a + 1) (writeBytes s a [readByte s (a - d)])

/-- A copy leaves every byte outside its destination alone. -/
theorem readByte_copyBytes_of_not_mem (n a d : Nat) (s : State) (x : Nat) (h : ¬(a ≤ x ∧ x < a + n)) :
    readByte (copyBytes n a d s) x = readByte s x := by
  induction n generalizing a s with
  | zero => rfl
  | succ n ih =>
    rw [copyBytes, ih _ _ (by omega), readByte_writeBytes_of_not_mem _ _ _ _ (by simp; omega)]

/-- A copy leaves what is listed outside its destination alone. -/
theorem memGet_copyBytes_of_not_mem (n a d : Nat) (s : State) (x : Nat) (h : ¬(a ≤ x ∧ x < a + n)) :
    memGet (copyBytes n a d s).mem x = memGet s.mem x := by
  induction n generalizing a s with
  | zero => rfl
  | succ n ih =>
    rw [copyBytes, ih _ _ (by omega), writeBytes_mem, memGet_memWrite, if_neg (by simp; omega)]

/-- Each copied byte is the byte `d` before it in the result: earlier bytes of the same copy are seen (R154, R69). -/
theorem readByte_copyBytes (n a d : Nat) (s : State) (h1 : 1 ≤ d) (h2 : d ≤ a) (hs : a + n ≤ addressSpace) (j : Nat)
    (hj : j < n) : readByte (copyBytes n a d s) (a + j) = readByte (copyBytes n a d s) (a + j - d) := by
  induction n generalizing a s j with
  | zero => omega
  | succ n ih =>
    rw [copyBytes]
    cases j with
    | zero =>
      rw [readByte_copyBytes_of_not_mem _ _ _ _ _ (by omega), readByte_copyBytes_of_not_mem _ _ _ _ _ (by omega)]
      have hw := readByte_writeBytes_of_mem s a [readByte s (a - d)] 0 (by simp) (by omega)
      rw [hw, readByte_writeBytes_of_not_mem _ _ _ _ (by simp; omega)]
      rfl
    | succ j =>
      have := ih (a + 1) (writeBytes s a [readByte s (a - d)]) (by omega) (by omega) j (by omega)
      rwa [show a + (j + 1) = a + 1 + j by omega]

theorem memWf_copyBytes (n a d : Nat) (s : State) (h : memWf s.mem = true) : memWf (copyBytes n a d s).mem = true := by
  induction n generalizing a s with
  | zero => exact h
  | succ n ih => rw [copyBytes]; exact ih _ _ (memWf_memWrite h _ _)

/-! ### Tokens -/

/-- Everything a LIT that does not fault can do (R152). -/
theorem litToken_ok {b : Byte} {s t : State} (h : litToken b s = .ok t) :
    s.dec.rc.toNat + 1 ≤ s.dec.cl.toNat ∧ s.dec.wc.toNat + 1 ≤ s.dec.ol.toNat ∧
      t = { writeBytes s (outputAddr s s.dec.wc.toNat) [b] with
        dec := { s.dec with rc := s.dec.rc + 1, wc := s.dec.wc + 1, di := s.dec.di + 1 } } := by
  rw [litToken] at h
  split at h
  · cases h
  · split at h
    · cases h
    · cases h; exact ⟨by omega, by omega, rfl⟩

/-- Everything a MATCH that does not fault can do (R153). -/
theorem matchToken_ok {d : BitVec 16} {l : Byte} {s t : State} (h : matchToken d l s = .ok t) :
    s.dec.rc.toNat + Config.matchRecBytes ≤ s.dec.cl.toNat ∧ 1 ≤ d.toNat ∧ d.toNat ≤ s.dec.wc.toNat ∧
      s.dec.wc.toNat + l.toNat ≤ s.dec.ol.toNat ∧
      t = { copyBytes l.toNat (outputAddr s s.dec.wc.toNat) d.toNat s with
        dec := { s.dec with
          rc := s.dec.rc + BitVec.ofNat 64 Config.matchRecBytes, wc := s.dec.wc + l.setWidth 64, di := s.dec.di + 1 } } := by
  rw [matchToken] at h
  split at h
  · cases h
  · split at h
    · cases h
    · split at h
      · cases h
      · cases h; exact ⟨by omega, by omega, by omega, by omega, rfl⟩

/-- A token that does not fault changes memory and the decoder's registers only. Its registers: one decision more, the
header fields kept, no cursor moved back or past its header field. Its writes stay in `dst[wc, ol)` (R152, R153, R159). -/
structure TokenDone (s t : State) : Prop where
  frame : t = { s with mem := t.mem, dec := t.dec }
  ol_eq : t.dec.ol = s.dec.ol
  cl_eq : t.dec.cl = s.dec.cl
  fc_eq : t.dec.fc = s.dec.fc
  di_eq : t.dec.di = s.dec.di + 1
  rc_le : s.dec.rc.toNat ≤ t.dec.rc.toNat
  rc_bound : t.dec.rc.toNat ≤ s.dec.cl.toNat
  wc_le : s.dec.wc.toNat ≤ t.dec.wc.toNat
  wc_bound : t.dec.wc.toNat ≤ s.dec.ol.toNat
  wf : memWf s.mem = true → memWf t.mem = true
  get_outside : ∀ x, ¬(outputAddr s s.dec.wc.toNat ≤ x ∧ x < outputAddr s t.dec.wc.toNat) → memGet t.mem x = memGet s.mem x

theorem TokenDone.outside {s t : State} (h : TokenDone s t) (x : Nat)
    (hx : ¬(outputAddr s s.dec.wc.toNat ≤ x ∧ x < outputAddr s t.dec.wc.toNat)) : readByte t x = readByte s x := by
  rw [readByte, memRead, h.get_outside x hx]; rfl

/-- A cursor that stays within 64 bits advances without wrapping (D29, R24). -/
theorem cursor_add {c b : Word} {n : Nat} (h : c.toNat + n ≤ b.toNat) :
    (c + BitVec.ofNat 64 n).toNat = c.toNat + n := by
  have := b.isLt
  rw [BitVec.toNat_add, BitVec.toNat_ofNat]
  omega

theorem cursor_succ {c b : Word} (h : c.toNat + 1 ≤ b.toNat) : (c + 1).toNat = c.toNat + 1 := cursor_add h

/-- A cursor advances by a byte's value, widened (R9). -/
theorem cursor_add_byte {c b : Word} {l : Byte} (h : c.toNat + l.toNat ≤ b.toNat) :
    (c + l.setWidth 64).toNat = c.toNat + l.toNat := by
  rw [show l.setWidth 64 = BitVec.ofNat 64 l.toNat from BitVec.eq_of_toNat_eq (by simp)]
  exact cursor_add h

theorem litToken_done {b : Byte} {s t : State} (h : litToken b s = .ok t) : TokenDone s t := by
  obtain ⟨h1, h2, rfl⟩ := litToken_ok h
  have hr := cursor_succ h1
  have hw := cursor_succ h2
  refine ⟨rfl, rfl, rfl, rfl, rfl, by simp only; omega, by simp only; omega, by simp only; omega, by simp only; omega,
    fun hm => memWf_memWrite hm _ _, fun x hx => ?_⟩
  simp only [hw] at hx
  rw [writeBytes_mem, memGet_memWrite, if_neg (by simp [outputAddr] at hx ⊢; omega)]

theorem matchToken_done {d : BitVec 16} {l : Byte} {s t : State} (h : matchToken d l s = .ok t) : TokenDone s t := by
  obtain ⟨h1, h2, h3, h4, rfl⟩ := matchToken_ok h
  have hr := cursor_add h1
  have hw := cursor_add_byte h4
  refine ⟨?_, rfl, rfl, rfl, rfl, by simp only; omega, by simp only; omega, by simp only; omega, by simp only; omega,
    fun hm => memWf_copyBytes _ _ _ _ hm, fun x hx => ?_⟩
  · rw [copyBytes_frame]
  · simp only [hw] at hx
    exact memGet_copyBytes_of_not_mem _ _ _ _ x (by simp [outputAddr] at hx ⊢; omega)

theorem runToken_done {i : Instr} {s t : State} (hi : tokenDecision i ≠ none) (h : runToken i s = .ok t) :
    TokenDone s t := by
  cases i with
  | compress => exact absurd rfl hi
  | decompress => exact absurd rfl hi
  | findMatch => exact absurd rfl hi
  | lit b => exact litToken_done h
  | matchRecord d l => exact matchToken_done h

/-- A decision bit decodes to a token of its kind, never to a command (R90). -/
theorem decodeToken_isToken {b : Bool} {c rest : List Byte} {i : Instr} (h : decodeToken b c = .ok (i, rest)) :
    tokenDecision i = some b := by
  match b, c with
  | false, [] => cases h
  | false, _ :: _ => cases h; rfl
  | true, [] => cases h
  | true, [_] => cases h
  | true, [_, _] => cases h
  | true, _ :: _ :: _ :: _ => cases h; rfl

theorem fetchToken_isToken {s : State} {i : Instr} (h : fetchToken s = .ok i) :
    tokenDecision i = some (decision s s.dec.di.toNat) := by
  rw [fetchToken] at h
  split at h
  · rename_i j rest hd
    cases h
    exact decodeToken_isToken hd
  · cases h

theorem replayToken_done {s t : State} (h : replayToken s = .ok t) : TokenDone s t := by
  rw [replayToken] at h
  split at h
  · rename_i i hi
    exact runToken_done (by rw [fetchToken_isToken hi]; simp) h
  · cases h

/-! ### The replay loop -/

/-- What the replay loop can do without a fault, whatever the blob: memory and cursors only, its writes inside
`dst[wc, ol)` (R159, R249). -/
structure ReplayDone (s t : State) : Prop where
  frame : t = { s with mem := t.mem, dec := t.dec }
  ol_eq : t.dec.ol = s.dec.ol
  cl_eq : t.dec.cl = s.dec.cl
  fc_eq : t.dec.fc = s.dec.fc
  wf : memWf s.mem = true → memWf t.mem = true
  outside : ∀ x, ¬(s.latched.dstAddr.toNat ≤ x ∧ x < s.latched.dstAddr.toNat + s.dec.ol.toNat) →
    readByte t x = readByte s x

theorem replay_done {n : Nat} {s t : State} (h : replay n s = .ok t) :
    ReplayDone s t ∧ t.dec.di = s.dec.di + BitVec.ofNat 64 n ∧ t.dec.wc = t.dec.ol ∧ t.dec.rc = t.dec.cl := by
  induction n generalizing s with
  | zero =>
    rw [replay, endOfReplay] at h
    split at h
    · cases h
    · split at h
      · cases h
      · cases h
        exact ⟨⟨rfl, rfl, rfl, rfl, id, fun _ _ => rfl⟩, by simp, by simp_all, by simp_all⟩
  | succ n ih =>
    rw [replay] at h
    split at h
    · rename_i u hu
      have h1 := replayToken_done hu
      obtain ⟨h2, h3, h4, h5⟩ := ih h
      have hl : u.latched = s.latched := by rw [h1.frame]
      refine ⟨⟨?_, h2.ol_eq.trans h1.ol_eq, h2.cl_eq.trans h1.cl_eq, h2.fc_eq.trans h1.fc_eq, fun hm => h2.wf (h1.wf hm),
        fun x hx => ?_⟩, by
          rw [h3, h1.di_eq, BitVec.add_assoc, Nat.add_comm n 1, BitVec.ofNat_add]; rfl, h4, h5⟩
      · conv_lhs => rw [h2.frame, h1.frame]
      · rw [h2.outside x (by rw [hl, h1.ol_eq]; exact hx)]
        refine h1.outside x (fun hc => hx ?_)
        have := h1.wc_bound
        simp only [outputAddr] at hc
        omega
    · cases h

/-- The causes a replay can fault with (R203, checks 8 to 10). -/
theorem replay_error {n : Nat} {s : State} {c : Cause} (h : replay n s = .error c) :
    c = .contentOverrun ∨ c = .badDisplacement ∨ c = .outputOverrun ∨ c = .lengthMismatch ∨ c = .contentLeftover := by
  induction n generalizing s with
  | zero =>
    rw [replay, endOfReplay] at h
    split at h
    · cases h; simp
    · split at h
      · cases h; simp
      · cases h
  | succ n ih =>
    rw [replay] at h
    split at h
    · exact ih h
    · rename_i e he
      cases h
      rw [replayToken] at he
      split at he
      · rename_i i hi
        have ht := fetchToken_isToken hi
        cases i with
        | compress => cases ht
        | decompress => cases ht
        | findMatch => cases ht
        | lit b =>
          rw [runToken, litToken] at he
          split at he
          · cases he; simp
          · split at he
            · cases he; simp
            · cases he
        | matchRecord d l =>
          rw [runToken, matchToken] at he
          split at he
          · cases he; simp
          · split at he
            · cases he; simp
            · split at he
              · cases he; simp
              · cases he
      · cases he; simp

/-! ### The tokens against the token stream -/

/-- The output region of `s` begins with the bytes `out`. -/
def HoldsOutput (s : State) (out : List Byte) : Prop :=
  ∀ i, i < out.length → readByte s (outputAddr s i) = out.getD i 0

theorem expandCopy_length (n d : Nat) (out : List Byte) : (expandCopy n d out).length = out.length + n := by
  induction n generalizing out with
  | zero => rfl
  | succ n ih => rw [expandCopy, ih]; simp; omega

/-- The copy of a MATCH writes what the token stream's expansion appends (R154). -/
theorem copyBytes_holds (n d : Nat) (out : List Byte) (s : State) (h1 : 1 ≤ d) (h2 : d ≤ out.length)
    (hs : s.latched.dstAddr.toNat + out.length + n ≤ addressSpace) (h : HoldsOutput s out) :
    HoldsOutput (copyBytes n (outputAddr s out.length) d s) (expandCopy n d out) := by
  induction n generalizing out s with
  | zero => exact h
  | succ n ih =>
    rw [copyBytes, expandCopy]
    have hsrc : readByte s (outputAddr s out.length - d) = out.getD (out.length - d) 0 := by
      rw [← h (out.length - d) (by omega)]
      congr 1
      simp only [outputAddr]; omega
    have hlen : (out ++ [out.getD (out.length - d) 0]).length = out.length + 1 := by simp
    have hw : HoldsOutput (writeBytes s (outputAddr s out.length) [readByte s (outputAddr s out.length - d)])
        (out ++ [out.getD (out.length - d) 0]) := by
      intro i hi
      rw [hlen] at hi
      show readByte _ (outputAddr s i) = _
      rcases Nat.lt_or_ge i out.length with hi' | hi'
      · rw [readByte_writeBytes_of_not_mem _ _ _ _ (by simp [outputAddr]; omega), h i hi']
        simp [List.getD_eq_getElem?_getD, hi', List.getElem?_append]
      · obtain rfl : i = out.length := by omega
        have := readByte_writeBytes_of_mem s (outputAddr s out.length) [readByte s (outputAddr s out.length - d)] 0
          (by simp) (by simp only [outputAddr]; omega)
        rw [Nat.add_zero] at this
        rw [this, List.getElem_cons_zero, hsrc]
        simp [List.getD_eq_getElem?_getD]
    have := ih (out ++ [out.getD (out.length - d) 0])
      (writeBytes s (outputAddr s out.length) [readByte s (outputAddr s out.length - d)]) (by omega)
      (by show s.latched.dstAddr.toNat + _ + n ≤ _; omega) hw
    rw [hlen] at this
    exact this

end Sys2Proof.Machine
end

