-- ==== Sys2Proof/Laws/Finder.lean ====
section
/-! SUPPORT. The laws of the match finder (40_match_finder.md R100 to R103): what the inner loop counts, and what the
best pair is after the candidates tried so far. -/

namespace Sys2Proof.Machine

/-! ### The inner loop -/

theorem matchLen_le (B : Nat → Byte) (n i j : Nat) : matchLen B n i j ≤ n := by
  induction n generalizing i j with
  | zero => simp [matchLen]
  | succ n ih =>
    rw [matchLen]
    split
    · have := ih (i + 1) (j + 1); omega
    · omega

/-- The counted bytes agree. -/
theorem matchLen_agree (B : Nat → Byte) (n i j k : Nat) (hk : k < matchLen B n i j) : B (i + k) = B (j + k) := by
  induction n generalizing i j k with
  | zero => simp [matchLen] at hk
  | succ n ih =>
    rw [matchLen] at hk
    split at hk
    · cases k with
      | zero => assumption
      | succ k =>
        have := ih (i + 1) (j + 1) k (by omega)
        rwa [show i + (k + 1) = i + 1 + k by omega, show j + (k + 1) = j + 1 + k by omega]
    · omega

/-- The count stops at the bound or at the first bytes that differ. -/
theorem matchLen_stop (B : Nat → Byte) (n i j : Nat) (h : matchLen B n i j < n) :
    B (i + matchLen B n i j) ≠ B (j + matchLen B n i j) := by
  induction n generalizing i j with
  | zero => simp at h
  | succ n ih =>
    by_cases hb : B i = B j
    · rw [matchLen, if_pos hb] at h ⊢
      have := ih (i + 1) (j + 1) (by omega)
      rwa [show i + (matchLen B n (i + 1) (j + 1) + 1) = i + 1 + matchLen B n (i + 1) (j + 1) by omega,
        show j + (matchLen B n (i + 1) (j + 1) + 1) = j + 1 + matchLen B n (i + 1) (j + 1) by omega]
    · rw [matchLen, if_neg hb]; exact hb

/-- The count depends only on the bytes it compares (R105). -/
theorem matchLen_congr (B B' : Nat → Byte) (n i j : Nat) (h : ∀ x, min i j ≤ x → x < max i j + n → B x = B' x) :
    matchLen B n i j = matchLen B' n i j := by
  induction n generalizing i j with
  | zero => rfl
  | succ n ih =>
    rw [matchLen, matchLen, h i (by omega) (by omega), h j (by omega) (by omega),
      ih (i + 1) (j + 1) (fun x h1 h2 => h x (by omega) (by omega))]

/-! ### The candidates -/

theorem finderLoop_succ (B : Nat → Byte) (n : Nat) (f : FinderRegs) :
    finderLoop B (n + 1) f = finderCandidate B (finderLoop B n f) := by
  induction n generalizing f with
  | zero => rfl
  | succ n ih => rw [finderLoop, ih]; rfl

/-- What the finder knows after the candidates `1 .. m` of the query `(p, wl, maxlen)`: the greatest agreement so far and
the nearest displacement that reaches it (R101), with (0, 0) when nothing agrees (R103). -/
structure FinderBest (B : Nat → Byte) (p : Word) (wl : BitVec 16) (maxlen : Byte) (m : Nat) (f : FinderRegs) : Prop where
  p_eq : f.p = p
  wl_eq : f.wl = wl
  maxlen_eq : f.maxlen = maxlen
  d_eq : f.d.toNat = m
  k_le : f.k.toNat ≤ maxlen.toNat
  bestL_le : f.bestL.toNat ≤ maxlen.toNat
  none_iff : f.bestL = 0 ↔ f.bestD = 0
  bestD_le : f.bestD.toNat ≤ m
  longest : ∀ d, 1 ≤ d → d ≤ m → matchLen B maxlen.toNat (p.toNat - d) p.toNat ≤ f.bestL.toNat
  reached : 0 < f.bestL.toNat → matchLen B maxlen.toNat (p.toNat - f.bestD.toNat) p.toNat = f.bestL.toNat
  nearest : ∀ d, 1 ≤ d → d < f.bestD.toNat → matchLen B maxlen.toNat (p.toNat - d) p.toNat < f.bestL.toNat

theorem finderStart_best (B : Nat → Byte) (p : Word) (wl : BitVec 16) (maxlen : Byte) :
    FinderBest B p wl maxlen 0 (finderStart p wl maxlen) where
  p_eq := rfl
  wl_eq := rfl
  maxlen_eq := rfl
  d_eq := rfl
  k_le := Nat.zero_le _
  bestL_le := Nat.zero_le _
  none_iff := by simp [finderStart]
  bestD_le := Nat.le_refl 0
  longest d h1 h2 := by omega
  reached h := by simp [finderStart] at h
  nearest d h1 h2 := by simp [finderStart] at h2

/-- An agreement fits the 8 bits of the prefix counter (R23). -/
theorem toNat_ofNat_matchLen (B : Nat → Byte) (maxlen : Byte) (i j : Nat) :
    (BitVec.ofNat 8 (matchLen B maxlen.toNat i j)).toNat = matchLen B maxlen.toNat i j := by
  have := matchLen_le B maxlen.toNat i j
  have := maxlen.isLt
  rw [BitVec.toNat_ofNat]
  omega

theorem eq_zero_iff_toNat {w : Nat} (x : BitVec w) : x = 0 ↔ x.toNat = 0 := by
  rw [BitVec.toNat_eq]; simp

/-- One candidate keeps the description of the best pair; candidates are 16 bits wide. -/
theorem FinderBest.candidate {B : Nat → Byte} {p : Word} {wl : BitVec 16} {maxlen : Byte} {m : Nat} {f : FinderRegs}
    (h : FinderBest B p wl maxlen m f) (hm : m + 1 < 2 ^ 16) :
    FinderBest B p wl maxlen (m + 1) (finderCandidate B f) := by
  have hd : (f.d + 1).toNat = m + 1 := by
    rw [BitVec.toNat_add, h.d_eq]
    exact Nat.mod_eq_of_lt hm
  have hk : (BitVec.ofNat 8 (matchLen B f.maxlen.toNat (f.p.toNat - (f.d + 1).toNat) f.p.toNat)).toNat =
      matchLen B maxlen.toNat (p.toNat - (m + 1)) p.toNat := by
    rw [toNat_ofNat_matchLen, h.p_eq, h.maxlen_eq, hd]
  have hle := matchLen_le B maxlen.toNat (p.toNat - (m + 1)) p.toNat
  rw [finderCandidate]
  generalize BitVec.ofNat 8 (matchLen B f.maxlen.toNat (f.p.toNat - (f.d + 1).toNat) f.p.toNat) = k at hk ⊢
  split
  · rename_i hlt
    refine ⟨h.p_eq, h.wl_eq, h.maxlen_eq, hd, by rw [hk]; exact hle, by rw [hk]; exact hle, ?_, by rw [hd], ?_, ?_, ?_⟩ <;> dsimp only
    · rw [eq_zero_iff_toNat, eq_zero_iff_toNat, hd, hk]; omega
    · intro d h1 h2
      rw [hk] at hlt ⊢
      rcases Nat.lt_or_eq_of_le h2 with h3 | h3
      · exact Nat.le_of_lt (Nat.lt_of_le_of_lt (h.longest d h1 (by omega)) hlt)
      · rw [h3]
    · intro _; rw [hd, hk]
    · intro d h1 h2
      rw [hd] at h2
      rw [hk] at hlt ⊢
      exact Nat.lt_of_le_of_lt (h.longest d h1 (by omega)) hlt
  · rename_i hlt
    rw [hk] at hlt
    refine ⟨h.p_eq, h.wl_eq, h.maxlen_eq, hd, by rw [hk]; exact hle, h.bestL_le, h.none_iff, ?_, ?_, h.reached, h.nearest⟩
    · have := h.bestD_le; simp only; omega
    · intro d h1 h2
      rcases Nat.lt_or_eq_of_le h2 with h3 | h3
      · exact h.longest d h1 (by omega)
      · rw [h3]; simp only; omega

theorem finderLoop_best (B : Nat → Byte) (p : Word) (wl : BitVec 16) (maxlen : Byte) (m : Nat) (hm : m < 2 ^ 16) :
    FinderBest B p wl maxlen m (finderLoop B m (finderStart p wl maxlen)) := by
  induction m with
  | zero => exact finderStart_best B p wl maxlen
  | succ m ih => rw [finderLoop_succ]; exact (ih (by omega)).candidate hm

/-- Everything `FindLongestMatch` answers (R100 to R103). -/
theorem findLongestMatch_best (B : Nat → Byte) (p : Word) (wl : BitVec 16) (maxlen : Byte) :
    FinderBest B p wl maxlen wl.toNat (findLongestMatch B p wl maxlen) :=
  finderLoop_best B p wl maxlen wl.toNat wl.isLt

/-- A match the finder returns repeats the bytes `bestD` back (R100). -/
theorem findLongestMatch_agree (B : Nat → Byte) (p : Word) (wl : BitVec 16) (maxlen : Byte) (k : Nat)
    (hk : k < (findLongestMatch B p wl maxlen).bestL.toNat) :
    B (p.toNat - (findLongestMatch B p wl maxlen).bestD.toNat + k) = B (p.toNat + k) := by
  have h := findLongestMatch_best B p wl maxlen
  exact matchLen_agree B maxlen.toNat _ _ k (by rw [h.reached (by omega)]; exact hk)

theorem finderCandidate_congr (B B' : Nat → Byte) (f : FinderRegs)
    (h : ∀ x, f.p.toNat - (f.d + 1).toNat ≤ x → x < f.p.toNat + f.maxlen.toNat → B x = B' x) :
    finderCandidate B f = finderCandidate B' f := by
  rw [finderCandidate, finderCandidate, matchLen_congr B B' f.maxlen.toNat (f.p.toNat - (f.d + 1).toNat) f.p.toNat
    (fun x h1 h2 => h x (by omega) (by omega))]

/-- The result depends only on the bytes in `[p - wl, p + maxlen)` (R105). -/
theorem findLongestMatch_congr (B B' : Nat → Byte) (p : Word) (wl : BitVec 16) (maxlen : Byte)
    (h : ∀ x, p.toNat - wl.toNat ≤ x → x < p.toNat + maxlen.toNat → B x = B' x) :
    findLongestMatch B p wl maxlen = findLongestMatch B' p wl maxlen := by
  suffices ∀ m, m ≤ wl.toNat → finderLoop B m (finderStart p wl maxlen) = finderLoop B' m (finderStart p wl maxlen) from
    this wl.toNat (Nat.le_refl _)
  intro m hm
  induction m with
  | zero => rfl
  | succ m ih =>
    have hw := wl.isLt
    have hb := finderLoop_best B' p wl maxlen m (by omega)
    rw [finderLoop_succ, finderLoop_succ, ih (by omega)]
    refine finderCandidate_congr B B' _ (fun x h1 h2 => h x ?_ ?_)
    · rw [hb.p_eq, BitVec.toNat_add, hb.d_eq, show (1 : BitVec 16).toNat = 1 from rfl, Nat.mod_eq_of_lt (by omega)] at h1
      omega
    · rw [hb.p_eq, hb.maxlen_eq] at h2; exact h2

/-! ### The clamped operands of a query (R37, R104, R131) -/

@[simp] theorem toNat_clampWindow (n : Nat) : (clampWindow n).toNat = min n Config.window := by
  rw [clampWindow, BitVec.toNat_ofNat]
  have h : Config.window = 65535 := rfl
  omega

@[simp] theorem toNat_clampMaxlen (n : Nat) : (clampMaxlen n).toNat = min Config.maxMatch n := by
  rw [clampMaxlen, BitVec.toNat_ofNat]
  have h : Config.maxMatch = 255 := rfl
  omega

@[simp] theorem toNat_findWindow (l : Latched) :
    (findWindow l).toNat = min (min l.windowLimit.toNat l.position.toNat) Config.window := toNat_clampWindow _

@[simp] theorem toNat_findMaxlen (l : Latched) :
    (findMaxlen l).toNat = min Config.maxMatch (l.srcLen.toNat - l.position.toNat) := toNat_clampMaxlen _

/-! ### FIND_MATCH's iterations -/

/-- FIND_MATCH's iterations run the finder's candidates and touch nothing else. -/
theorem findLoop_eq (n : Nat) (s : State) :
    findLoop n s = { s with finder := finderLoop (sourceByte s) n s.finder } := by
  induction n generalizing s with
  | zero => rfl
  | succ n ih => rw [findLoop, ih]; rfl

/-- After all its candidates FIND_MATCH holds the finder's answer (R104). -/
theorem findLoop_findBegin (s : State) :
    findLoop (findWindow s.latched).toNat (findBegin s) =
      { s with
        finder := findLongestMatch (sourceByte s) s.latched.position (findWindow s.latched) (findMaxlen s.latched)
        inLoop := true } := by
  rw [findLoop_eq]; rfl

end Sys2Proof.Machine
end

