-- ==== Sys2Proof/Laws/Encoder.lean ====
section
/-! SUPPORT. The laws of the packer (41_decision_stream.md R121, R123), of one encoder iteration (42_encoder.md R130 to
R133), of the encoder's loop against the token stream it emits, and of the blob (44_container.md R171, R176). -/

namespace Sys2Proof.Machine

/-! ### The packer -/

theorem orAt_getElem? (l : List Byte) (i j : Nat) (v : Byte) :
    (orAt l i v)[j]? = if j = i then l[j]?.map (· ||| v) else l[j]? := by
  induction l generalizing i j with
  | nil => simp [orAt]
  | cons b l ih =>
    cases i with
    | zero => cases j <;> simp [orAt]
    | succ i => cases j <;> simp [orAt, ih]

theorem packByte_snoc (c : List Bool) (b : Bool) (h : c.length < 8) :
    packByte (c ++ [b]) = packByte c ||| ((BitVec.ofBool b).setWidth 8 <<< (7 - c.length)) := by
  apply BitVec.eq_of_getLsbD_eq
  intro k hk
  obtain ⟨m, hm, rfl⟩ : ∃ m, m < 8 ∧ k = 7 - m := ⟨7 - k, by omega, by omega⟩
  rw [packByte_getLsbD _ _ hm, BitVec.getLsbD_or, packByte_getLsbD _ _ hm, BitVec.getLsbD_shiftLeft]
  rcases Nat.lt_trichotomy m c.length with h1 | h1 | h1
  · simp [List.getD_eq_getElem?_getD, List.getElem?_append, h1]
    intro h2; omega
  · subst h1
    simp [List.getD_eq_getElem?_getD]
    omega
  · have h2 : ¬ m < c.length := by omega
    have h3 : 7 - m < 7 - c.length := by omega
    have h4 : m - c.length ≠ 0 := by omega
    simp [List.getD_eq_getElem?_getD, List.getElem?_append, h2, h3, h4]

/-- One `write_bit` takes FBUF from the packed decisions to the packed decisions with one more (R121, R123). -/
theorem writeBit_packFlags (b : Bool) (e : EncRegs) (hw : e.wbit.toNat = e.flags.length) (hf : e.fbuf = packFlags e.flags) :
    (writeBit b e).fbuf = packFlags (e.flags ++ [b]) := by
  have hq : ∀ j, (if e.wbit.toNat % 8 = 0 then e.fbuf ++ [0#8] else e.fbuf)[j]? =
      if j ≤ e.flags.length / 8 then some (packByte ((e.flags.drop (8 * j)).take 8)) else none := by
    intro j
    rw [hw, hf]
    by_cases h0 : e.flags.length % 8 = 0
    · rw [if_pos h0, List.getElem?_append, packFlags_length, packFlags_getElem?]
      have hc : ceil8 e.flags.length = e.flags.length / 8 := by unfold ceil8; omega
      rw [hc]
      rcases Nat.lt_trichotomy j (e.flags.length / 8) with h | h | h
      · rw [if_pos h, if_pos h, if_pos (by omega)]
      · subst h
        rw [if_neg (by omega), if_pos (by omega), List.drop_eq_nil_of_le (by omega)]
        simp [packByte_nil]
      · rw [if_neg (by omega), if_neg (by omega), List.getElem?_eq_none (by simp; omega)]
    · rw [if_neg h0, packFlags_getElem?]
      have hc : ceil8 e.flags.length = e.flags.length / 8 + 1 := by unfold ceil8; omega
      rw [hc]
      by_cases h : j ≤ e.flags.length / 8
      · rw [if_pos h, if_pos (by omega)]
      · rw [if_neg h, if_neg (by omega)]
  apply List.ext_getElem?
  intro j
  rw [show (writeBit b e).fbuf = orAt (if e.wbit.toNat % 8 = 0 then e.fbuf ++ [0#8] else e.fbuf) (e.wbit.toNat / 8)
    ((BitVec.ofBool b).setWidth 8 <<< (7 - e.wbit.toNat % 8)) from rfl, orAt_getElem?, hq, packFlags_getElem?, hw]
  have hc : ceil8 (e.flags ++ [b]).length = e.flags.length / 8 + 1 := by
    unfold ceil8; simp; omega
  rw [hc]
  rcases Nat.lt_trichotomy j (e.flags.length / 8) with h | h | h
  · rw [if_neg (by omega), if_pos (by omega), if_pos (by omega), List.drop_append_of_le_length (by omega),
      List.take_append_of_le_length (by simp; omega)]
  · subst h
    rw [if_pos rfl, if_pos (Nat.le_refl _), if_pos (by omega), Option.map_some, List.drop_append_of_le_length (by omega)]
    have hl : (e.flags.drop (8 * (e.flags.length / 8))).length = e.flags.length % 8 := by simp; omega
    rw [List.take_of_length_le (by omega), List.take_of_length_le (by simp; omega), packByte_snoc _ _ (by omega), hl]
  · rw [if_neg (by omega), if_neg (by omega), if_neg (by omega)]

/-! ### What the registers hold -/

/-- The encoder's registers after the tokens `ts`, at input position `pos` (R21, R121, R130). -/
def encRegsAfter (ts : List Instr) (pos : Nat) : EncRegs where
  pos := BitVec.ofNat 64 pos
  wcur := BitVec.ofNat 64 (streamContent ts).length
  dcount := BitVec.ofNat 64 (streamFlags ts).length
  flags := streamFlags ts
  content := streamContent ts
  wbit := BitVec.ofNat 64 (streamFlags ts).length
  fbuf := packFlags (streamFlags ts)

@[simp] theorem streamFlags_append (ts us : List Instr) : streamFlags (ts ++ us) = streamFlags ts ++ streamFlags us := by
  simp [streamFlags]

@[simp] theorem streamContent_append (ts us : List Instr) :
    streamContent (ts ++ us) = streamContent ts ++ streamContent us := by
  simp [streamContent]

theorem encRegsAfter_nil : encRegsAfter [] 0 = EncRegs.zero := rfl

/-- Emitting a token appends it (R130, R132, R133). -/
theorem emitToken_after (t : Instr) (b : Bool) (ht : tokenDecision t = some b) (ts : List Instr) (pos n : Nat)
    (hl : (streamFlags ts).length < 2 ^ 64) :
    emitToken b (tokenContent t) n (encRegsAfter ts pos) = encRegsAfter (ts ++ [t]) (pos + n) := by
  have hf : streamFlags (ts ++ [t]) = streamFlags ts ++ [b] := by simp [streamFlags, ht]
  have hc : streamContent (ts ++ [t]) = streamContent ts ++ tokenContent t := by simp [streamContent]
  have hw := writeBit_packFlags b (encRegsAfter ts pos) (Nat.mod_eq_of_lt hl) rfl
  rw [show (encRegsAfter ts pos).flags = streamFlags ts from rfl, ← hf] at hw
  rw [hf] at hw
  have he : emitToken b (tokenContent t) n (encRegsAfter ts pos) =
      { encRegsAfter (ts ++ [t]) (pos + n) with fbuf := (writeBit b (encRegsAfter ts pos)).fbuf } := by
    simp only [emitToken, hf, hc, encRegsAfter, List.length_append, List.length_cons, List.length_nil, writeBit,
      Nat.zero_add, BitVec.ofNat_add]
    rfl
  rw [he, hw, ← hf]; rfl

/-- A literal run appends its literals (R132). -/
theorem literalRun_after (B : Nat → Byte) (r : Nat) (ts : List Instr) (pos : Nat) (hl : (streamFlags ts).length ≤ pos)
    (hp : pos + r < 2 ^ 64) :
    literalRun B r (encRegsAfter ts pos) =
      encRegsAfter (ts ++ (List.range r).map (fun i => Instr.lit (B (pos + i)))) (pos + r) := by
  induction r generalizing ts pos with
  | zero => simp [literalRun]
  | succ r ih =>
    have hpos : (encRegsAfter ts pos).pos.toNat = pos := Nat.mod_eq_of_lt (by omega)
    rw [literalRun, hpos, show emitToken false [B pos] 1 (encRegsAfter ts pos)
      = encRegsAfter (ts ++ [.lit (B pos)]) (pos + 1) from emitToken_after (.lit (B pos)) false rfl ts pos 1 (by omega),
      ih _ _ (by rw [streamFlags_append, List.length_append]; exact Nat.add_le_add_right hl 1) (by omega),
      List.range_succ_eq_map]
    simp [Nat.add_assoc, Nat.add_comm 1, Function.comp_def]

/-- The tokens of one iteration, given its query's result (R132, R133). -/
def iterationTokens (B : Nat → Byte) (pos : Nat) (f : FinderRegs) : List Instr :=
  if f.bestL.toNat < Config.minMatch then (List.range (max 1 f.bestL.toNat)).map (fun i => Instr.lit (B (pos + i)))
  else [.matchRecord f.bestD f.bestL]

/-- How far one iteration advances the position (R24). -/
def iterationAdvance (f : FinderRegs) : Nat :=
  if f.bestL.toNat < Config.minMatch then max 1 f.bestL.toNat else f.bestL.toNat

theorem encodeEmit_after (B : Nat → Byte) (f : FinderRegs) (ts : List Instr) (pos : Nat)
    (hl : (streamFlags ts).length ≤ pos) (hp : pos + iterationAdvance f < 2 ^ 64) :
    encodeEmit B f (encRegsAfter ts pos) =
      encRegsAfter (ts ++ iterationTokens B pos f) (pos + iterationAdvance f) := by
  rw [iterationAdvance] at hp
  rw [encodeEmit, iterationTokens, iterationAdvance]
  split
  · rename_i h
    exact literalRun_after B _ ts pos hl (by rwa [if_pos h] at hp)
  · exact emitToken_after (.matchRecord f.bestD f.bestL) true rfl ts pos f.bestL.toNat (by omega)

theorem encodeTokens_succ (B : Nat → Byte) (n fuel pos : Nat) (h : pos < n) :
    encodeTokens B n (fuel + 1) pos =
      iterationTokens B pos (queryAt B n pos) ++ encodeTokens B n fuel (pos + iterationAdvance (queryAt B n pos)) := by
  rw [encodeTokens, if_pos h, iterationTokens, iterationAdvance]
  simp only
  split <;> rfl

theorem encodeTokens_done (B : Nat → Byte) (n fuel pos : Nat) (h : n ≤ pos) : encodeTokens B n fuel pos = [] := by
  cases fuel with
  | zero => rfl
  | succ fuel => rw [encodeTokens, if_neg (by omega)]

/-- Everything the query at `pos` answers (R100 to R103, R131). -/
theorem queryAt_best (B : Nat → Byte) (n pos : Nat) :
    FinderBest B (BitVec.ofNat 64 pos) (clampWindow pos) (clampMaxlen (n - pos)) (clampWindow pos).toNat
      (queryAt B n pos) :=
  findLongestMatch_best _ _ _ _

/-- An iteration advances by at least 1 and never past the input (R132, R133, R139). -/
theorem iterationAdvance_bounds (B : Nat → Byte) (n pos : Nat) (h : pos < n) :
    1 ≤ iterationAdvance (queryAt B n pos) ∧ pos + iterationAdvance (queryAt B n pos) ≤ n := by
  have hb := (queryAt_best B n pos).bestL_le
  rw [toNat_clampMaxlen] at hb
  have h3 : Config.minMatch = 3 := rfl
  rw [iterationAdvance]
  split <;> omega

/-- A match an iteration emits is canonical (R133, R87). -/
theorem queryAt_canonical (B : Nat → Byte) (n pos : Nat) (h : ¬(queryAt B n pos).bestL.toNat < Config.minMatch) :
    1 ≤ (queryAt B n pos).bestD.toNat ∧ (queryAt B n pos).bestD.toNat ≤ min pos Config.window ∧
      Config.minMatch ≤ (queryAt B n pos).bestL.toNat ∧ (queryAt B n pos).bestL.toNat ≤ min Config.maxMatch (n - pos) := by
  have hb := queryAt_best B n pos
  have h0 : (queryAt B n pos).bestD ≠ 0 := fun h0 => h (by
    rw [show (queryAt B n pos).bestL = 0 from hb.none_iff.2 h0]; decide)
  rw [ne_eq, eq_zero_iff_toNat] at h0
  exact ⟨by omega, toNat_clampWindow pos ▸ hb.bestD_le, by omega, toNat_clampMaxlen (n - pos) ▸ hb.bestL_le⟩

/-- A token stream takes at most one decision and one content byte per input byte consumed (R137). -/
theorem iterationTokens_length (B : Nat → Byte) (n pos : Nat) :
    (streamFlags (iterationTokens B pos (queryAt B n pos))).length ≤ iterationAdvance (queryAt B n pos) ∧
      (streamContent (iterationTokens B pos (queryAt B n pos))).length ≤ iterationAdvance (queryAt B n pos) := by
  have hl : ∀ r, streamFlags ((List.range r).map (fun i => Instr.lit (B (pos + i)))) = List.replicate r false := by
    intro r
    induction r with
    | zero => rfl
    | succ r ih => rw [List.range_succ, List.map_append, streamFlags_append, ih, List.replicate_succ']; rfl
  have hc : ∀ r, (streamContent ((List.range r).map (fun i => Instr.lit (B (pos + i))))).length = r := by
    intro r
    induction r with
    | zero => rfl
    | succ r ih => rw [List.range_succ, List.map_append, streamContent_append, List.length_append, ih]; rfl
  rw [iterationTokens, iterationAdvance]
  split
  · rw [hl, hc]; simp
  · rename_i h
    have h3 : Config.minMatch = 3 := rfl
    simp only [streamFlags, streamContent, List.filterMap, tokenDecision, List.flatMap_cons, List.flatMap_nil, tokenContent,
      List.length_append, le16_length, List.length_cons, List.length_nil]
    omega

/-- R137: `|flags| ≤ n - pos` and `|content| ≤ n - pos`. -/
theorem encodeTokens_length (B : Nat → Byte) (n fuel pos : Nat) (h : pos ≤ n) :
    (streamFlags (encodeTokens B n fuel pos)).length ≤ n - pos ∧
      (streamContent (encodeTokens B n fuel pos)).length ≤ n - pos := by
  induction fuel generalizing pos with
  | zero => simp [encodeTokens, streamFlags, streamContent]
  | succ fuel ih =>
    rcases Nat.lt_or_ge pos n with hp | hp
    · have ha := iterationAdvance_bounds B n pos hp
      have hi := iterationTokens_length B n pos
      have := ih _ ha.2
      rw [encodeTokens_succ _ _ _ _ hp, streamFlags_append, streamContent_append, List.length_append, List.length_append]
      omega
    · rw [encodeTokens_done _ _ _ _ hp]; simp [streamFlags, streamContent]

/-! ### COMPRESS's loop -/

theorem sourceByte_compressIteration (s : State) : sourceByte (compressIteration s) = sourceByte s := rfl

/-- The machine's query is the one at its position (R131). -/
theorem encodeQuery_eq (B : Nat → Byte) (n : Nat) (e : EncRegs) : encodeQuery B n e = queryAt B n e.pos.toNat := by
  rw [encodeQuery, queryAt, BitVec.ofNat_toNat, BitVec.setWidth_eq]

/-- What an iteration of COMPRESS does: its registers hold the tokens of the iteration besides (R130). -/
theorem compressIteration_enc (s : State) (ts : List Instr) (pos : Nat) (h : s.enc = encRegsAfter ts pos)
    (hl : (streamFlags ts).length ≤ pos) (hp : pos < s.latched.srcLen.toNat) :
    (compressIteration s).enc =
      encRegsAfter (ts ++ iterationTokens (sourceByte s) pos (queryAt (sourceByte s) s.latched.srcLen.toNat pos))
        (pos + iterationAdvance (queryAt (sourceByte s) s.latched.srcLen.toNat pos)) := by
  have hn := s.latched.srcLen.isLt
  have hb := iterationAdvance_bounds (sourceByte s) s.latched.srcLen.toNat pos hp
  have hpos : (encRegsAfter ts pos).pos.toNat = pos := Nat.mod_eq_of_lt (by omega)
  rw [compressIteration]
  simp only [h]
  rw [encodeQuery_eq, hpos]
  exact encodeEmit_after _ _ _ _ hl (by omega)

/-- COMPRESS's loop touches only the encoder's and the finder's registers. -/
theorem compressLoop_frame (n : Nat) (s : State) :
    compressLoop n s = { s with enc := (compressLoop n s).enc, finder := (compressLoop n s).finder } := by
  induction n generalizing s with
  | zero => rfl
  | succ n ih =>
    rw [compressLoop]
    split
    · exact ih (compressIteration s)
    · rfl

/-- COMPRESS's loop ends with the registers holding the input's tokens, at the end of the input (R130, R137). -/
theorem compressLoop_enc (fuel : Nat) (s : State) (ts : List Instr) (pos : Nat) (h : s.enc = encRegsAfter ts pos)
    (hl : (streamFlags ts).length ≤ pos) (hp : pos ≤ s.latched.srcLen.toNat) (hf : s.latched.srcLen.toNat ≤ pos + fuel) :
    (compressLoop fuel s).enc =
      encRegsAfter (ts ++ encodeTokens (sourceByte s) s.latched.srcLen.toNat fuel pos) s.latched.srcLen.toNat := by
  induction fuel generalizing s ts pos with
  | zero =>
    have : pos = s.latched.srcLen.toNat := by omega
    rw [compressLoop, h, encodeTokens, List.append_nil, this]
  | succ fuel ih =>
    have hn := s.latched.srcLen.isLt
    have hpos : s.enc.pos.toNat = pos := by rw [h]; exact Nat.mod_eq_of_lt (by omega)
    rw [compressLoop, hpos]
    split
    · rename_i hlt
      have hb := iterationAdvance_bounds (sourceByte s) s.latched.srcLen.toNat pos hlt
      have ht := (iterationTokens_length (sourceByte s) s.latched.srcLen.toNat pos).1
      have hi := ih (compressIteration s) _ _ (compressIteration_enc s ts pos h hl hlt)
        (by rw [streamFlags_append, List.length_append]; omega) hb.2
        (by show s.latched.srcLen.toNat ≤ _; omega)
      rw [hi, encodeTokens_succ _ _ _ _ hlt, ← List.append_assoc]
      rfl
    · have : pos = s.latched.srcLen.toNat := by omega
      rw [encodeTokens_done _ _ _ _ (by omega), List.append_nil, h, this]

/-- The encoder's answer for the latched source (R130). -/
theorem compressLoop_compressBegin (s : State) :
    (compressLoop s.latched.srcLen.toNat (compressBegin s)).enc =
      encRegsAfter (inputTokens (sourceByte s) s.latched.srcLen.toNat) s.latched.srcLen.toNat := by
  have := compressLoop_enc s.latched.srcLen.toNat (compressBegin s) [] 0 rfl (Nat.le_refl 0) (Nat.zero_le _)
    (by show s.latched.srcLen.toNat ≤ _; omega)
  exact this

/-! ### The blob -/

theorem pack_length (n : Nat) (content : List Byte) (flags : List Bool) :
    (pack n content flags).length = Config.headerBytes + ceil8 flags.length + content.length := by
  have h : Config.headerBytes = 24 := rfl
  simp [pack, h]
  omega

/-- The registers' blob is Pack of the stream they hold (R121, R171). -/
theorem blobOf_encRegsAfter (n : Nat) (ts : List Instr) (pos : Nat) :
    blobOf n (encRegsAfter ts pos) = pack n (streamContent ts) (streamFlags ts) := rfl

/-- The blob of an input fits the capacity COMPRESS asks for (R176). -/
theorem inputBlob_length_le (B : Nat → Byte) (n : Nat) :
    (inputBlob B n).length ≤ Config.headerBytes + ceil8 n + n := by
  have h := encodeTokens_length B n n 0 (Nat.zero_le n)
  rw [inputBlob, pack_length, inputTokens]
  unfold ceil8
  omega

theorem compressBlob_done (s : State) :
    compressBlob (compressLoop s.latched.srcLen.toNat (compressBegin s)) =
      inputBlob (sourceByte s) s.latched.srcLen.toNat := by
  rw [compressBlob, compressLoop_compressBegin, blobOf_encRegsAfter, inputBlob, compressLoop_frame]
  rfl

end Sys2Proof.Machine
end

