-- ==== Sys2Proof/Laws/Completion.lean ====
section
/-! SUPPORT. The laws of the checks and of the completions: which check of R203 answers when, and what the two completions
(60_exceptions.md R204, R205), the end of COMPRESS (42_encoder.md R136) and a replay fault (R206) leave. -/

namespace Sys2Proof.Machine

/-! ### Completions -/

/-- Everything `raise Fault(c)` does but to the result registers (R204, R202). -/
theorem raiseFault_completion (c : Cause) (s : State) :
    FaultCompletion c s (raiseFault c s) ∧ (raiseFault c s).mem = s.mem :=
  ⟨⟨rfl, rfl, rfl, rfl, rfl, rfl, rfl, rfl, rfl, rfl, rfl, rfl, rfl, rfl, rfl, rfl, rfl⟩, rfl⟩

/-- A draw of bytes touches no other byte (R206, R231). -/
theorem drawBytes_outside (s : State) (a n : Nat) : SameOutside a n s (drawBytes s a n) := fun x hx =>
  memRead_memWrite_of_not_mem _ _ _ _ (by simpa [drawnBytes] using hx)

/-- A replay fault touches neither the configuration nor anything outside the engine (R204). -/
theorem raiseReplayFault_frame (c : Cause) (s : State) : FaultCompletion c s (raiseReplayFault c s) := by
  simp [FaultCompletion, SameConfiguration, raiseReplayFault, statusFaulted]

/-- A replay fault touches only `dst[0, ol)` in memory (R206). -/
theorem raiseReplayFault_outside (c : Cause) (s : State) :
    SameOutside s.latched.dstAddr.toNat s.dec.ol.toNat s (raiseReplayFault c s) := by
  intro x hx
  rw [readByte, raiseReplayFault_mem]
  exact memRead_memWrite_of_not_mem _ _ _ _ (by simpa [drawnBytes] using hx)

/-- Everything a fault at or after the first token does but to the result registers (R204, R206). -/
theorem raiseReplayFault_completion (c : Cause) (s : State) :
    FaultCompletion c s (raiseReplayFault c s) ∧
      SameOutside s.latched.dstAddr.toNat s.dec.ol.toNat s (raiseReplayFault c s) :=
  ⟨raiseReplayFault_frame c s, raiseReplayFault_outside c s⟩

/-- Everything `complete()` does (R205). -/
theorem complete_success (a b c : Nat) (r : MatchResult) (s : State) :
    SuccessCompletion a b c r s (complete (BitVec.ofNat 64 a) (BitVec.ofNat 64 b) (BitVec.ofNat 64 c) r s) :=
  ⟨rfl, rfl, rfl, rfl, rfl, rfl, rfl, rfl, rfl, rfl, rfl, rfl, rfl, rfl, rfl, rfl, rfl, rfl, rfl, rfl, rfl⟩

/-- A completion from a state with the same configuration. -/
theorem successCompletion_of_frame {a b c : Nat} {r : MatchResult} {s u t : State} (h : SuccessCompletion a b c r u t)
    (hf : SameConfiguration s u) : SuccessCompletion a b c r s t := by
  obtain ⟨h1, h2, h3, h4, h5, h6, h7, h8⟩ := h
  simp only [SuccessCompletion, SameConfiguration] at *
  simp_all

/-! ### Checks (R203) -/

/-- R71, R203 check 2. -/
theorem sourceOutOfRange_iff (l : Latched) : sourceOutOfRange l = true ↔ 2 ^ 64 < l.srcAddr.toNat + l.srcLen.toNat := by
  rw [sourceOutOfRange, regionInRange, Bool.not_eq_true', decide_eq_false_iff_not, Nat.not_le]

/-- R71, R203 check 3. -/
theorem destOutOfRange_iff (l : Latched) : destOutOfRange l = true ↔ 2 ^ 64 < l.dstAddr.toNat + l.dstCap.toNat := by
  rw [destOutOfRange, regionInRange, Bool.not_eq_true', decide_eq_false_iff_not, Nat.not_le]

/-- The checks of FIND_MATCH, in order (R104). -/
theorem findChecks_cases (l : Latched) :
    (2 ^ 64 < l.srcAddr.toNat + l.srcLen.toNat ∧ findChecks l = some .addrRange) ∨
    (l.srcAddr.toNat + l.srcLen.toNat ≤ 2 ^ 64 ∧ l.srcLen.toNat < l.position.toNat ∧ findChecks l = some .badPosition) ∨
    (l.srcAddr.toNat + l.srcLen.toNat ≤ 2 ^ 64 ∧ l.position.toNat ≤ l.srcLen.toNat ∧ findChecks l = none) := by
  simp only [findChecks, sourceOutOfRange_iff]
  by_cases h : 2 ^ 64 < l.srcAddr.toNat + l.srcLen.toNat
  · rw [if_pos h]; exact .inl ⟨h, rfl⟩
  rw [if_neg h]
  by_cases h' : l.srcLen.toNat < l.position.toNat
  · rw [if_pos h']; exact .inr (.inl ⟨by omega, by omega, rfl⟩)
  · rw [if_neg h']; exact .inr (.inr ⟨by omega, by omega, rfl⟩)

/-- The checks of COMPRESS, in order (R136). -/
theorem compressChecks_cases (l : Latched) :
    (2 ^ 64 < l.srcAddr.toNat + l.srcLen.toNat ∧ compressChecks l = some .addrRange) ∨
    (l.srcAddr.toNat + l.srcLen.toNat ≤ 2 ^ 64 ∧ 2 ^ 64 < l.dstAddr.toNat + l.dstCap.toNat ∧
        compressChecks l = some .addrRange) ∨
    (l.srcAddr.toNat + l.srcLen.toNat ≤ 2 ^ 64 ∧ l.dstAddr.toNat + l.dstCap.toNat ≤ 2 ^ 64 ∧
        latchedOverlap l = true ∧ compressChecks l = some .overlap) ∨
    (l.srcAddr.toNat + l.srcLen.toNat ≤ 2 ^ 64 ∧ l.dstAddr.toNat + l.dstCap.toNat ≤ 2 ^ 64 ∧
        latchedOverlap l = false ∧
        l.dstCap.toNat < 24 + (l.srcLen.toNat + 7) / 8 + l.srcLen.toNat ∧ compressChecks l = some .alloc) ∨
    (l.srcAddr.toNat + l.srcLen.toNat ≤ 2 ^ 64 ∧ l.dstAddr.toNat + l.dstCap.toNat ≤ 2 ^ 64 ∧
        latchedOverlap l = false ∧
        24 + (l.srcLen.toNat + 7) / 8 + l.srcLen.toNat ≤ l.dstCap.toNat ∧ compressChecks l = none) := by
  simp only [compressChecks, sourceOutOfRange_iff, destOutOfRange_iff]
  by_cases h : 2 ^ 64 < l.srcAddr.toNat + l.srcLen.toNat
  · rw [if_pos h]; exact .inl ⟨h, rfl⟩
  rw [if_neg h]
  by_cases h' : 2 ^ 64 < l.dstAddr.toNat + l.dstCap.toNat
  · rw [if_pos h']; exact .inr (.inl ⟨by omega, by omega, rfl⟩)
  rw [if_neg h']
  by_cases ho : latchedOverlap l = true
  · rw [if_pos ho]; exact .inr (.inr (.inl ⟨by omega, by omega, ho, rfl⟩))
  rw [if_neg ho]
  rw [Bool.not_eq_true] at ho
  by_cases hc : l.dstCap.toNat < 24 + (l.srcLen.toNat + 7) / 8 + l.srcLen.toNat
  · rw [if_pos (show l.dstCap.toNat < Config.headerBytes + ceil8 _ + _ from hc)]
    exact .inr (.inr (.inr (.inl ⟨by omega, by omega, ho, by omega, rfl⟩)))
  · rw [if_neg (show ¬l.dstCap.toNat < Config.headerBytes + ceil8 _ + _ from hc)]
    exact .inr (.inr (.inr (.inr ⟨by omega, by omega, ho, by omega, rfl⟩)))

/-- What holds when COMPRESS passes its checks (R136). -/
theorem compressChecks_none {l : Latched} (hc : compressChecks l = none) :
    l.srcAddr.toNat + l.srcLen.toNat ≤ 2 ^ 64 ∧ l.dstAddr.toNat + l.dstCap.toNat ≤ 2 ^ 64 ∧
        latchedOverlap l = false ∧
        24 + (l.srcLen.toNat + 7) / 8 + l.srcLen.toNat ≤ l.dstCap.toNat := by
  rcases compressChecks_cases l with h | h | h | h | h
  · rw [hc] at h; simp at h
  · rw [hc] at h; simp at h
  · rw [hc] at h; simp at h
  · rw [hc] at h; simp at h
  · exact ⟨h.1, h.2.1, h.2.2.1, h.2.2.2.1⟩

/-- The checks of DECOMPRESS before Unpack, in order (R157). -/
theorem decompressChecks_cases (l : Latched) :
    (2 ^ 64 < l.srcAddr.toNat + l.srcLen.toNat ∧ decompressChecks l = some .addrRange) ∨
    (l.srcAddr.toNat + l.srcLen.toNat ≤ 2 ^ 64 ∧ 2 ^ 64 < l.dstAddr.toNat + l.dstCap.toNat ∧
        decompressChecks l = some .addrRange) ∨
    (l.srcAddr.toNat + l.srcLen.toNat ≤ 2 ^ 64 ∧ l.dstAddr.toNat + l.dstCap.toNat ≤ 2 ^ 64 ∧
        latchedOverlap l = true ∧ decompressChecks l = some .overlap) ∨
    (l.srcAddr.toNat + l.srcLen.toNat ≤ 2 ^ 64 ∧ l.dstAddr.toNat + l.dstCap.toNat ≤ 2 ^ 64 ∧
        latchedOverlap l = false ∧
        decompressChecks l = none) := by
  simp only [decompressChecks, sourceOutOfRange_iff, destOutOfRange_iff]
  by_cases h : 2 ^ 64 < l.srcAddr.toNat + l.srcLen.toNat
  · rw [if_pos h]; exact .inl ⟨h, rfl⟩
  rw [if_neg h]
  by_cases h' : 2 ^ 64 < l.dstAddr.toNat + l.dstCap.toNat
  · rw [if_pos h']; exact .inr (.inl ⟨by omega, by omega, rfl⟩)
  rw [if_neg h']
  by_cases ho : latchedOverlap l = true
  · rw [if_pos ho]; exact .inr (.inr (.inl ⟨by omega, by omega, ho, rfl⟩))
  rw [if_neg ho]
  rw [Bool.not_eq_true] at ho
  exact .inr (.inr (.inr ⟨by omega, by omega, ho, rfl⟩))

/-! ### The end of COMPRESS -/

/-- The loop's state in full. -/
theorem compressLoop_done (s : State) :
    ∃ f, compressLoop s.latched.srcLen.toNat (compressBegin s) =
      { s with
        enc := encRegsAfter (inputTokens (sourceByte s) s.latched.srcLen.toNat) s.latched.srcLen.toNat
        finder := f
        inLoop := true } := by
  refine ⟨(compressLoop s.latched.srcLen.toNat (compressBegin s)).finder, ?_⟩
  conv_lhs => rw [compressLoop_frame, compressLoop_compressBegin]
  rfl

/-- The end of COMPRESS writes the blob and the destination past it, and nothing else (R136). -/
theorem compressFinish_mem (s : State) :
    SameOutside s.latched.dstAddr.toNat (max s.latched.dstCap.toNat (compressBlob s).length) s (compressFinish s) := by
  intro x hx
  show readByte (scratchDest _ (storeBlob s)) x = _
  rw [scratchDest, drawBytes_outside, storeBlob]
  · exact readByte_writeBytes_of_not_mem _ _ _ _ (by omega)
  · show ¬(s.latched.dstAddr.toNat + _ ≤ x ∧ x < s.latched.dstAddr.toNat + _ + (s.latched.dstCap.toNat - _))
    omega

/-- The blob stands at the destination (R136). -/
theorem compressFinish_blob (s : State) (i : Nat) (hi : i < (compressBlob s).length)
    (hs : s.latched.dstAddr.toNat + i < addressSpace) :
    readByte (compressFinish s) (s.latched.dstAddr.toNat + i) = (compressBlob s).getD i 0 := by
  show readByte (scratchDest _ (storeBlob s)) _ = _
  rw [scratchDest, drawBytes_outside, storeBlob, readByte_writeBytes_of_mem _ _ _ _ hi hs]
  · simp [List.getD_eq_getElem?_getD, hi]
  · show ¬(s.latched.dstAddr.toNat + _ ≤ _ ∧ _ < _)
    omega

/-! ### Replay -/

/-- The addresses of a replay in progress exist (log 23). -/
theorem replayInSpace_iff (s : State) :
    replayInSpace s = true ↔ (s.latched.srcAddr.toNat + 24 + (s.dec.fc.toNat + 7) / 8 + s.dec.cl.toNat ≤ 2 ^ 64 ∧
      s.latched.dstAddr.toNat + s.dec.ol.toNat ≤ 2 ^ 64) := by
  rw [replayInSpace, decide_eq_true_iff]; rfl

end Sys2Proof.Machine
end

