-- ==== Sys2Proof/Laws/Engine.lean ====
section
/-! SUPPORT. The laws of the engine's turns: what each kind of turn runs, what a command's start, a token and a completion
come to, and what one encoder iteration keeps (10_state.md R45, 42_encoder.md R137, 92_eei_decisions.md D31). -/

namespace Sys2Proof.Machine

/-! ### Which turn runs what -/

theorem engineTurn_idle (s : State) (hb : s.status.busy = false) : engineTurn s = .next s := by
  rw [engineTurn, if_neg (by rw [hb]; simp)]

theorem engineTurn_begin (s : State) (hb : s.status.busy = true) (hl : s.inLoop = false) :
    engineTurn s = runCommand s := by
  rw [engineTurn, if_pos hb, if_neg (by rw [hl]; simp)]

theorem engineTurn_loop (s : State) (hb : s.status.busy = true) (hl : s.inLoop = true) :
    engineTurn s = engineIteration s := by
  rw [engineTurn, if_pos hb, if_pos hl]

theorem engineFineTurn_idle (s : State) (hb : s.status.busy = false) : engineFineTurn s = .next s := by
  rw [engineFineTurn, if_neg (by rw [hb]; simp)]

theorem engineFineTurn_begin (s : State) (hb : s.status.busy = true) (hl : s.inLoop = false) :
    engineFineTurn s = .next (beginCommand s) := by
  rw [engineFineTurn, if_pos hb, if_neg (by rw [hl]; simp)]

theorem engineFineTurn_loop (s : State) (hb : s.status.busy = true) (hl : s.inLoop = true) :
    engineFineTurn s = engineIteration s := by
  rw [engineFineTurn, if_pos hb, if_pos hl]

theorem engineIteration_compress (s : State) (hp : s.phase = .runCompress) : engineIteration s = compressStep s := by
  rw [engineIteration]; split <;> simp_all

theorem engineIteration_decompress (s : State) (hp : s.phase = .runDecompress) : engineIteration s = replayStep s := by
  rw [engineIteration]; split <;> simp_all

theorem engineIteration_find (s : State) (hp : s.phase = .runFind) : engineIteration s = findStep s := by
  rw [engineIteration]; split <;> simp_all

/-- The four kinds of command words (R45, R81, R91). -/
theorem phaseOf_cases (w : Word) :
    (decodeCommand w = .ok .compress ∧ phaseOf w = .runCompress ∧ w = 1#64) ∨
    (decodeCommand w = .ok .decompress ∧ phaseOf w = .runDecompress ∧ w = 2#64) ∨
    (decodeCommand w = .ok .findMatch ∧ phaseOf w = .runFind ∧ w = 3#64) ∨
    ((∃ e, decodeCommand w = .error e) ∧ phaseOf w = .runBadCmd ∧ reachesDest w = false) := by
  cases h : decodeCommand w with
  | error e =>
    refine .inr (.inr (.inr ⟨⟨e, rfl⟩, by rw [phaseOf, h], ?_⟩))
    have h1 : w ≠ 1#64 := fun hw => by
      have := (decodeCommand_ok_iff w .compress).2 (by simp [hw])
      rw [h] at this; cases this
    have h2 : w ≠ 2#64 := fun hw => by
      have := (decodeCommand_ok_iff w .decompress).2 (by simp [hw])
      rw [h] at this; cases this
    simp [reachesDest, h1, h2]
  | ok i =>
    rcases (decodeCommand_ok_iff w i).1 h with ⟨h', rfl⟩ | ⟨h', rfl⟩ | ⟨h', rfl⟩ <;> subst h' <;>
      simp [phaseOf, decodeCommand]

/-- CMD stands at offset 0 (R26). -/
theorem regAt_cmd {off : Byte} (hr : regAt off = .cmd) : off = 0 := by
  rw [regAt] at hr
  split at hr <;> simp at hr
  rename_i h0
  exact BitVec.eq_of_toNat_eq h0

/-- STATUS stands at offset 8 (R26). -/
theorem regAt_status {off : Byte} (hr : regAt off = .status) : off = 8 := by
  rw [regAt] at hr
  split at hr <;> simp at hr
  rename_i h0
  exact BitVec.eq_of_toNat_eq h0

/-! ### Completions -/

/-- What either completion leaves, whatever its cause (R204, R205, R208). -/
structure Completed (s t : State) : Prop where
  config : SameConfiguration s t
  latched : t.latched = s.latched
  busy : t.status.busy = false
  done : t.status.done = true
  phase : t.phase = .idle
  loop : t.inLoop = false
  cause : t.status.error = true ↔ t.status.cause ≠ .none
  wf : memWf s.mem = true → memWf t.mem = true

theorem raiseFault_completed (c : Cause) (hc : c ≠ .none) (s : State) : Completed s (raiseFault c s) := by
  obtain ⟨⟨h1, h2, h3, h4⟩, h5⟩ := raiseFault_completion c s
  exact ⟨h4, rfl, by rw [h1], by rw [h1], h2, h3, by rw [h1]; simpa using hc, by rw [h5]; exact id⟩

theorem raiseReplayFault_completed (c : Cause) (hc : c ≠ .none) (s : State) : Completed s (raiseReplayFault c s) := by
  obtain ⟨⟨h1, h2, h3, h4⟩, -⟩ := raiseReplayFault_completion c s
  exact ⟨h4, rfl, by rw [h1], by rw [h1], h2, h3, by rw [h1]; simpa using hc, fun h => by
    rw [raiseReplayFault_mem]; exact memWf_memWrite h _ _⟩

theorem complete_completed (a b c : Word) (r : MatchResult) (s : State) : Completed s (complete a b c r s) :=
  ⟨⟨rfl, rfl, rfl, rfl, rfl, rfl, rfl, rfl, rfl, rfl, rfl, rfl, rfl, rfl⟩, rfl, rfl, rfl, rfl, rfl, by simp, id⟩

theorem sameConfiguration_trans {s t u : State} (h : SameConfiguration s t) (h' : SameConfiguration t u) :
    SameConfiguration s u := by
  simp only [SameConfiguration] at *; simp_all

theorem Completed.of_frame {s t u : State} (h : Completed t u) (h1 : SameConfiguration s t) (hl : t.latched = s.latched)
    (h2 : memWf s.mem = true → memWf t.mem = true) : Completed s u :=
  ⟨sameConfiguration_trans h1 h.config, h.latched.trans hl, h.busy, h.done, h.phase, h.loop, h.cause, fun hs => h.wf (h2 hs)⟩

/-- COMPRESS's last turn completes it (R136). -/
theorem compressFinish_completed (s : State) : Completed s (compressFinish s) := by
  refine (complete_completed _ _ _ _ (scratchDest _ (storeBlob s))).of_frame ?_ rfl
    (fun h => memWf_memWrite (memWf_memWrite h _ _) _ _)
  simp [SameConfiguration, scratchDest, storeBlob]

/-! ### The start of DECOMPRESS, and a token -/

/-- Every check a command fails names a cause (R203). -/
theorem checks_cause_ne {l : Latched} {c : Cause}
    (h : findChecks l = some c ∨ compressChecks l = some c ∨ decompressChecks l = some c) : c ≠ .none := by
  rintro rfl
  rcases h with h | h | h
  · rcases findChecks_cases l with h' | h' | h' <;> rw [h] at h' <;> simp at h'
  · rcases compressChecks_cases l with h' | h' | h' | h' | h' <;> rw [h] at h' <;> simp at h'
  · rcases decompressChecks_cases l with h' | h' | h' | h' <;> rw [h] at h' <;> simp at h'

/-- What DECOMPRESS comes to before its first token: a cause, or the header read and every bound of R159 met. -/
theorem decompressBegin_cases (s : State) :
    (∃ c, decompressBegin s = .error c ∧ c ≠ .none) ∨
    (decompressBegin s = .ok { s with dec := headerRegs s, inLoop := true } ∧ decompressChecks s.latched = none ∧
      blobSize (headerRegs s) ≤ s.latched.srcLen.toNat ∧ (headerRegs s).ol.toNat ≤ s.latched.dstCap.toNat) := by
  rw [decompressBegin]
  cases h : decompressChecks s.latched with
  | some c => exact .inl ⟨c, rfl, checks_cause_ne (.inr (.inr h))⟩
  | none =>
    simp only
    by_cases h1 : s.latched.srcLen.toNat < Config.headerBytes
    · rw [show unpack s = .error .blobTruncated by rw [unpack, if_pos h1]]
      exact .inl ⟨_, rfl, by simp⟩
    by_cases h2 : s.latched.srcLen.toNat < blobSize (headerRegs s)
    · rw [show unpack s = .error .blobTruncated by rw [unpack, if_neg h1, if_pos h2]]
      exact .inl ⟨_, rfl, by simp⟩
    rw [show unpack s = .ok (headerRegs s) by rw [unpack, if_neg h1, if_neg h2]]
    simp only
    by_cases h3 : s.latched.dstCap.toNat < (headerRegs s).ol.toNat
    · rw [if_pos h3]; exact .inl ⟨_, rfl, by simp⟩
    · rw [if_neg h3]; exact .inr ⟨rfl, trivial, by omega, by omega⟩

/-- The causes a token can fault with (R152, R153). -/
theorem runToken_error {i : Instr} {s : State} {c : Cause} (h : runToken i s = .error c) :
    c = .contentOverrun ∨ c = .badDisplacement ∨ c = .outputOverrun := by
  cases i with
  | compress => cases h
  | decompress => cases h
  | findMatch => cases h
  | lit b =>
    rw [runToken, litToken] at h
    split at h
    · cases h; simp
    · split at h
      · cases h; simp
      · cases h
  | matchRecord d l =>
    rw [runToken, matchToken] at h
    split at h
    · cases h; simp
    · split at h
      · cases h; simp
      · split at h
        · cases h; simp
        · cases h

/-- What `exec` answers for a token whose addresses exist: the token's step, or the replay fault it raises. -/
theorem exec_token (i : Instr) (s : State) (hi : tokenDecision i ≠ none) (hs : replayInSpace s = true) :
    (∃ t, exec i s = .next t ∧ runToken i s = .ok t ∧ TokenDone s t) ∨
    (∃ c, exec i s = .next (raiseReplayFault c s) ∧ runToken i s = .error c ∧ c ≠ .none) := by
  have he : exec i s = .next (settleToken s (runToken i s)) := by
    cases i with
    | compress => exact absurd rfl hi
    | decompress => exact absurd rfl hi
    | findMatch => exact absurd rfl hi
    | lit b => show execLit b s = _; rw [execLit, if_pos hs]; rfl
    | matchRecord d l => show execMatchRecord d l s = _; rw [execMatchRecord, if_pos hs]; rfl
  rw [he]
  cases hr : runToken i s with
  | ok t => exact .inl ⟨t, rfl, rfl, runToken_done hi hr⟩
  | error c => exact .inr ⟨c, rfl, rfl, by rcases runToken_error hr with rfl | rfl | rfl <;> simp⟩

/-- A replay fault comes to the same state whether or not the tokens before it were run: they wrote only bytes that it
leaves unspecified (R206, D31). -/
theorem raiseReplayFault_token (c : Cause) {s t : State} (h : TokenDone s t) (hm : memWf s.mem = true) :
    raiseReplayFault c t = raiseReplayFault c s := by
  have hl : t.latched = s.latched := by rw [h.frame]
  have hdr : t.draws = s.draws := by rw [h.frame]
  have hmem : memWrite t.mem s.latched.dstAddr.toNat (drawnBytes s.draws s.dec.ol.toNat) =
      memWrite s.mem s.latched.dstAddr.toNat (drawnBytes s.draws s.dec.ol.toNat) := by
    refine memWf_ext (memWf_memWrite (h.wf hm) _ _) (memWf_memWrite hm _ _) (fun x => ?_)
    rw [memGet_memWrite, memGet_memWrite]
    split
    · rfl
    · rename_i hx
      rw [show (drawnBytes s.draws s.dec.ol.toNat).length = s.dec.ol.toNat by simp [drawnBytes]] at hx
      have := h.wc_bound
      exact h.get_outside x (by unfold outputAddr; omega)
  have e : ∀ u : State, raiseReplayFault c u =
      { toIdle (drawResults { u with
          mem := memWrite u.mem u.latched.dstAddr.toNat (drawnBytes u.draws u.dec.ol.toNat)
          draws := u.draws + 1 }) with status := statusFaulted c u.status } := fun u => rfl
  rw [e, e, hl, hdr, h.ol_eq, hmem, h.frame]
  rfl

/-! ### Encoder registers, in any state -/

/-- The bounds R137 and R121 put on the encoder's registers of an `n`-byte input. -/
structure EncOk (n : Nat) (e : EncRegs) : Prop where
  pos : e.pos.toNat ≤ n
  fl : e.flags.length = e.dcount.toNat
  dc : e.dcount.toNat ≤ e.pos.toNat
  cl : e.content.length = e.wcur.toNat
  wc : e.wcur.toNat ≤ e.pos.toNat
  wb : e.wbit = e.dcount
  fb : e.fbuf = packFlags e.flags

theorem emitToken_encOk {n : Word} {e : EncRegs} (h : EncOk n.toNat e) (b : Bool) (c : List Byte) (k : Nat) (hk : 1 ≤ k)
    (hc : c.length ≤ k) (hn : e.pos.toNat + k ≤ n.toNat) : EncOk n.toNat (emitToken b c k e) := by
  have hw := writeBit_packFlags b e (by rw [h.wb, h.fl]) h.fb
  have := h.dc
  have := h.wc
  have hp : (e.pos + BitVec.ofNat 64 k).toNat = e.pos.toNat + k := cursor_add hn
  have hd : (e.dcount + 1).toNat = e.dcount.toNat + 1 := cursor_succ (b := n) (by omega)
  have hcur : (e.wcur + BitVec.ofNat 64 c.length).toNat = e.wcur.toNat + c.length := cursor_add (b := n) (by omega)
  refine ⟨?_, ?_, ?_, ?_, ?_, ?_, hw⟩
  · show (e.pos + BitVec.ofNat 64 k).toNat ≤ n.toNat; omega
  · show (e.flags ++ [b]).length = (e.dcount + 1).toNat; rw [hd, List.length_append, h.fl]; rfl
  · show (e.dcount + 1).toNat ≤ (e.pos + BitVec.ofNat 64 k).toNat; omega
  · show (e.content ++ c).length = (e.wcur + BitVec.ofNat 64 c.length).toNat; rw [hcur, List.length_append, h.cl]
  · show (e.wcur + BitVec.ofNat 64 c.length).toNat ≤ (e.pos + BitVec.ofNat 64 k).toNat; omega
  · show e.wbit + 1 = e.dcount + 1; rw [h.wb]

theorem literalRun_encOk {n : Word} (B : Nat → Byte) (r : Nat) {e : EncRegs} (h : EncOk n.toNat e)
    (hn : e.pos.toNat + r ≤ n.toNat) :
    EncOk n.toNat (literalRun B r e) ∧ (literalRun B r e).pos.toNat = e.pos.toNat + r := by
  induction r generalizing e with
  | zero => exact ⟨h, rfl⟩
  | succ r ih =>
    rw [literalRun]
    have hp : (emitToken false [B e.pos.toNat] 1 e).pos.toNat = e.pos.toNat + 1 := cursor_succ (b := n) (by omega)
    have := ih (emitToken_encOk h false [B e.pos.toNat] 1 (by omega) (by simp) (by omega)) (by omega)
    exact ⟨this.1, by rw [this.2, hp]; omega⟩

/-- One iteration keeps the bounds and advances by what its query gives (R131 to R133). -/
theorem encodeEmit_encOk {n : Word} (B : Nat → Byte) {e : EncRegs} (h : EncOk n.toNat e) (hp : e.pos.toNat < n.toNat) :
    EncOk n.toNat (encodeEmit B (encodeQuery B n.toNat e) e) ∧
      (encodeEmit B (encodeQuery B n.toNat e) e).pos.toNat =
        e.pos.toNat + iterationAdvance (queryAt B n.toNat e.pos.toNat) := by
  have ha := iterationAdvance_bounds B n.toNat e.pos.toNat hp
  rw [encodeQuery_eq, encodeEmit]
  rw [iterationAdvance] at *
  by_cases h5 : (queryAt B n.toNat e.pos.toNat).bestL.toNat < Config.minMatch
  · simp only [h5, if_true] at *
    exact literalRun_encOk B _ h (by omega)
  · have hc := queryAt_canonical B n.toNat e.pos.toNat h5
    simp only [h5, if_false] at *
    refine ⟨emitToken_encOk h true _ _ (by omega) ?_ (by omega), cursor_add (b := n) (by omega)⟩
    simp
    unfold Config.minMatch at hc
    omega

/-- The registers' blob fits the capacity COMPRESS asked for (R176). -/
theorem compressBlob_length_le {n : Nat} {s : State} (h : EncOk n s.enc) :
    (compressBlob s).length ≤ 24 + (n + 7) / 8 + n := by
  have := h.pos
  have := h.dc
  have := h.wc
  rw [compressBlob, blobOf, h.fb]
  simp [h.cl]
  unfold ceil8
  rw [h.fl]
  omega

/-- Every address a COMPRESS in progress reaches exists (log 23). -/
theorem compressInSpace_of_encOk {s : State} (hc : compressChecks s.latched = none)
    (h : EncOk s.latched.srcLen.toNat s.enc) : compressInSpace s = true := by
  have := compressChecks_none hc
  have := compressBlob_length_le h
  simp only [compressInSpace, regionInRange, Bool.and_eq_true, decide_eq_true_iff]
  unfold addressSpace
  omega

end Sys2Proof.Machine
end

