-- ==== Sys2Proof/Laws/PerInstr.lean ====
section
/-! SUPPORT. Statements made instruction by instruction: the shape of each encoding (30_encoding.md R80, R88). -/

namespace Sys2Proof.Laws.EncodingShape

/-- A command is one 64-bit word; a token is a decision bit with the content length its decision fixes (R80, R88):
1 byte for a LIT, 3 for a MATCH. -/
def Statement (i : Instr) : Prop :=
  match encode i with
  | .command bytes => tokenDecision i = none ∧ bytes.length = 8
  | .token b content => tokenDecision i = some b ∧ content.length = if b then Config.matchRecBytes else 1

theorem compress : Statement .compress := ⟨rfl, rfl⟩

theorem decompress : Statement .decompress := ⟨rfl, rfl⟩

theorem findMatch : Statement .findMatch := ⟨rfl, rfl⟩

theorem lit (b : Byte) : Statement (.lit b) := ⟨rfl, rfl⟩

theorem matchRecord (d : BitVec 16) (l : Byte) : Statement (.matchRecord d l) := ⟨rfl, rfl⟩

end Sys2Proof.Laws.EncodingShape
end

