-- ==== Sys2Proof/Laws/Stream.lean ====
section
/-! SUPPORT. The laws that join a blob in memory to its bytes as data: the header fields (30_encoding.md R82), the content
window of a token (43_decoder.md R152, R153), and one step of the pure replay (R150). -/

namespace Sys2Proof.Machine

/-- Regions that pass the OVERLAP check lie apart when neither is empty (R203, check 4). -/
theorem latchedOverlap_false {l : Latched} (h : latchedOverlap l = false) (hs : l.srcLen.toNat ≠ 0)
    (hd : l.dstCap.toNat ≠ 0) :
    l.dstAddr.toNat + l.dstCap.toNat ≤ l.srcAddr.toNat ∨ l.srcAddr.toNat + l.srcLen.toNat ≤ l.dstAddr.toNat := by
  rw [latchedOverlap, regionsOverlap, decide_eq_false_iff_not] at h
  omega

theorem ceil8_div {i n : Nat} (h : i < n) : i / 8 < ceil8 n := by unfold ceil8; omega

theorem sourceByte_of_sourceBytes {s : State} {bytes : List Byte} (h : sourceBytes s 0 bytes.length = bytes) (i : Nat)
    (hi : i < bytes.length) : sourceByte s i = bytes.getD i 0 := by
  conv_rhs => rw [← h]
  rw [sourceBytes, List.getD_eq_getElem?_getD, List.getElem?_map, List.getElem?_range hi]
  simp

/-- A header field reads back the word laid out there (R82, R63). -/
theorem headerField_of_bytes {s : State} {bytes before after : List Byte} {k : Nat} {v : Word}
    (h : sourceBytes s 0 bytes.length = bytes) (hb : bytes = before ++ le64 v ++ after) (hk : before.length = k) :
    headerField s k = v := by
  have hf : sourceBytes s k 8 = le64 v := by
    apply List.ext_getElem?
    intro i
    rcases Nat.lt_or_ge i 8 with hi | hi
    · rw [sourceBytes, List.getElem?_map, List.getElem?_range hi, Option.map_some,
        sourceByte_of_sourceBytes h (k + i) (by rw [hb]; simp; omega), hb, List.getD_eq_getElem?_getD, List.append_assoc,
        List.getElem?_append_right (by omega), List.getElem?_append_left (by simp; omega),
        show k + i - before.length = i by omega, List.getElem?_eq_getElem (by simp; omega)]
      rfl
    · rw [List.getElem?_eq_none (by simp [sourceBytes]; omega), List.getElem?_eq_none (by simp; omega)]
  rw [headerField, hf, ofNat_leValue_le64]

/-- The content bytes a token may take are the next three of the content, or all that is left (R88). -/
theorem tokenBytes_eq {s : State} {content : List Byte} (hl : content.length = s.dec.cl.toNat)
    (hc : ∀ i, i < s.dec.cl.toNat → contentByte s i = content.getD i 0) :
    tokenBytes s = (content.drop s.dec.rc.toNat).take 3 := by
  apply List.ext_getElem?
  intro i
  simp only [tokenBytes, List.getElem?_map, List.getElem?_take, List.getElem?_drop]
  by_cases h : i < min Config.matchRecBytes (s.dec.cl.toNat - s.dec.rc.toNat)
  · have h3 : i < 3 := by unfold Config.matchRecBytes at h; omega
    rw [List.getElem?_range h, if_pos h3, Option.map_some, hc _ (by omega), List.getD_eq_getElem?_getD,
      List.getElem?_eq_getElem (by omega)]
    rfl
  · rw [List.getElem?_eq_none (by simp; simp at h; omega)]
    unfold Config.matchRecBytes at h
    split
    · rw [List.getElem?_eq_none (by omega)]; rfl
    · rfl

/-- Three bytes of content decide a token as the whole content does (R85, R86). -/
theorem decodeToken_take (b : Bool) (c : List Byte) :
    decodeToken b (c.take 3) =
      match decodeToken b c with
      | .ok (i, _) => .ok (i, (c.take 3).drop (tokenContent i).length)
      | .error e => .error e := by
  match b, c with
  | false, [] => rfl
  | false, _ :: _ => rfl
  | true, [] => rfl
  | true, [_] => rfl
  | true, [_, _] => rfl
  | true, _ :: _ :: _ :: _ => rfl

/-- What a token leaves of the content (R88). -/
theorem decodeToken_rest {b : Bool} {c rest : List Byte} {i : Instr} (h : decodeToken b c = .ok (i, rest)) :
    rest = c.drop (tokenContent i).length ∧ (tokenContent i).length ≤ c.length := by
  match b, c with
  | false, [] => cases h
  | false, _ :: _ => cases h; simp [tokenContent]
  | true, [] => cases h
  | true, [_] => cases h
  | true, [_, _] => cases h
  | true, _ :: _ :: _ :: _ => cases h; simp [tokenContent]

/-- The pure replay takes a token off the front of the content (R150 to R154). -/
theorem expandFrom_token (ol : Nat) (flagBytes : List Byte) (k i : Nat) {t : Instr} {b : Bool}
    (ht : tokenDecision t = some b) (rest : List Byte) {out out' : List Byte}
    (hf : flagBit (flagBytes.getD (i / 8) 0#8) i = b) (he : expandToken out t = some out') (hl : out'.length ≤ ol) :
    expandFrom ol flagBytes (k + 1) i (tokenContent t ++ rest) out = expandFrom ol flagBytes k (i + 1) rest out' := by
  rw [expandFrom, hf, decodeToken_tokenContent t b ht]
  simp only [he]
  rw [if_neg (by omega)]

end Sys2Proof.Machine
end

