-- ==== Sys2Proof/Tests/Slice0.lean ====
section
/-! SUPPORT. Tests on small states, their expected results taken from the spec (95_test_vectors.md and the rules), and one
witness for the hypotheses of every statement. -/

namespace Sys2Proof.Tests

open Sys2Proof.Machine

/-! ### Helpers -/

/-- A memory that lists `bytes` from address `a` up. -/
def memOf (a : Nat) (bytes : List Byte) : List Host.Cell := memWrite [] a bytes

/-- The state after reset with the given operand registers and memory. -/
def idle (src len dst cap pos lim : Word) (m : List Host.Cell) : State :=
  { State.reset with
    srcAddr := src, srcLen := len, dstAddr := dst, dstCap := cap, position := pos, windowLimit := lim, mem := m }

/-- The state right after the command word `w` was accepted there. -/
def accepted (w src len dst cap pos lim : Word) (m : List Host.Cell) : State :=
  acceptCommand w (idle src len dst cap pos lim m)

/-- The next state of an outcome, if it is one. -/
def nextOf : Host.Outcome State Fault Refusal → Option State
  | .next t => some t
  | .fault _ => none
  | .refused _ => none

/-- `n` bytes of memory from `a` up, as the state lists them. -/
def bytesAt (s : State) (a n : Nat) : List (Option Byte) := (List.range n).map (fun i => memGet s.mem (a + i))

/-- The input of vector E3 (95, section 5): ten times 'A'. -/
def tenA : List Byte := List.replicate 10 0x41

/-- The blob of vector E3: `h(10,4,2) 40 41 010009`. -/
def blobE3 : List Byte :=
  [10, 0, 0, 0, 0, 0, 0, 0, 4, 0, 0, 0, 0, 0, 0, 0, 2, 0, 0, 0, 0, 0, 0, 0, 0x40, 0x41, 0x01, 0x00, 0x09]

/-- The blob of vector D2: `h(7,5,3) 20 4142 020005`. -/
def blobD2 : List Byte :=
  [7, 0, 0, 0, 0, 0, 0, 0, 5, 0, 0, 0, 0, 0, 0, 0, 3, 0, 0, 0, 0, 0, 0, 0, 0x20, 0x41, 0x42, 0x02, 0x00, 0x05]

/-- COMPRESS of ten times 'A' at 0x1000 into 36 bytes at 0x2000 (the required capacity: R176). -/
def compressE3 : State := accepted 1 0x1000 10 0x2000 36 0 0 (memOf 0x1000 tenA)

/-- DECOMPRESS of the bytes `blob` at 0x1000 into `cap` bytes at 0x2000. -/
def decompressOf (blob : List Byte) (cap : Word) : State :=
  accepted 2 0x1000 (BitVec.ofNat 64 blob.length) 0x2000 cap 0 0 (memOf 0x1000 blob)

/-- "ABCxABCyABC", the buffer of vectors M1 to M11. -/
def bufM1 : List Byte := [0x41, 0x42, 0x43, 0x78, 0x41, 0x42, 0x43, 0x79, 0x41, 0x42, 0x43]

/-- FIND_MATCH on that buffer at 0x1000. -/
def findM1 (pos lim : Word) : State := accepted 3 0x1000 11 0 0 pos lim (memOf 0x1000 bufM1)

/-- A replay in progress: two bytes "AB" written at 0x2000, `cl` content bytes of which `rc` were consumed, `ol` bytes to
come in all, one more decision. -/
def replaying (rc cl ol : Nat) : State :=
  { accepted 2 0x1000 (BitVec.ofNat 64 (25 + cl)) 0x2000 (BitVec.ofNat 64 ol) 0 0 (memOf 0x2000 [0x41, 0x42]) with
    inLoop := true
    dec := ⟨BitVec.ofNat 64 rc, 2, 2, BitVec.ofNat 64 ol, BitVec.ofNat 64 cl, 3⟩ }

/-! ### WellFormed: each check refuses an ill-formed term -/

/-- R81: the three opcodes, and the words next to them. -/
theorem test_validCommandWord : (validCommandWord 0x1 && validCommandWord 0x2 && validCommandWord 0x3) = true ∧
    validCommandWord 0x0 = false ∧ validCommandWord 0x4 = false ∧ validCommandWord 0xFF = false ∧
    validCommandWord 0x101 = false ∧ validCommandWord 0x8000000000000001 = false := by decide

/-- R87: a canonical record, and one term ill formed in each of the four bounds. -/
theorem test_canonicalRecord : canonicalRecord 4 10 4 3 = true ∧ canonicalRecord 70000 300 0xFFFF 255 = true ∧
    canonicalRecord 4 10 0 3 = false ∧ canonicalRecord 4 10 5 3 = false ∧
    canonicalRecord 4 10 4 2 = false ∧ canonicalRecord 4 10 4 11 = false := by decide

/-- R87: every record value is a MATCH, so no term of Instr is ill formed. -/
theorem test_wellFormed : [Instr.compress, .decompress, .findMatch, .lit 0xFF, .matchRecord 0 0].all Instr.wellFormed =
    true := by decide

/-! ### Decoding: words written out from the spec's encodings -/

theorem test_decode_compress : decode (.command [0x01, 0, 0, 0, 0, 0, 0, 0]) = .ok (.compress, []) := by decide

theorem test_decode_decompress : decode (.command [0x02, 0, 0, 0, 0, 0, 0, 0]) = .ok (.decompress, []) := by decide

theorem test_decode_findMatch : decode (.command [0x03, 0, 0, 0, 0, 0, 0, 0]) = .ok (.findMatch, []) := by decide

/-- R85: decision 0, one content byte; the rest comes back. -/
theorem test_decode_lit : decode (.token false [0x41, 0x42]) = .ok (.lit 0x41, [0x42]) := by decide

/-- R86: decision 1, `d` little-endian, then `l`. -/
theorem test_decode_match : decode (.token true [0x34, 0x12, 0xFF, 0x07]) = .ok (.matchRecord 0x1234 0xFF, [0x07]) := by
  decide

/-- R91: an opcode of 0 or of 4 up, and bits 63:8 set, are refused, each by its name. -/
theorem test_decode_reserved : decode (.command [0x00, 0, 0, 0, 0, 0, 0, 0]) = .error .reservedOpcode ∧
    decode (.command [0x04, 0, 0, 0, 0, 0, 0, 0]) = .error .reservedOpcode ∧
    decode (.command [0x01, 1, 0, 0, 0, 0, 0, 0]) = .error .reservedBits ∧
    decode (.command [0x01, 0, 0, 0, 0, 0, 0, 0x80]) = .error .reservedBits := by decide

/-- R152, R153: too little content, and fewer than 8 bytes of a command word. -/
theorem test_decode_short : decode (.token false []) = .error .contentExhausted ∧
    decode (.token true [1, 0]) = .error .contentExhausted ∧ decode (.command [1, 0, 0, 0]) = .error .shortCommand := by
  decide

/-- The rows of spec/opcode_table.json, with the bits it gives them. -/
theorem test_table_words : decodeTableWord 64 0x1 = some .compress ∧ decodeTableWord 64 0x2 = some .decompress ∧
    decodeTableWord 64 0x3 = some .findMatch ∧ decodeTableWord 8 0x0 = some (.lit 0) ∧
    decodeTableWord 8 0x1 = some (.matchRecord 0 0) ∧ decodeTableWord 64 0x4 = none := by decide +kernel

/-- Table words with operands: LIT 'A', and MATCH 1, 9 (log 22). -/
theorem test_table_operands : decodeTableWord 16 0x4100 = some (.lit 0x41) ∧
    decodeTableWord 32 0x09000101 = some (.matchRecord 1 9) := by decide +kernel

/-- 95, section 10: PackFlags of 0,0,0,1,0,1 is 14, and nine ones are FF 80. -/
theorem test_packFlags : packFlags [false, false, false, true, false, true] = [0x14] ∧
    packFlags (List.replicate 9 true) = [0xFF, 0x80] ∧ packFlags [] = [] := by decide +kernel

/-! ### One step of each instruction -/

/-- E3: the blob, RESULT_LEN 29, two decisions, four content bytes, STATUS 0x2. -/
theorem test_compress_E3 : (nextOf (step compressE3)).map (fun t =>
      (statusWord t.status, t.resultLen, t.resFlagCount, t.resContentLen)) = some (0x2, 29, 2, 4) ∧
    (nextOf (step compressE3)).map (fun t => bytesAt t 0x2000 29) = some (blobE3.map some) := by decide +kernel

/-- R136: one byte less than the required capacity is ALLOC, STATUS 0x0106, and the destination is as before. -/
theorem test_compress_alloc : (nextOf (step (accepted 1 0x1000 10 0x2000 35 0 0 (memOf 0x1000 tenA)))).map (fun t =>
      (statusWord t.status, t.mem)) = some (0x0106, memOf 0x1000 tenA) := by decide +kernel

/-- D2: "ABABABA" from a match longer than its displacement. -/
theorem test_decompress_D2 : (nextOf (step (decompressOf blobD2 7))).map (fun t =>
      (statusWord t.status, t.resultLen, bytesAt t 0x2000 7)) =
    some (0x2, 7, [some 0x41, some 0x42, some 0x41, some 0x42, some 0x41, some 0x42, some 0x41]) := by decide +kernel

/-- D32: DST_CAP = 9 for ten bytes is ALLOC, and the destination is as before. -/
theorem test_decompress_D32 : (nextOf (step (decompressOf blobE3 9))).map (fun t => (statusWord t.status, t.mem)) =
    some (0x0106, memOf 0x1000 blobE3) := by decide +kernel

/-- M1: displacements 4 and 8 both reach 3; the nearer one is answered: MATCH_RESULT 0x30004. -/
theorem test_findMatch_M1 : (nextOf (step (findM1 8 0xFFFF))).map (fun t =>
      (statusWord t.status, matchResultWord t.matchResult, t.resultLen)) = some (0x2, 0x30004, 0) := by decide +kernel

/-- R104: POSITION past SRC_LEN is BAD_POSITION, STATUS 0x0506. -/
theorem test_findMatch_badPosition : (nextOf (step (findM1 12 100))).map (fun t => statusWord t.status) =
    some 0x0506 := by decide +kernel

/-- R152: LIT 'A' at `wc = 2` writes at `O[2]` and advances the cursors by 1. -/
theorem test_lit : (nextOf (exec (.lit 0x41) (replaying 0 1 3))).map (fun t =>
      (t.dec.rc, t.dec.di, t.dec.wc, bytesAt t 0x2000 3)) =
    some (1, 3, 3, [some 0x41, some 0x42, some 0x41]) := by decide +kernel

/-- R152: no room left is OUTPUT_OVERRUN, STATUS 0x0906. -/
theorem test_lit_overrun : (nextOf (exec (.lit 0x41) (replaying 0 1 2))).map (fun t => (statusWord t.status, t.phase)) =
    some (0x0906, .idle) := by decide +kernel

/-- R153: `MATCH 2, 5` after "AB" gives "ABABABA". -/
theorem test_match : (nextOf (exec (.matchRecord 2 5) (replaying 0 3 7))).map (fun t =>
      (t.dec.rc, t.dec.di, t.dec.wc, bytesAt t 0x2000 7)) =
    some (3, 3, 7, [some 0x41, some 0x42, some 0x41, some 0x42, some 0x41, some 0x42, some 0x41]) := by decide +kernel

/-- R155: a displacement past `wc` is BAD_DISPLACEMENT even for a length of 0, STATUS 0x0806. -/
theorem test_match_badDisplacement : (nextOf (exec (.matchRecord 3 0) (replaying 0 3 7))).map (fun t =>
      (statusWord t.status, t.phase)) = some (0x0806, .idle) := by decide +kernel

/-- `withFetchWord` at reset: the very next step runs the row's instruction. -/
theorem test_withFetchWord : (nextOf (step (State.reset.withFetchWord 64 0x3))).map (fun t => statusWord t.status) =
      some 0x2 ∧
    (nextOf (step (State.reset.withFetchWord 8 0x0))).map (fun t => (t.dec.wc, t.dec.rc, memGet t.mem 0x1000)) =
      some (1, 1, some 0) ∧
    (nextOf (step (State.reset.withFetchWord 8 0x1))).map (fun t => statusWord t.status) = some 0x0806 := by
  decide +kernel

/-! ### The register block and the host -/

/-- R26, R42: the offsets, and PARAMS' constant. -/
theorem test_registers : [0x00, 0x08, 0x10, 0x18, 0x20, 0x28, 0x30, 0x38, 0x40, 0x48, 0x50, 0x58, 0x60, 0x68, 0x70,
      0xF8].map regAt =
    [.cmd, .status, .irqEn, .srcAddr, .srcLen, .dstAddr, .dstCap, .position, .windowLimit, .resultLen, .resFlagCount,
      .resContentLen, .matchResult, .params, .reserved, .reserved] ∧ paramsWord = 0x0000180303FFFFFF := by decide

/-- R28, R30: a CMD write while BUSY sets DROPPED (STATUS 0x9), and a STATUS write of 8 clears it. -/
theorem test_dropped : (nextOf (hostOp (.wr 0x00 8 3) compressE3)).map (fun t =>
      (statusWord t.status, (nextOf (hostOp (.wr 0x08 8 8) t)).map (fun u => statusWord u.status))) =
    some (0x9, some 0x1) := by decide +kernel

/-- R62, R203 check 5: a DECOMPRESS of 23 bytes on the register block reaches neither region, so it is accepted and
completes with BLOB_TRUNCATED (STATUS 0x0606); with 24 bytes the launch is refused (U7). -/
theorem test_truncated_on_device :
    (nextOf (hostOp (.wr 0x00 8 2) (idle 0x8000000000000000 23 0 0 0 0 []))).map (fun t =>
      (nextOf (engineTurn t)).map (fun u => statusWord u.status)) = some (some 0x0606) ∧
    hostOp (.wr 0x00 8 2) (idle 0x8000000000000000 24 0 0 0 0 []) = .refused .regionNotMemory := ⟨by decide +kernel, rfl⟩

/-- R23: the query that tries all 16 bits' worth of displacements ends with the last one, in 16 bits. -/
theorem test_finder_width : (finderCandidate (fun _ => 0) ⟨65535, 0xFFFF, 0, 0xFFFE, 0, 0, 0⟩).d = 0xFFFF := by decide

/-- R29, R41: the register words. -/
theorem test_words : statusWord ⟨false, true, true, true, .contentLeftover⟩ = 0x0B0E ∧
    statusWord ⟨true, false, false, false, .none⟩ = 0x1 ∧ matchResultWord ⟨0x0004, 0x03⟩ = 0x30004 := by decide

/-- R230: reset while COMPRESS runs leaves the engine idle and the source as it was. -/
theorem test_reset : (nextOf (hostOp .reset compressE3)).map (fun t =>
      (statusWord t.status, t.phase, t.srcAddr, bytesAt t 0x1000 10)) = some (0, .idle, 0, tenA.map some) := by
  decide +kernel

/-! ### Witnesses: states and operands that meet the hypotheses of the statements, all together -/

theorem inv_reset : Inv State.reset := by refine ⟨?_, ?_, ?_, ?_, ?_, ?_, ?_⟩ <;> decide

theorem inv_compressE3 : Inv compressE3 := by refine ⟨?_, ?_, ?_, ?_, ?_, ?_, ?_⟩ <;> decide

theorem inv_decompress : Inv (decompressOf blobD2 7) := by refine ⟨?_, ?_, ?_, ?_, ?_, ?_, ?_⟩ <;> decide

theorem inv_find : Inv (findM1 8 0xFFFF) := by refine ⟨?_, ?_, ?_, ?_, ?_, ?_, ?_⟩ <;> decide

/-- A reserved word, accepted. -/
def badCmd : State := accepted 0x104 0 0 0 0 0 0 []

theorem inv_badCmd : Inv badCmd := by refine ⟨?_, ?_, ?_, ?_, ?_, ?_, ?_⟩ <;> decide

/-- COMPRESS begun, none of its iterations done. -/
theorem inv_compressBegun : Inv (compressBegin compressE3) := by refine ⟨?_, ?_, ?_, ?_, ?_, ?_, ?_⟩ <;> decide

/-- A command completed with DONE = 1, ERROR = 1. -/
def completed : State := { State.reset with status := ⟨false, true, true, false, .alloc⟩ }

theorem inv_completed : Inv completed := by refine ⟨?_, ?_, ?_, ?_, ?_, ?_, ?_⟩ <;> decide

theorem witness_DecodeInvertsEncode : Instr.compress.wellFormed = true ∧ Instr.decompress.wellFormed = true ∧
    Instr.findMatch.wellFormed = true ∧ (Instr.lit 0xFF).wellFormed = true ∧
    (Instr.matchRecord 0xFFFF 0).wellFormed = true := by decide

theorem witness_TokenStreamParsesBack : ∀ t ∈ [Instr.lit 0x41, .matchRecord 1 9], tokenDecision t ≠ none := by decide

/-- Both inner ranges of PackFlagsFormat at their ends, and a bit past the last decision. -/
theorem witness_PackFlagsFormat : 1 < ((List.replicate 9 true).length + 7) / 8 ∧ 7 < 8 ∧
    8 < (List.replicate 9 true).length ∧ ¬8 * 1 + 1 < (List.replicate 9 true).length := by decide

theorem witness_WriteBitPacksMsbFirst : [true, false, true, true, false, true, true, false, true].length < 2 ^ 64 ∧ 8 < [true, false, true, true, false, true, true, false, true].length ∧
    [true, false, true, true, false, true, true, false, true].length ≤ 15 ∧
    15 < 8 * (([true, false, true, true, false, true, true, false, true].length + 7) / 8) := by decide

theorem witness_RegisterWritesReadBack : (0x10 : Byte).toNat % 8 = 0 ∧ (0x10 : Byte) ≠ 0x00 ∧ (0x10 : Byte) ≠ 0x08 ∧
    (0xF8 : Byte).toNat % 8 = 0 ∧ (0xF8 : Byte) ≠ 0x00 ∧ (0xF8 : Byte) ≠ 0x08 := by decide

/-- The clauses of RegisterReadsHaveNoEffect: idle; busy below and above the result registers; PARAMS; reserved. -/
theorem witness_RegisterReadsHaveNoEffect : (0x48 : Byte).toNat % 8 = 0 ∧ State.reset.status.busy = false ∧
    (0x40 : Byte).toNat < 0x48 ∧ 0x60 < (0x68 : Byte).toNat ∧ 0x70 ≤ (0x70 : Byte).toNat ∧ compressE3.status.busy = true := by
  decide

/-- The clauses of EachOffsetReadsAndWritesItsField: the result registers with BUSY = 0, and both ends of the reserved
offsets. -/
theorem witness_EachOffsetReadsAndWritesItsField : completed.status.busy = false ∧
    (0x48 : Byte) ∈ [(0x48 : Byte), 0x50, 0x58, 0x60, 0x68] ∧ 0x70 ≤ (0x70 : Byte).toNat ∧ (0x70 : Byte).toNat % 8 = 0 ∧
    0x70 ≤ (0xF8 : Byte).toNat ∧ (0xF8 : Byte).toNat % 8 = 0 := by decide

/-- Both ends of the fields of MatchResultWordFields, and the first reserved bit. -/
theorem witness_MatchResultWordFields : 15 < 16 ∧ 7 < 8 ∧ 24 ≤ 24 ∧
    (regValue { completed with matchResult := ⟨0x8000, 0x80⟩ } .matchResult) = 0x808000 := by decide

theorem witness_MisshapenAccessIsRefused : ¬(4 = 8 ∧ (0x00 : Byte).toNat % 8 = 0) ∧ ¬(8 = 8 ∧ (0x04 : Byte).toNat % 8 = 0) ∧
    nextTurn { State.reset with host := [.wr 0x00 4 1] } = .host ∧
    nextTurn { State.reset with host := [.rd 0x04 8] } = .host := by decide

/-- W1C of each field, and the clause while BUSY = 1. -/
theorem witness_StatusWriteOneToClear : (0x2 : Word).getLsbD 1 = true ∧ StatusLegal compressE3 ∧
    compressE3.status.busy = true := by decide

theorem witness_CmdWriteWhenIdleIsAccepted : (idle 0x1000 10 0x2000 36 0 0 []).status.busy = false ∧
    launchesOnDevice (idle 0x1000 10 0x2000 36 0 0 []) 1 = false ∧
    launchesOnDevice (idle 0x1000 10 0x2000 36 0 0 []) 0x104 = false := by decide

theorem witness_CmdWriteWhileBusyIsDropped : compressE3.status.busy = true := by decide

theorem witness_OperandWritesDoNotReachTheRunningCommand : compressE3.status.busy = true ∧
    (0x18 : Byte).toNat % 8 = 0 ∧ 0x18 ≤ (0x18 : Byte).toNat ∧ (0x18 : Byte).toNat ≤ 0x40 ∧
    (0x40 : Byte).toNat % 8 = 0 ∧ 0x18 ≤ (0x40 : Byte).toNat ∧ (0x40 : Byte).toNat ≤ 0x40 := by decide

/-- FIND_MATCH on the last byte of the register block. -/
def onBlock : State := { idle 0x80000000000000FF 1 0 0 0 0 [] with host := [.wr 0x00 8 3] }

theorem witness_LaunchOnDeviceIsRefused : onBlock.status.busy = false ∧ nextTurn onBlock = .host ∧
    onBlock.host = [.wr 0x00 8 3] ∧ launchesOnDevice onBlock 3 = true := by decide

/-- The three implications of IrqIsDoneAndEnabled. -/
theorem witness_IrqIsDoneAndEnabled : (0x2 : Word).getLsbD 1 = true ∧
    (∃ t, hostOp (.wr 0x08 8 0x2) State.reset = .next t) ∧ State.reset.status.busy = false ∧
    (∃ t, hostOp (.wr 0x00 8 0) State.reset = .next t) := ⟨by decide, ⟨_, rfl⟩, by decide, ⟨_, rfl⟩⟩

/-- HostStoreWritesOneByte: the last byte of the source, the last of the destination, and the byte after each. -/
theorem witness_HostStoreWritesOneByte : onDevice compressE3 0x1009 = false ∧ inRunningSource compressE3 0x1009 = true ∧
    inRunningDest compressE3 0x2023 = true ∧ inRunningSource compressE3 0x100A = false ∧
    inRunningDest compressE3 0x100A = false ∧ inRunningDest compressE3 0x2024 = false := by decide

/-- HostLoadReadsOneByte: the last byte of the destination of a running COMPRESS, and the byte after it. -/
theorem witness_HostLoadReadsOneByte : onDevice compressE3 0x2023 = false ∧ inRunningDest compressE3 0x2023 = true ∧
    onDevice compressE3 0x2024 = false ∧ inRunningDest compressE3 0x2024 = false := by decide

/-- The last byte of the register block, and the byte after it. -/
theorem witness_HostByteAccessToADeviceIsRefused : onDevice State.reset (0x80000000000000FF : Word).toNat = true ∧
    onDevice State.reset (0x8000000000000100 : Word).toNat = false ∧
    nextTurn { State.reset with host := [.store 0x80000000000000FF 0] } = .host ∧
    nextTurn { State.reset with host := [.load 0x80000000000000FF] } = .host := by decide

/-- Both clauses of WaitReadsStatusUntilIdle. -/
theorem witness_WaitReadsStatusUntilIdle :
    (nextTurn { compressE3 with turns := [.host], host := [.wait] } = .host ∧ compressE3.status.busy = true) ∧
    (nextTurn { State.reset with host := [.wait] } = .host ∧ State.reset.status.busy = false) := by decide

theorem witness_ResetValues : (∃ t, hostOp .reset compressE3 = .next t) ∧ (0x68 : Byte).toNat % 8 = 0 ∧
    (0xF8 : Byte).toNat % 8 = 0 := ⟨⟨_, rfl⟩, by decide, by decide⟩

/-- ResetKeepsMemory: the bytes next to the destination of a running COMPRESS. -/
theorem witness_ResetKeepsMemory : ∀ x ∈ [0x1FFF, 0x2024], ¬(compressE3.status.busy = true ∧
    reachesDest compressE3.latched.cmd = true ∧ compressE3.latched.dstAddr.toNat ≤ x ∧
    x < compressE3.latched.dstAddr.toNat + compressE3.latched.dstCap.toNat) := by decide

/-- CompressWritesItsBlob: the smallest capacity that passes, and a source that ends at 2^64. -/
theorem witness_CompressWritesItsBlob : ∀ s ∈ [compressE3, accepted 1 0xFFFFFFFFFFFFFFFF 1 0 26 0 0 []],
    s.latched.srcAddr.toNat + s.latched.srcLen.toNat ≤ 2 ^ 64 ∧ s.latched.dstAddr.toNat + s.latched.dstCap.toNat ≤ 2 ^ 64 ∧
    latchedOverlap s.latched = false ∧
    24 + (s.latched.srcLen.toNat + 7) / 8 + s.latched.srcLen.toNat ≤ s.latched.dstCap.toNat := by decide +kernel

/-- The four clauses of CompressFaultsInOrder, each one past its bound. -/
theorem witness_CompressFaultsInOrder :
    2 ^ 64 < (0xFFFFFFFFFFFFFFFF : Word).toNat + (2 : Word).toNat ∧
    ((0xFFFFFFFFFFFFFFFF : Word).toNat + (1 : Word).toNat ≤ 2 ^ 64 ∧
      2 ^ 64 < (0xFFFFFFFFFFFFFFFF : Word).toNat + (2 : Word).toNat) ∧
    latchedOverlap ⟨1, 0x1000, 10, 0x1009, 64, 0, 0⟩ = true ∧
    (latchedOverlap ⟨1, 0x1000, 10, 0x100A, 35, 0, 0⟩ = false ∧ 35 < 24 + (10 + 7) / 8 + 10) := by decide

theorem witness_EmittedMatchesAreCanonical : 1 < 4 ∧ 3 ≤ (queryAt (fun _ => 0) 4 1).bestL.toNat := by decide

/-- An input whose tokens are all LITs. -/
theorem witness_BlobFitsTheRequiredCapacity : ∀ t ∈ inputTokens (fun i => BitVec.ofNat 8 i) 3,
    tokenDecision t = some false := by decide

/-- Two runs on the same bytes at different places. -/
def elsewhere : State := accepted 1 0x5000 10 0x3000 64 7 7 (memOf 0x5000 tenA)

theorem witness_CompressIsDeterministic : compressChecks compressE3.latched = none ∧ compressChecks elsewhere.latched = none ∧
    compressE3.latched.srcLen = elsewhere.latched.srcLen ∧
    (∀ i, i < compressE3.latched.srcLen.toNat → sourceByte compressE3 i = sourceByte elsewhere i) ∧
    (∃ t, exec .compress compressE3 = .next t) ∧ (∃ t, exec .compress elsewhere = .next t) :=
  ⟨by decide, by decide, by decide, by decide +kernel, ⟨_, rfl⟩, ⟨_, rfl⟩⟩

/-- POSITION = SRC_LEN passes, and a source that ends at 2^64. -/
theorem witness_FindMatchAnswersTheNearestLongest : ∀ s ∈ [findM1 8 0xFFFF, findM1 11 100,
      accepted 3 0xFFFFFFFFFFFFFFFF 1 0 0 1 0 []],
    s.latched.srcAddr.toNat + s.latched.srcLen.toNat ≤ 2 ^ 64 ∧ s.latched.position.toNat ≤ s.latched.srcLen.toNat := by
  decide

theorem witness_FindMatchFaultsInOrder :
    2 ^ 64 < (0xFFFFFFFFFFFFFFF0 : Word).toNat + (0x11 : Word).toNat ∧
    ((0xFFFFFFFFFFFFFFF0 : Word).toNat + (0x10 : Word).toNat ≤ 2 ^ 64 ∧ (0x10 : Word).toNat < (0x11 : Word).toNat) := by
  decide

/-- Two buffers that differ only below the window `[position - wl, position + maxlen)`. -/
def findElsewhere : State := accepted 3 0x1000 11 0 0 8 4 (memOf 0x1000 (0x7A :: bufM1.drop 1))

theorem witness_FindMatchReadsOnlyItsWindow : (findM1 8 4).latched = findElsewhere.latched ∧
    findChecks (findM1 8 4).latched = none ∧
    (∀ i, (findM1 8 4).latched.position.toNat - (findWindow (findM1 8 4).latched).toNat ≤ i →
      i < (findM1 8 4).latched.position.toNat + (findMaxlen (findM1 8 4).latched).toNat →
      sourceByte (findM1 8 4) i = sourceByte findElsewhere i) ∧
    (∃ t, exec .findMatch (findM1 8 4) = .next t) ∧ (∃ t, exec .findMatch findElsewhere = .next t) := by
  refine ⟨by decide, by decide, fun i h1 h2 => ?_, ⟨_, rfl⟩, ⟨_, rfl⟩⟩
  have h : ∀ i < 11, 4 ≤ i → sourceByte (findM1 8 4) i = sourceByte findElsewhere i := by decide +kernel
  exact h i h2 h1

/-- LitExecutes: the last content byte and the last byte of room; no content; no room. -/
theorem witness_LitExecutes : replayInSpace (replaying 0 1 3) = true ∧
    (replaying 0 1 3).dec.rc + 1 ≤ (replaying 0 1 3).dec.cl.toNat ∧
    (replaying 0 1 3).dec.wc + 1 ≤ (replaying 0 1 3).dec.ol.toNat ∧
    (replayInSpace (replaying 1 1 3) = true ∧ (replaying 1 1 3).dec.cl.toNat < (replaying 1 1 3).dec.rc + 1) ∧
    (replayInSpace (replaying 0 1 2) = true ∧ (replaying 0 1 2).dec.rc + 1 ≤ (replaying 0 1 2).dec.cl.toNat ∧
      (replaying 0 1 2).dec.ol.toNat < (replaying 0 1 2).dec.wc + 1) := by decide

theorem witness_MatchCopiesByteByByte : replayInSpace (replaying 0 3 7) = true ∧
    (replaying 0 3 7).dec.rc + 3 ≤ (replaying 0 3 7).dec.cl.toNat ∧ 1 ≤ (2 : BitVec 16).toNat ∧
    (2 : BitVec 16).toNat ≤ (replaying 0 3 7).dec.wc ∧
    (replaying 0 3 7).dec.wc + (5 : Byte).toNat ≤ (replaying 0 3 7).dec.ol.toNat := by decide

/-- MatchFaultsInOrder: two content bytes; displacements 0 and 3 at `wc = 2`; a byte too many. -/
theorem witness_MatchFaultsInOrder : (replayInSpace (replaying 0 2 7) = true ∧
      (replaying 0 2 7).dec.cl.toNat < (replaying 0 2 7).dec.rc + 3) ∧
    (replayInSpace (replaying 0 3 7) = true ∧ (replaying 0 3 7).dec.rc + 3 ≤ (replaying 0 3 7).dec.cl.toNat ∧
      (0 : BitVec 16).toNat = 0 ∧ (replaying 0 3 7).dec.wc < (3 : BitVec 16).toNat ∧
      1 ≤ (2 : BitVec 16).toNat ∧ (2 : BitVec 16).toNat ≤ (replaying 0 3 7).dec.wc ∧
      (replaying 0 3 7).dec.ol.toNat < (replaying 0 3 7).dec.wc + (6 : Byte).toNat) := by decide

/-- Both sides of the equivalence of TokensFaultExactlyOutsideTheAddressSpace. -/
theorem witness_TokensFaultExactlyOutsideTheAddressSpace : tokenDecision (.lit 0) ≠ none ∧
    tokenDecision (.matchRecord 0 0) ≠ none ∧ replayInSpace (replaying 0 3 7) = true ∧
    replayInSpace { replaying 0 3 7 with latched := ⟨2, 0, 28, 0xFFFFFFFFFFFFFFFA, 7, 0, 0⟩ } = false := by decide

/-- D2's blob, with room for exactly its output. -/
theorem witness_DecompressWritesTheReplayedBytes :
    (decompressOf blobD2 7).latched.srcAddr.toNat + (decompressOf blobD2 7).latched.srcLen.toNat ≤ 2 ^ 64 ∧
    (decompressOf blobD2 7).latched.dstAddr.toNat + (decompressOf blobD2 7).latched.dstCap.toNat ≤ 2 ^ 64 ∧
    latchedOverlap (decompressOf blobD2 7).latched = false ∧
    [(0x20 : Byte)].length = ((3 : Word).toNat + 7) / 8 ∧ [(0x41 : Byte), 0x42, 2, 0, 5].length = (5 : Word).toNat ∧
    SourceHolds (decompressOf blobD2 7) (blobBytes 7 5 3 [0x20] [0x41, 0x42, 2, 0, 5]) ∧
    (7 : Word).toNat ≤ (decompressOf blobD2 7).latched.dstCap.toNat ∧
    expandBlob (7 : Word).toNat (3 : Word).toNat [0x20] [0x41, 0x42, 2, 0, 5] =
      .ok [0x41, 0x42, 0x41, 0x42, 0x41, 0x42, 0x41] := by decide +kernel

/-- D10: `h(4,4,2) 40 41 020003`, whose displacement is bad. -/
def blobD10 : List Byte := blobBytes 4 4 2 [0x40] [0x41, 2, 0, 3]

theorem witness_DecompressFaultsAsTheReplayDoes :
    (decompressOf blobD10 4).latched.srcAddr.toNat + (decompressOf blobD10 4).latched.srcLen.toNat ≤ 2 ^ 64 ∧
    (decompressOf blobD10 4).latched.dstAddr.toNat + (decompressOf blobD10 4).latched.dstCap.toNat ≤ 2 ^ 64 ∧
    latchedOverlap (decompressOf blobD10 4).latched = false ∧
    [(0x40 : Byte)].length = ((2 : Word).toNat + 7) / 8 ∧ [(0x41 : Byte), 2, 0, 3].length = (4 : Word).toNat ∧
    SourceHolds (decompressOf blobD10 4) (blobBytes 4 4 2 [0x40] [0x41, 2, 0, 3]) ∧
    (4 : Word).toNat ≤ (decompressOf blobD10 4).latched.dstCap.toNat ∧
    expandBlob (4 : Word).toNat (2 : Word).toNat [0x40] [0x41, 2, 0, 3] = .error .badDisplacement := by decide +kernel

/-- The clauses of DecompressFaultsBeforeReplayInOrder: the ranges and the overlap as for COMPRESS; 23 bytes; one byte
short of E3's blob; one byte short of its output. -/
theorem witness_DecompressFaultsBeforeReplayInOrder :
    decompressChecks ⟨2, 0xFFFFFFFFFFFFFFFF, 2, 0, 0, 0, 0⟩ = some .addrRange ∧
    decompressChecks ⟨2, 0, 1, 0xFFFFFFFFFFFFFFFF, 2, 0, 0⟩ = some .addrRange ∧
    latchedOverlap ⟨2, 0x1000, 29, 0x101C, 10, 0, 0⟩ = true ∧
    (decompressChecks (decompressOf (blobE3.take 23) 10).latched = none ∧
      (decompressOf (blobE3.take 23) 10).latched.srcLen.toNat < 24) ∧
    (decompressChecks (decompressOf (blobE3.take 28) 10).latched = none ∧
      24 ≤ (decompressOf (blobE3.take 28) 10).latched.srcLen.toNat ∧
      (decompressOf (blobE3.take 28) 10).latched.srcLen.toNat <
        24 + ((headerField (decompressOf (blobE3.take 28) 10) 16).toNat + 7) / 8 +
          (headerField (decompressOf (blobE3.take 28) 10) 8).toNat) ∧
    (decompressChecks (decompressOf blobE3 9).latched = none ∧ 24 ≤ (decompressOf blobE3 9).latched.srcLen.toNat ∧
      24 + ((headerField (decompressOf blobE3 9) 16).toNat + 7) / 8 + (headerField (decompressOf blobE3 9) 8).toNat ≤
        (decompressOf blobE3 9).latched.srcLen.toNat ∧
      (decompressOf blobE3 9).latched.dstCap.toNat < (headerField (decompressOf blobE3 9) 0).toNat) := by decide +kernel

/-- D14 against its canonical form: padding bits 0x7F and a trailing byte, in the same source region. -/
def padded (flags trailing : Byte) : State := decompressOf (blobBytes 1 1 1 [flags] [0x41] ++ [trailing]) 1

theorem witness_PaddingAndTrailingBytesAreIgnored :
    { padded 0x00 0x00 with mem := (padded 0x7F 0xEE).mem } = padded 0x7F 0xEE ∧
    (∀ x, inRegion (padded 0x00 0x00).latched.srcAddr.toNat (padded 0x00 0x00).latched.srcLen.toNat x = false →
      readByte (padded 0x00 0x00) x = readByte (padded 0x7F 0xEE) x) ∧
    (∀ i, i < 24 → sourceByte (padded 0x00 0x00) i = sourceByte (padded 0x7F 0xEE) i) ∧
    (∀ i, i < (headerField (padded 0x00 0x00) 16).toNat →
      flagBit (sourceByte (padded 0x00 0x00) (24 + i / 8)) i = flagBit (sourceByte (padded 0x7F 0xEE) (24 + i / 8)) i) ∧
    (∀ i, i < (headerField (padded 0x00 0x00) 8).toNat →
      sourceByte (padded 0x00 0x00) (24 + ((headerField (padded 0x00 0x00) 16).toNat + 7) / 8 + i) =
        sourceByte (padded 0x7F 0xEE) (24 + ((headerField (padded 0x00 0x00) 16).toNat + 7) / 8 + i)) ∧
    (∃ t, exec .decompress (padded 0x00 0x00) = .next t) ∧ (∃ t, exec .decompress (padded 0x7F 0xEE) = .next t) := by
  refine ⟨by decide +kernel, fun x hx => ?_, by decide +kernel, by decide +kernel, by decide +kernel, ⟨_, rfl⟩, ⟨_, rfl⟩⟩
  have hx' : ¬(0x1000 ≤ x ∧ x < 0x1000 + 27) := of_decide_eq_false hx
  have hm : ∀ f t : Byte, memGet (padded f t).mem x = none := fun f t => by
    rw [show (padded f t).mem = memWrite [] 0x1000 (blobBytes 1 1 1 [f] [0x41] ++ [t]) from rfl, memGet_memWrite]
    exact if_neg hx'
  rw [readByte, readByte, memRead, memRead, hm, hm]

/-- E3, compressed and then decompressed into ten bytes. -/
def afterE3 (t : State) : State :=
  { t with latched := ⟨2, 0x2000, t.resultLen, 0x3000, 10, 0, 0⟩ }

theorem witness_CompressThenDecompressGivesTheInputBack : ∃ t,
    compressChecks compressE3.latched = none ∧ exec .compress compressE3 = .next t ∧ (afterE3 t).mem = t.mem ∧
      (afterE3 t).latched.srcAddr = compressE3.latched.dstAddr ∧ (afterE3 t).latched.srcLen = t.resultLen ∧
      (afterE3 t).latched.dstAddr = 0x3000 ∧ (afterE3 t).latched.dstCap = 10 ∧
      (0x3000 : Word).toNat + (10 : Word).toNat ≤ 2 ^ 64 ∧ latchedOverlap (afterE3 t).latched = false ∧
      compressE3.latched.srcLen.toNat ≤ (10 : Word).toNat :=
  ⟨_, by decide, rfl, rfl, rfl, rfl, rfl, rfl, by decide, by decide +kernel, by decide⟩

theorem witness_ReservedWordsCompleteWithBadCmd : State.reset.status.busy = false ∧
    validCommandWord 0x0 = false ∧ validCommandWord 0x4 = false ∧ validCommandWord 0x104 = false ∧
    validCommandWord 0xFFFFFFFFFFFFFFFF = false := by decide

/-- Every instruction answers a next state somewhere. -/
theorem witness_InstructionsKeepTheConfiguration : (∃ t, exec .compress compressE3 = .next t) ∧
    (∃ t, exec .decompress (decompressOf blobD2 7) = .next t) ∧ (∃ t, exec .findMatch (findM1 8 0xFFFF) = .next t) ∧
    (∃ t, exec (.lit 0x41) (replaying 0 1 3) = .next t) ∧ (∃ t, exec (.matchRecord 2 5) (replaying 0 3 7) = .next t) :=
  ⟨⟨_, rfl⟩, ⟨_, rfl⟩, ⟨_, rfl⟩, ⟨_, rfl⟩, ⟨_, rfl⟩⟩

/-- A step that changes the latched configuration: an accepted CMD write. -/
theorem witness_OnlyAcceptanceAndResetWriteTheLatchedConfiguration :
    ∃ t, step { State.reset with host := [.wr 0x00 8 0x3] } = .next t ∧ t.latched ≠ State.reset.latched :=
  ⟨_, rfl, by decide⟩

theorem witness_CommandsEndInACompletion : tokenDecision .compress = none ∧ tokenDecision .decompress = none ∧
    tokenDecision .findMatch = none := by decide

/-- The byte after the destination of COMPRESS, in both granularities; and any byte, for a reserved word. -/
theorem witness_EngineWritesOnlyTheDestination : Inv compressE3 ∧ (∃ t, engineTurn compressE3 = .next t) ∧
    (∃ t, engineFineTurn compressE3 = .next t) ∧ inRunningDest compressE3 0x2024 = false ∧ Inv badCmd ∧
    (∃ t, engineTurn badCmd = .next t) ∧ inRunningDest badCmd 0 = false :=
  ⟨inv_compressE3, ⟨_, rfl⟩, ⟨_, rfl⟩, by decide, inv_badCmd, ⟨_, rfl⟩, by decide⟩

/-- The four clauses of OnlyCompletionSetsAndOnlyTheHostClears: a completion, and a STATUS write of 0x6; both change
CAUSE. -/
theorem witness_OnlyCompletionSetsAndOnlyTheHostClears : Inv badCmd ∧
    (∃ t, step badCmd = .next t ∧ badCmd.status.done = false ∧ t.status.done = true ∧ badCmd.status.error = false ∧
      t.status.error = true ∧ t.status.cause ≠ badCmd.status.cause) ∧
    Inv { completed with host := [.wr 0x08 8 0x6] } ∧
    (∃ t, step { completed with host := [.wr 0x08 8 0x6] } = .next t ∧ completed.status.done = true ∧
      t.status.done = false ∧ completed.status.error = true ∧ t.status.error = false ∧
      t.status.cause ≠ completed.status.cause) :=
  ⟨inv_badCmd, ⟨_, rfl, rfl, rfl, rfl, rfl, by decide⟩, inv_completed, ⟨_, rfl, rfl, rfl, rfl, rfl, by decide⟩⟩

/-- The two clauses of OnlyACmdWriteWakesTheEngine: a CMD write, and an idle engine's turn. -/
theorem witness_OnlyACmdWriteWakesTheEngine :
    (∃ t, step { State.reset with host := [.wr 0x00 8 0x104] } = .next t ∧ t.status.busy = true) ∧
    (∃ t, step { State.reset with turns := [.engine] } = .next t ∧
      nextTurn { State.reset with turns := [.engine] } ≠ .host) :=
  ⟨⟨_, rfl, rfl⟩, ⟨_, rfl, by decide⟩⟩

theorem witness_StepRunsTheLatchedCommand : compressE3.status.busy = true ∧ compressE3.inLoop = false ∧
    nextTurn compressE3 = .engine ∧ decodeCommand compressE3.latched.cmd = .ok .compress := by decide

/-- The first token of E3's blob, after the header was read: LIT 'A'. -/
def begun : State := { decompressOf blobE3 10 with inLoop := true, dec := ⟨0, 0, 0, 10, 4, 2⟩ }

theorem witness_StepRunsTheFetchedToken : begun.status.busy = true ∧ begun.inLoop = true ∧ begun.phase = .runDecompress ∧
    nextTurn begun ≠ .host ∧ begun.dec.di.toNat < begun.dec.fc.toNat ∧
    decode (.token (decision begun begun.dec.di.toNat) (tokenBytes begun)) = .ok (.lit 0x41, [0x01, 0x00]) := by decide +kernel

theorem witness_StepRunsTheHostOperation : nextTurn { State.reset with host := [.wait] } = .host ∧
    { State.reset with host := [.wait] }.host = [.wait] := by decide

/-- The invariant over a step that runs a command whole, that begins it, and that runs one iteration of it. -/
theorem witness_StepKeepsTheInvariant : Inv compressE3 ∧ (∃ t, step compressE3 = .next t) ∧
    Inv (decompressOf blobD2 7) ∧ (∃ t, step { decompressOf blobD2 7 with turns := [.engineFine] } = .next t) ∧
    Inv (compressBegin compressE3) ∧ (∃ t, step (compressBegin compressE3) = .next t) :=
  ⟨inv_compressE3, ⟨_, rfl⟩, inv_decompress, ⟨_, rfl⟩, inv_compressBegun, ⟨_, rfl⟩⟩

theorem witness_StepNeverFaults : Inv State.reset ∧ Inv compressE3 ∧ Inv (findM1 8 0xFFFF) :=
  ⟨inv_reset, inv_compressE3, inv_find⟩

theorem witness_IterationsReachTheCommandsOutcome : Inv (decompressOf blobD2 7) ∧
    (decompressOf blobD2 7).status.busy = true ∧ (decompressOf blobD2 7).inLoop = false :=
  ⟨inv_decompress, by decide, by decide⟩

/-- One state for each of the four bounds of EveryAcceptedCommandCompletes. -/
theorem witness_EveryAcceptedCommandCompletes : (Inv compressE3 ∧ compressE3.status.busy = true ∧
      compressE3.inLoop = false ∧ compressE3.phase = .runCompress) ∧
    (Inv (decompressOf blobD2 7) ∧ (decompressOf blobD2 7).status.busy = true ∧ (decompressOf blobD2 7).inLoop = false ∧
      (decompressOf blobD2 7).phase = .runDecompress) ∧
    (Inv (findM1 8 0xFFFF) ∧ (findM1 8 0xFFFF).status.busy = true ∧ (findM1 8 0xFFFF).inLoop = false ∧
      (findM1 8 0xFFFF).phase = .runFind) ∧
    (Inv badCmd ∧ badCmd.status.busy = true ∧ badCmd.inLoop = false ∧ badCmd.phase = .runBadCmd) :=
  ⟨⟨inv_compressE3, by decide⟩, ⟨inv_decompress, by decide⟩, ⟨inv_find, by decide⟩, ⟨inv_badCmd, by decide⟩⟩

end Sys2Proof.Tests
end

/-! PROOFS. The register block as the host sees it (10_state.md R26 to R43): which offset names which register, the bits
of the register words, and what a read and a write of each register does. -/

namespace Sys2Proof.Machine

/-! ### Offsets (R26) -/

/-- The offset of a register; the reserved offsets have no single one, and take 0 here. -/
def regOffset : Reg → Byte
  | .cmd => 0x00
  | .status => 0x08
  | .irqEn => 0x10
  | .srcAddr => 0x18
  | .srcLen => 0x20
  | .dstAddr => 0x28
  | .dstCap => 0x30
  | .position => 0x38
  | .windowLimit => 0x40
  | .resultLen => 0x48
  | .resFlagCount => 0x50
  | .resContentLen => 0x58
  | .matchResult => 0x60
  | .params => 0x68
  | .reserved => 0x00

/-- A register that is not reserved stands at one offset only. -/
theorem eq_regOffset_of_regAt {off : Byte} {r : Reg} (h : regAt off = r) (hr : r ≠ .reserved) : off = regOffset r := by
  rw [regAt] at h
  split at h <;> subst h <;> simp_all [regOffset, BitVec.toNat_eq]

theorem regOffset_lt (r : Reg) : (regOffset r).toNat < 0x70 := by cases r <;> decide

theorem regAt_of_ge {off : Byte} (h : 0x70 ≤ off.toNat) : regAt off = .reserved := by
  by_contra hr
  have := regOffset_lt (regAt off)
  rw [← eq_regOffset_of_regAt rfl hr] at this
  omega

/-- Two offsets that name one register are both reserved. -/
theorem regAt_eq_reserved {off off' : Byte} (h : regAt off' = regAt off) (hne : off' ≠ off) : regAt off = .reserved := by
  by_contra hr
  exact hne ((eq_regOffset_of_regAt h hr).trans (eq_regOffset_of_regAt rfl hr).symm)

/-- The result registers stand at 0x48 to 0x60 (R38 to R41). -/
theorem regOffset_of_isResult {r : Reg} (h : isResult r = true) :
    0x48 ≤ (regOffset r).toNat ∧ (regOffset r).toNat ≤ 0x60 := by
  cases r <;> revert h <;> decide

theorem isResult_regAt_of_outside {off : Byte} (h : off.toNat < 0x48 ∨ 0x60 < off.toNat) : isResult (regAt off) = false := by
  rw [← Bool.not_eq_true]
  intro hr
  have := regOffset_of_isResult hr
  rw [← eq_regOffset_of_regAt rfl (fun h0 => by rw [h0] at hr; cases hr)] at this
  omega

/-- The operand registers stand at 0x18 to 0x40 (R32 to R37). -/
theorem regAt_operand {off : Byte} (h8 : off.toNat % 8 = 0) (hl : 0x18 ≤ off.toNat) (hu : off.toNat ≤ 0x40) :
    regAt off = .srcAddr ∨ regAt off = .srcLen ∨ regAt off = .dstAddr ∨ regAt off = .dstCap ∨
      regAt off = .position ∨ regAt off = .windowLimit := by
  obtain h | h | h | h | h | h : off.toNat = 0x18 ∨ off.toNat = 0x20 ∨ off.toNat = 0x28 ∨ off.toNat = 0x30 ∨
    off.toNat = 0x38 ∨ off.toNat = 0x40 := by omega
  all_goals simp [regAt, h]

/-- CMD and STATUS, whose writes have rules of their own, stand at 0x00 and 0x08 only (R28, R30). -/
theorem regAt_ne_cmd_status {off : Byte} (h0 : off ≠ 0x00) (h8 : off ≠ 0x08) : regAt off ≠ .cmd ∧ regAt off ≠ .status :=
  ⟨fun h => h0 (regAt_cmd h), fun h => h8 (regAt_status h)⟩

/-! ### The bits of the register words (R29, R31, R41, R42) -/

/-- The fields of STATUS by bit number (R29). -/
theorem getLsbD_statusWord (st : Status) (i : Nat) :
    (statusWord st).getLsbD i =
      if i = 0 then st.busy else if i = 1 then st.done else if i = 2 then st.error else if i = 3 then st.dropped
      else if 8 ≤ i then (causeCode st.cause).getLsbD (i - 8) else false := by
  rcases Nat.lt_or_ge i 8 with hi | hi
  · interval_cases i <;> simp [statusWord]
  · rw [if_neg (by omega), if_neg (by omega), if_neg (by omega), if_neg (by omega), if_pos hi]
    rcases Nat.lt_or_ge i 64 with h64 | h64
    · simp [statusWord, BitVec.getLsbD_ofBool, h64, show ¬i = 0 by omega, show ¬i < 8 by omega]
      omega
    · rw [BitVec.getLsbD_of_ge _ _ h64, BitVec.getLsbD_of_ge _ _ (by omega)]

/-- The bits of STATUS from 8 up hold CAUSE, and 0 past its 8 bits (R29). -/
theorem getLsbD_statusWord_of_ge (st : Status) {i : Nat} (h : 8 ≤ i) :
    (statusWord st).getLsbD i = (causeCode st.cause).getLsbD (i - 8) := by
  rw [getLsbD_statusWord, if_neg (by omega), if_neg (by omega), if_neg (by omega), if_neg (by omega), if_pos h]

/-- The fields of MATCH_RESULT by bit number (R41). -/
theorem getLsbD_matchResultWord (r : MatchResult) (i : Nat) :
    (matchResultWord r).getLsbD i = if i < 16 then r.disp.getLsbD i else r.len.getLsbD (i - 16) := by
  rcases Nat.lt_or_ge i 16 with hi | hi
  · simp [matchResultWord, hi]; omega
  · rw [if_neg (by omega)]
    rcases Nat.lt_or_ge i 64 with h64 | h64
    · simp [matchResultWord, BitVec.getLsbD_of_ge, hi, h64]
    · rw [BitVec.getLsbD_of_ge _ _ h64, BitVec.getLsbD_of_ge _ _ (by omega)]

/-- What IRQ_EN reads after a write of `w`: bit 0 of it (R31). -/
theorem irqEnWord_getLsbD_zero (w : Word) : irqEnWord (w.getLsbD 0) = w &&& 1#64 := by
  apply BitVec.eq_of_getLsbD_eq
  intro i hi
  cases i <;> simp [irqEnWord]

theorem paramsWord_eq : paramsWord = 0x0000180303FFFFFF := by decide

/-! ### Reads (R27) -/

theorem accessDefined_aligned {off : Byte} (h : off.toNat % 8 = 0) : accessDefined off 8 = true := by
  simp [accessDefined, h]

theorem accessDefined_misshapen {off : Byte} {width : Nat} (h : ¬(width = 8 ∧ off.toNat % 8 = 0)) :
    accessDefined off width = false := by
  simpa [accessDefined] using h

theorem hostOp_rd {off : Byte} (h : off.toNat % 8 = 0) (s : State) :
    hostOp (.rd off 8) s = .next (readReg (regAt off) s) := by
  rw [hostOp, if_pos (accessDefined_aligned h)]

/-- Outside U4 a read gives the held value and changes nothing else. -/
theorem readReg_held {r : Reg} {s : State} (h : isResult r = false ∨ s.status.busy = false) :
    readReg r s = { s with busData := regValue s r } := by
  rw [readReg, if_neg (by simpa [Decidable.imp_iff_not_or] using h)]

/-- A read changes at most the data the host gets and the count of draws. -/
theorem readReg_frame (r : Reg) (s : State) :
    readReg r s = { s with busData := (readReg r s).busData, draws := (readReg r s).draws } := by
  rw [readReg]; split <;> rfl

/-! ### Writes (R26 to R43) -/

theorem hostOp_wr {off : Byte} (h : off.toNat % 8 = 0) (w : Word) (s : State) :
    hostOp (.wr off 8 w) s = writeReg (regAt off) w s := by
  rw [hostOp, if_pos (accessDefined_aligned h)]

/-- A write to a register other than CMD and STATUS: that register holds the stored value, every other one its own, and
no other field of the state changes. -/
theorem writeReg_stores {r : Reg} (hc : r ≠ .cmd) (hs : r ≠ .status) (w : Word) (s : State) :
    ∃ t, writeReg r w s = .next t ∧
      (∀ r', regValue t r' = if r' = r then storedValue r w (regValue s r) else regValue s r') ∧
      { t with
        doneIe := s.doneIe, srcAddr := s.srcAddr, srcLen := s.srcLen, dstAddr := s.dstAddr, dstCap := s.dstCap
        position := s.position, windowLimit := s.windowLimit } = s := by
  cases r with
  | cmd => exact absurd rfl hc
  | status => exact absurd rfl hs
  | irqEn =>
    refine ⟨_, rfl, fun r' => ?_, rfl⟩
    cases r' <;> simp [regValue, storedValue, ← irqEnWord_getLsbD_zero]
  | srcAddr | srcLen | dstAddr | dstCap | position | windowLimit =>
    refine ⟨_, rfl, fun r' => ?_, rfl⟩
    cases r' <;> simp [regValue, storedValue]
  | resultLen | resFlagCount | resContentLen | matchResult | params | reserved =>
    refine ⟨_, rfl, fun r' => ?_, rfl⟩
    split
    · next h => subst h; rfl
    · rfl

/-! ### The statements -/

/-- Settles O7: `writeReg_stores`, carried from registers to offsets; two offsets of one register are both reserved. -/
theorem registerWritesReadBack : Obligations.RegisterWritesReadBack := by
  intro s off w h8 h0 hs
  obtain ⟨hc, hs⟩ := regAt_ne_cmd_status h0 hs
  obtain ⟨t, ht, hreg, hframe⟩ := writeReg_stores hc hs w s
  refine ⟨t, by rw [hostOp_wr h8, ht], fun off' _ => ?_, hframe⟩
  rw [hreg]
  by_cases he : off' = off
  · rw [if_pos he, if_pos (congrArg regAt he)]
  · rw [if_neg he]
    split
    · next hr => rw [hr, regAt_eq_reserved hr he]; rfl
    · rfl

/-- Settles O8: a read is `readReg`, which gives the held value outside U4. -/
theorem registerReadsHaveNoEffect : Obligations.RegisterReadsHaveNoEffect := by
  intro s off h8
  have hheld : (s.status.busy = false ∨ off.toNat < 0x48 ∨ 0x60 < off.toNat) →
      (readReg (regAt off) s).busData = regValue s (regAt off) := fun h => by
    rw [readReg_held (h.symm.imp_left isResult_regAt_of_outside)]
  refine ⟨_, hostOp_rd h8 s, by rw [readReg_frame], hheld, ?_, fun h => ?_⟩
  · rintro rfl
    rw [hheld (.inr (by decide)), show regAt 0x68 = .params from rfl, regValue, paramsWord_eq]
  · rw [hheld (by omega), regAt_of_ge h, regValue]

/-- Settles O52: a read of a register that holds a value gives it, and a write is the register's own. -/
theorem eachOffsetReadsAndWritesItsField : Obligations.EachOffsetReadsAndWritesItsField := by
  intro s w
  refine ⟨?_, fun hb => ?_, ?_, ?_, fun off hge h8 => ?_⟩
  · refine ⟨?_, ?_, ?_, ?_, ?_, ?_, ?_, ?_, ?_, ?_⟩ <;> rw [hostOp_rd (by decide), readReg_held (.inl rfl)] <;> rfl
  · refine ⟨?_, ?_, ?_, ?_⟩ <;> rw [hostOp_rd (by decide), readReg_held (.inr hb)] <;> rfl
  · refine ⟨?_, ?_, ?_, ?_, ?_, ?_, ?_⟩ <;> rw [hostOp_wr (by decide)] <;> rfl
  · intro off hoff
    simp only [List.mem_cons, List.not_mem_nil, or_false] at hoff
    rcases hoff with rfl | rfl | rfl | rfl | rfl <;> rw [hostOp_wr (by decide)] <;> rfl
  · have hr := regAt_of_ge hge
    rw [hostOp_wr h8, hostOp_rd h8, hr, readReg_held (.inl rfl)]
    exact ⟨rfl, rfl⟩

/-- Settles O53, from the bits of the word. -/
theorem matchResultWordFields : Obligations.MatchResultWordFields := by
  intro s
  simp only [regValue, getLsbD_matchResultWord]
  refine ⟨fun i hi => if_pos hi, fun i hi => ?_, fun i hi => ?_⟩
  · rw [if_neg (by omega), Nat.add_sub_cancel_left]
  · rw [if_neg (by omega), BitVec.getLsbD_of_ge _ _ (by omega)]

/-- Settles O10: each field by its bit number; the codes are the table's. -/
theorem statusWordFields : Obligations.StatusWordFields := by
  intro s
  simp only [regValue]
  refine ⟨getLsbD_statusWord _ 0, getLsbD_statusWord _ 1, getLsbD_statusWord _ 2, getLsbD_statusWord _ 3,
    fun i _ => ?_, fun i h4 h8 => ?_, fun i hi => ?_, by decide⟩
  · rw [getLsbD_statusWord_of_ge _ (by omega), Nat.add_sub_cancel_left]
  · rw [getLsbD_statusWord, if_neg (by omega), if_neg (by omega), if_neg (by omega), if_neg (by omega), if_neg (by omega)]
  · rw [getLsbD_statusWord_of_ge _ (by omega), BitVec.getLsbD_of_ge _ _ (by omega)]

/-- Clearing a STATUS field clears its bits of the word and no other (R30). -/
theorem getLsbD_statusWord_statusCleared (w : Word) (st : Status) (i : Nat) :
    (statusWord (statusCleared w st)).getLsbD i =
      ((statusWord st).getLsbD i &&
        !((decide (1 ≤ i ∧ i ≤ 3) && w.getLsbD i) || (decide (8 ≤ i ∧ i < 16) && w.getLsbD 2))) := by
  rcases Nat.lt_or_ge i 8 with hi | hi
  · simp only [getLsbD_statusWord, statusCleared]
    interval_cases i <;> simp
  · rw [getLsbD_statusWord_of_ge _ hi, getLsbD_statusWord_of_ge _ hi]
    rcases Nat.lt_or_ge i 16 with h16 | h16
    · cases h2 : w[2] <;> simp [statusCleared, hi, h16, h2, show ¬i ≤ 3 by omega, show causeCode .none = 0 from rfl]
    · rw [BitVec.getLsbD_of_ge _ _ (by omega), BitVec.getLsbD_of_ge _ _ (by omega), Bool.false_and]

/-- While no field but BUSY and DROPPED is set a STATUS write can change DROPPED only (R30). -/
theorem statusCleared_keeps {st : Status} (hd : st.done = false) (he : st.error = false) (hc : st.cause = .none) (w : Word) :
    { statusCleared w st with dropped := st.dropped } = st := by
  obtain ⟨busy, done, error, dropped, cause⟩ := st
  subst hd he hc
  simp [statusCleared]

/-- Settles O11: a STATUS write is `writeStatus`; its word changes bit by bit as `getLsbD_statusWord_statusCleared` says. -/
theorem statusWriteOneToClear : Obligations.StatusWriteOneToClear := by
  intro s w
  refine ⟨writeStatus w s, hostOp_wr (by decide) w s, rfl, getLsbD_statusWord_statusCleared w s.status, fun h => ?_,
    fun ⟨_, hbusy, _⟩ hb => ?_⟩
  · simp [irq, statusCleared, h]
  · obtain ⟨hd, he, hc⟩ := hbusy hb
    exact statusCleared_keeps hd he hc w

/-- The RUN phase by the command word's value (R45, R81). -/
theorem phaseOf_eq (w : Word) :
    phaseOf w = if w.toNat = 1 then .runCompress else if w.toNat = 2 then .runDecompress
      else if w.toNat = 3 then .runFind else .runBadCmd := by
  rcases phaseOf_cases w with ⟨_, h, rfl⟩ | ⟨_, h, rfl⟩ | ⟨_, h, rfl⟩ | ⟨⟨e, he⟩, h, _⟩
  · exact h
  · exact h
  · exact h
  · have hne : ∀ {n : Nat} {i : Instr}, decodeCommand (BitVec.ofNat 64 n) = .ok i → w.toNat ≠ n := by
      rintro _ i hi rfl
      rw [BitVec.ofNat_toNat, BitVec.setWidth_eq, he] at hi
      cases hi
    rw [h, if_neg (hne (i := .compress) rfl), if_neg (hne (i := .decompress) rfl), if_neg (hne (i := .findMatch) rfl)]

/-- Settles O12: acceptance, field by field. -/
theorem cmdWriteWhenIdleIsAccepted : Obligations.CmdWriteWhenIdleIsAccepted := by
  intro s w hb hd
  refine ⟨acceptCommand w s, ?_, rfl, fun i => ?_, rfl, phaseOf_eq w, rfl⟩
  · rw [hostOp_wr (by decide)]
    show writeCmd w s = _
    rw [writeCmd, if_neg (by simp [hb]), if_neg (by simp [hd])]
  · rw [regValue, getLsbD_statusWord, acceptCommand_status]
    by_cases h0 : i = 0
    · simp [h0]
    · by_cases h3 : i = 3 <;> simp [h0, h3, causeCode]

theorem regValue_reset_of_ne_params {r : Reg} (h : r ≠ .params) : regValue State.reset r = 0 := by
  cases r with
  | params => exact absurd rfl h
  | cmd | status | irqEn | srcAddr | srcLen | dstAddr | dstCap | position | windowLimit | resultLen | resFlagCount
  | resContentLen | matchResult | reserved => decide

/-- Every register at reset (R26, R230). -/
theorem regValue_reset (off : Byte) :
    regValue State.reset (regAt off) = if off = 0x68 then 0x0000180303FFFFFF else 0 := by
  split
  · next h => subst h; exact paramsWord_eq
  · next h => exact regValue_reset_of_ne_params fun hr => h (eq_regOffset_of_regAt hr (by decide))

/-- Settles O18: the reset input leaves the registers of `State.reset`. -/
theorem resetValues : Obligations.ResetValues := by
  intro s
  refine ⟨resetEngine s, rfl, ?_, rfl, rfl, rfl, rfl, rfl⟩
  rintro u (rfl | rfl)
  · exact ⟨fun off _ => regValue_reset off, rfl, rfl, rfl, rfl⟩
  · exact ⟨fun off _ => regValue_reset off, rfl, rfl, rfl, rfl⟩

end Sys2Proof.Machine

/-! PROOFS. What one step can do, said once: every host operation and every engine turn that answers a next state makes
one of a few moves (10_state.md R26 to R46, 92_eei_decisions.md D31). -/

namespace Sys2Proof.Machine

/-! ### The host's moves -/

/-- What a host operation that answers a next state can do. `quiet` changes only what the engine never writes: IRQ_EN,
the operand registers, the host's data and program, and the count of draws. -/
inductive HostMove (s : State) : HostOp → State → Prop
  | quiet {op : HostOp} {t : State}
      (h : t = { s with
        doneIe := t.doneIe, srcAddr := t.srcAddr, srcLen := t.srcLen, dstAddr := t.dstAddr, dstCap := t.dstCap
        position := t.position, windowLimit := t.windowLimit, draws := t.draws, host := t.host
        busData := t.busData }) : HostMove s op t
  | drop (w : Word) (hb : s.status.busy = true) :
      HostMove s (.wr 0x00 8 w) { s with status := statusDropped s.status }
  | accept (w : Word) (hb : s.status.busy = false) : HostMove s (.wr 0x00 8 w) (acceptCommand w s)
  | clear (w : Word) : HostMove s (.wr 0x08 8 w) (writeStatus w s)
  | store (a : Word) (v : Byte) : HostMove s (.store a v) (writeBytes s a.toNat [v])
  | reset : HostMove s .reset (resetEngine s)

theorem readReg_hostMove (r : Reg) (op : HostOp) (s : State) : HostMove s op (readReg r s) :=
  .quiet (by rw [readReg_frame])

theorem writeCmd_hostMove {w : Word} {s t : State} (h : writeCmd w s = .next t) : HostMove s (.wr 0x00 8 w) t := by
  rw [writeCmd] at h
  split at h
  · next hb => cases h; exact .drop w hb
  · next hb =>
    split at h
    · cases h
    · cases h; exact .accept w (by simpa using hb)

theorem writeReg_hostMove {off : Byte} {w : Word} {s t : State} (h : writeReg (regAt off) w s = .next t) :
    HostMove s (.wr off 8 w) t := by
  cases hr : regAt off with
  | cmd =>
    obtain rfl := regAt_cmd hr
    exact writeCmd_hostMove h
  | status =>
    obtain rfl := regAt_status hr
    cases h; exact .clear w
  | irqEn | srcAddr | srcLen | dstAddr | dstCap | position | windowLimit | resultLen | resFlagCount | resContentLen
  | matchResult | params | reserved =>
    rw [hr] at h; cases h; exact .quiet rfl

theorem hostStore_hostMove {a : Word} {v : Byte} {s t : State} (h : hostStore a v s = .next t) :
    HostMove s (.store a v) t := by
  rw [hostStore] at h
  split at h
  · cases h
  · split at h
    · cases h
    · cases h; exact .store a v

theorem hostLoad_hostMove {a : Word} {s t : State} (h : hostLoad a s = .next t) : HostMove s (.load a) t := by
  rw [hostLoad] at h
  split at h
  · cases h
  · split at h <;> cases h <;> exact .quiet rfl

theorem hostOp_hostMove {op : HostOp} {s t : State} (h : hostOp op s = .next t) : HostMove s op t := by
  cases op with
  | wr off width v =>
    rw [hostOp] at h
    split at h
    · next ha =>
      obtain rfl : width = 8 := by simp [accessDefined] at ha; exact ha.1
      exact writeReg_hostMove h
    · cases h
  | rd off width =>
    rw [hostOp] at h
    split at h
    · cases h; exact readReg_hostMove _ _ s
    · cases h
  | wait =>
    rw [hostOp] at h
    split at h
    · cases h; exact .quiet rfl
    · cases h; exact readReg_hostMove _ _ s
  | store a v => exact hostStore_hostMove h
  | load a => exact hostLoad_hostMove h
  | reset => cases h; exact .reset

/-! ### What an instruction can do -/

/-- The end of a replay, successful or not, completes the command (R156, R157, R206). -/
theorem settleReplay_completed (n : Nat) (s : State) : Completed s (settleReplay s (replay n s)) := by
  cases h : replay n s with
  | ok u =>
    obtain ⟨hd, -⟩ := replay_done h
    refine (complete_completed _ _ _ _ u).of_frame ?_ ?_ hd.wf <;> rw [hd.frame]
    simp [SameConfiguration]
  | error c => exact raiseReplayFault_completed c (by rcases replay_error h with rfl | rfl | rfl | rfl | rfl <;> simp) s

theorem execCompress_completed (s : State) : ∃ t, execCompress s = .next t ∧ Completed s t := by
  cases h : compressChecks s.latched with
  | some c => exact ⟨_, by rw [execCompress, h], raiseFault_completed c (checks_cause_ne (.inr (.inl h))) s⟩
  | none =>
    refine ⟨_, by rw [execCompress, h], ?_⟩
    obtain ⟨f, hf⟩ := compressLoop_done s
    rw [hf]
    exact (compressFinish_completed _).of_frame (by simp [SameConfiguration]) rfl id

theorem execDecompress_completed (s : State) : ∃ t, execDecompress s = .next t ∧ Completed s t := by
  obtain ⟨c, h, hc⟩ | ⟨h, -⟩ := decompressBegin_cases s
  · exact ⟨_, by rw [execDecompress, h], raiseFault_completed c hc s⟩
  · refine ⟨_, by rw [execDecompress, h], ?_⟩
    exact (settleReplay_completed _ { s with dec := headerRegs s, inLoop := true }).of_frame
      (by simp [SameConfiguration]) rfl id

theorem execFindMatch_completed (s : State) : ∃ t, execFindMatch s = .next t ∧ Completed s t := by
  cases h : findChecks s.latched with
  | some c => exact ⟨_, by rw [execFindMatch, h], raiseFault_completed c (checks_cause_ne (.inl h)) s⟩
  | none =>
    refine ⟨_, by rw [execFindMatch, h], ?_⟩
    rw [findLoop_findBegin]
    exact (complete_completed _ _ _ _ _).of_frame (by simp [SameConfiguration]) rfl id

/-- Every command answers a completion (R204, R205). -/
theorem exec_command {i : Instr} (hi : tokenDecision i = none) (s : State) : ∃ t, exec i s = .next t ∧ Completed s t := by
  cases i with
  | compress => exact execCompress_completed s
  | decompress => exact execDecompress_completed s
  | findMatch => exact execFindMatch_completed s
  | lit b => cases hi
  | matchRecord d l => cases hi

/-- A token answers a next state only where the addresses of its replay exist (log 23). -/
theorem replayInSpace_of_exec {i : Instr} {s t : State} (hi : tokenDecision i ≠ none) (h : exec i s = .next t) :
    replayInSpace s = true := by
  by_contra hn
  cases i with
  | compress => exact hi rfl
  | decompress => exact hi rfl
  | findMatch => exact hi rfl
  | lit b => rw [exec, execLit, if_neg hn] at h; cases h
  | matchRecord d l => rw [exec, execMatchRecord, if_neg hn] at h; cases h

/-- A token that answers a next state is done, or has completed the command with a fault. -/
theorem exec_token_cases {i : Instr} {s t : State} (hi : tokenDecision i ≠ none) (h : exec i s = .next t) :
    Completed s t ∨ TokenDone s t := by
  obtain ⟨u, he, -, hd⟩ | ⟨c, he, -, hc⟩ := exec_token i s hi (replayInSpace_of_exec hi h)
  · rw [h] at he; cases he; exact .inr hd
  · rw [h] at he; cases he; exact .inl (raiseReplayFault_completed c hc s)

theorem exec_cases {i : Instr} {s t : State} (h : exec i s = .next t) : Completed s t ∨ TokenDone s t := by
  by_cases hi : tokenDecision i = none
  · obtain ⟨u, he, hu⟩ := exec_command hi s
    rw [h] at he; cases he; exact .inl hu
  · exact exec_token_cases hi h

/-- Settles O39: a completion keeps the configuration, and a token changes memory and cursors only. -/
theorem instructionsKeepTheConfiguration : Obligations.InstructionsKeepTheConfiguration := by
  intro i s t h
  obtain hc | hd := exec_cases h
  · exact ⟨hc.config, hc.latched⟩
  · rw [hd.frame]; simp [SameConfiguration]

/-! ### The engine's moves -/

/-- What an engine turn that answers a next state can do, in either granularity: nothing, complete the running command,
begin one whose checks pass, or run one iteration of one in progress. -/
inductive EngineMove (s : State) : State → Prop
  | stay : EngineMove s s
  | complete {t : State} (hb : s.status.busy = true) (h : Completed s t) : EngineMove s t
  | beginCompress (hb : s.status.busy = true) (hd : decodeCommand s.latched.cmd = .ok .compress)
      (hc : compressChecks s.latched = none) : EngineMove s (compressBegin s)
  | beginDecompress (hb : s.status.busy = true) (hd : decodeCommand s.latched.cmd = .ok .decompress)
      (hc : decompressChecks s.latched = none) (hs : blobSize (headerRegs s) ≤ s.latched.srcLen.toNat)
      (ho : (headerRegs s).ol.toNat ≤ s.latched.dstCap.toNat) :
      EngineMove s { s with dec := headerRegs s, inLoop := true }
  | beginFind (hb : s.status.busy = true) (hd : decodeCommand s.latched.cmd = .ok .findMatch)
      (hc : findChecks s.latched = none) : EngineMove s (findBegin s)
  | encode (hb : s.status.busy = true) (hl : s.inLoop = true) (hp : s.phase = .runCompress)
      (hlt : s.enc.pos.toNat < s.latched.srcLen.toNat) : EngineMove s (compressIteration s)
  | token {t : State} (hb : s.status.busy = true) (hl : s.inLoop = true) (hp : s.phase = .runDecompress)
      (hlt : s.dec.di.toNat < s.dec.fc.toNat) (h : TokenDone s t) : EngineMove s t
  | candidate (hb : s.status.busy = true) (hl : s.inLoop = true) (hp : s.phase = .runFind)
      (hlt : s.finder.d.toNat < s.finder.wl.toNat) : EngineMove s (findIteration s)

theorem runCommand_of_decode {s : State} {i : Instr} (h : decodeCommand s.latched.cmd = .ok i) :
    runCommand s = exec i s := by
  rw [runCommand, fetchCommand, h]

section Moves

variable {s t : State} (hb : s.status.busy = true)
include hb

theorem badCommand_engineMove : EngineMove s (badCommand s) := .complete hb (raiseFault_completed _ (by decide) s)

/-- A command word decodes to a command, never to a token. -/
theorem runCommand_engineMove (h : runCommand s = .next t) : EngineMove s t := by
  rw [runCommand, fetchCommand] at h
  split at h
  · next i hd =>
    have hi : tokenDecision i = none := by
      rcases (decodeCommand_ok_iff _ _).1 hd with ⟨-, rfl⟩ | ⟨-, rfl⟩ | ⟨-, rfl⟩ <;> rfl
    obtain ⟨u, he, hu⟩ := exec_command hi s
    rw [h] at he; cases he; exact .complete hb hu
  · cases h; exact badCommand_engineMove hb

theorem beginCommand_engineMove : EngineMove s (beginCommand s) := by
  rw [beginCommand, fetchCommand]
  split
  · next hd =>
    split
    · next c hc => exact .complete hb (raiseFault_completed c (checks_cause_ne (.inr (.inl hc))) s)
    · next hc => exact .beginCompress hb hd hc
  · next hd =>
    obtain ⟨c, h, hc⟩ | ⟨h, hc, hs, ho⟩ := decompressBegin_cases s
    · rw [h]; exact .complete hb (raiseFault_completed c hc s)
    · rw [h]; exact .beginDecompress hb hd hc hs ho
  · next hd =>
    split
    · next c hc => exact .complete hb (raiseFault_completed c (checks_cause_ne (.inl hc)) s)
    · next hc => exact .beginFind hb hd hc
  · exact badCommand_engineMove hb
  · exact badCommand_engineMove hb
  · exact badCommand_engineMove hb

variable (hl : s.inLoop = true)
include hl

theorem compressStep_engineMove (hp : s.phase = .runCompress) (h : compressStep s = .next t) : EngineMove s t := by
  rw [compressStep] at h
  split at h
  · split at h
    · next hlt => cases h; exact .encode hb hl hp hlt
    · cases h; exact .complete hb (compressFinish_completed s)
  · cases h

theorem findStep_engineMove (hp : s.phase = .runFind) (h : findStep s = .next t) : EngineMove s t := by
  rw [findStep] at h
  split at h
  · next hlt =>
    split at h
    · cases h; exact .candidate hb hl hp hlt
    · cases h
  · cases h; exact .complete hb (complete_completed _ _ _ _ s)

theorem replayStep_engineMove (hp : s.phase = .runDecompress) (h : replayStep s = .next t) : EngineMove s t := by
  rw [replayStep] at h
  split at h
  · next hlt =>
    split at h
    · obtain hc | hd := exec_cases h
      · exact .complete hb hc
      · exact .token hb hl hp hlt hd
    · split at h
      · cases h; exact .complete hb (raiseReplayFault_completed _ (by decide) s)
      · cases h
  · split at h
    · cases h; exact .complete hb (settleReplay_completed 0 s)
    · cases h

theorem engineIteration_engineMove (h : engineIteration s = .next t) : EngineMove s t := by
  rw [engineIteration] at h
  split at h
  · cases h; exact .stay
  · next hp => exact compressStep_engineMove hb hl hp h
  · next hp => exact replayStep_engineMove hb hl hp h
  · next hp => exact findStep_engineMove hb hl hp h
  · cases h; exact badCommand_engineMove hb

end Moves

theorem engineTurn_engineMove {s t : State} (h : engineTurn s = .next t) : EngineMove s t := by
  rw [engineTurn] at h
  split at h
  · next hb =>
    split at h
    · next hl => exact engineIteration_engineMove hb hl h
    · exact runCommand_engineMove hb h
  · cases h; exact .stay

theorem engineFineTurn_engineMove {s t : State} (h : engineFineTurn s = .next t) : EngineMove s t := by
  rw [engineFineTurn] at h
  split at h
  · next hb =>
    split at h
    · next hl => exact engineIteration_engineMove hb hl h
    · cases h; exact beginCommand_engineMove hb
  · cases h; exact .stay

/-- A move of the engine keeps the latched configuration (log 29). -/
theorem EngineMove.latched {s t : State} (h : EngineMove s t) : t.latched = s.latched := by
  cases h with
  | complete _ h => exact h.latched
  | token _ _ _ _ h => rw [h.frame]
  | stay | beginCompress | beginDecompress | beginFind | encode | candidate => rfl

/-- A move of the engine keeps STATUS unless it completes the running command (R245). -/
theorem EngineMove.status {s t : State} (h : EngineMove s t) :
    t.status = s.status ∨ (s.status.busy = true ∧ Completed s t) := by
  cases h with
  | complete hb h => exact .inr ⟨hb, h⟩
  | token _ _ _ _ h => exact .inl (by rw [h.frame])
  | stay | beginCompress | beginDecompress | beginFind | encode | candidate => exact .inl rfl

/-! ### The step -/

/-- The step is the host's next operation when it is the host's turn (R97). -/
theorem step_host {s : State} {op : HostOp} {rest : List HostOp} (hn : nextTurn s = .host) (hh : s.host = op :: rest) :
    step s = hostOp op { s with turns := s.turns.tail, host := rest } := by
  rw [step, hn]
  simp only [hostTurn, hh]

/-- Everything a step that answers a next state can do: the host has nothing to do, or makes a move, or the engine
does. -/
theorem step_cases {s t : State} (h : step s = .next t) :
    t = { s with turns := s.turns.tail } ∨
    (nextTurn s = .host ∧ ∃ op rest, s.host = op :: rest ∧ HostMove { s with turns := s.turns.tail, host := rest } op t) ∨
    (nextTurn s ≠ .host ∧ EngineMove { s with turns := s.turns.tail } t) := by
  cases hn : nextTurn s with
  | host =>
    cases hh : s.host with
    | nil =>
      rw [step, hn] at h
      simp only [hostTurn, hh] at h
      cases h; exact .inl rfl
    | cons op rest =>
      rw [step_host hn hh] at h
      exact .inr (.inl ⟨rfl, op, rest, rfl, hostOp_hostMove h⟩)
  | engine =>
    rw [step, hn] at h
    exact .inr (.inr ⟨by simp, engineTurn_engineMove h⟩)
  | engineFine =>
    rw [step, hn] at h
    exact .inr (.inr ⟨by simp, engineFineTurn_engineMove h⟩)

/-- Settles O9: the step is the host's operation, and its access is not defined. -/
theorem misshapenAccessIsRefused : Obligations.MisshapenAccessIsRefused := by
  intro s off width v rest hw hn
  have ha := accessDefined_misshapen hw
  refine ⟨fun hh => ?_, fun hh => ?_⟩ <;> rw [step_host hn hh, hostOp, if_neg (by simp [ha])]

/-- Settles O55: the step is the host's operation, whose first check is for a device. -/
theorem hostByteAccessToADeviceIsRefused : Obligations.HostByteAccessToADeviceIsRefused := by
  intro s a v rest hd hn
  refine ⟨fun hh => ?_, fun hh => ?_⟩ <;> rw [step_host hn hh, hostOp]
  · exact if_pos hd
  · exact if_pos hd

/-- Settles O44: the engine's turn begins the command, whole. -/
theorem stepRunsTheLatchedCommand : Obligations.StepRunsTheLatchedCommand := by
  intro s i hb hl hn hd
  rw [step, hn]
  exact (engineTurn_begin { s with turns := s.turns.tail } hb hl).trans (runCommand_of_decode hd)

/-- Settles O57: neither agent's other moves touch the latched configuration. -/
theorem onlyAcceptanceAndResetWriteTheLatchedConfiguration :
    Obligations.OnlyAcceptanceAndResetWriteTheLatchedConfiguration := by
  intro s t h hne
  obtain rfl | ⟨hn, op, rest, hh, hm⟩ | ⟨-, hm⟩ := step_cases h
  · exact absurd rfl hne
  · refine ⟨hn, op, rest, hh, ?_⟩
    cases hm with
    | quiet h => exact absurd (by rw [h]) hne
    | drop w hb => exact absurd rfl hne
    | accept w hb => exact .inr ⟨w, rfl, hb, rfl⟩
    | clear w => exact absurd rfl hne
    | store a v => exact absurd rfl hne
    | reset => exact .inl rfl
  · exact absurd hm.latched hne

end Sys2Proof.Machine

/-! PROOFS. The invariant of the machine is kept by every move of the host and of the engine, so by every step
(10_state.md R28, R29, R45, 40_match_finder.md R103, 42_encoder.md R137, 43_decoder.md R159). -/

namespace Sys2Proof.Machine

/-! ### Where no command is in progress -/

/-- With no command in progress the invariant asks nothing of the working registers. -/
theorem inv_of_not_inLoop {s : State} (hm : memWf s.mem = true) (hs : StatusLegal s) (hc : CommandLegal s)
    (hl : s.inLoop = false) : Inv s :=
  have hn : ∀ {P : Prop}, s.inLoop = true → P := fun h => by rw [hl] at h; cases h
  ⟨hm, hs, hc, hn, hn, hn, hn⟩

theorem Completed.inv {s t : State} (h : Completed s t) (hm : memWf s.mem = true) : Inv t := by
  have hn : ∀ {P : Prop}, t.status.busy = true → P := fun hb => by rw [h.busy] at hb; cases hb
  exact inv_of_not_inLoop (h.wf hm) ⟨by simp [h.phase, h.busy], hn, h.cause⟩ hn h.loop

theorem phaseOf_ne_idle (w : Word) : phaseOf w ≠ .idle := by
  rcases phaseOf_cases w with ⟨-, h, -⟩ | ⟨-, h, -⟩ | ⟨-, h, -⟩ | ⟨-, h, -⟩ <;> simp [h]

theorem inv_acceptCommand {s : State} (hm : memWf s.mem = true) (w : Word) : Inv (acceptCommand w s) :=
  inv_of_not_inLoop hm ⟨by simp [phaseOf_ne_idle], by simp, by simp⟩ (fun _ => ⟨rfl, rfl⟩) rfl

theorem memWf_abandonCommand {s : State} (hm : memWf s.mem = true) : memWf (abandonCommand s).mem = true := by
  rw [abandonCommand]
  split
  · exact memWf_memWrite hm _ _
  · exact hm

theorem inv_resetEngine {s : State} (hm : memWf s.mem = true) : Inv (resetEngine s) :=
  inv_of_not_inLoop (memWf_abandonCommand hm)
    (by show StatusLegal State.reset; decide) (by show CommandLegal State.reset; decide) rfl

/-! ### The host's moves -/

/-- A STATUS write keeps STATUS legal (R29, R30): ERROR and CAUSE fall together. -/
theorem statusLegal_writeStatus {s : State} (h : StatusLegal s) (w : Word) : StatusLegal (writeStatus w s) := by
  obtain ⟨hp, hb, he⟩ := h
  refine ⟨hp, fun hbusy => ?_, ?_⟩
  · obtain ⟨h1, h2, h3⟩ := hb hbusy
    simp [statusCleared, h1, h2, h3]
  · cases h2 : w[2] <;> simp [statusCleared, h2, he]

theorem HostMove.inv {op : HostOp} {s t : State} (h : HostMove s op t) (hi : Inv s) : Inv t := by
  have ⟨hm, hs, hrest⟩ := hi
  cases h with
  | quiet h => rw [h]; exact hi
  | drop w hb => exact hi
  | accept w hb => exact inv_acceptCommand hm w
  | clear w => exact ⟨hm, statusLegal_writeStatus hs w, hrest⟩
  | store a v => exact ⟨memWf_memWrite hm _ _, hs, hrest⟩
  | reset => exact inv_resetEngine hm

/-! ### Where a command is in progress -/

section InProgress

variable {s : State} (hi : Inv s) (hb : s.status.busy = true)
include hi hb

/-- A move within a running command that touches only memory and the working registers keeps the invariant when memory
stays canonical and the running phase's own bounds hold. -/
theorem Inv.advance {t : State}
    (h : t = { s with enc := t.enc, dec := t.dec, finder := t.finder, mem := t.mem, inLoop := true })
    (hm : memWf t.mem = true) (hp : s.phase ≠ .runBadCmd) (hf : s.phase = .runFind → FindProgress t)
    (hc : s.phase = .runCompress → CompressProgress t) (hd : s.phase = .runDecompress → DecompressProgress t) :
    Inv t := by
  obtain ⟨-, hs, hcmd, -⟩ := hi
  have hpt : s.phase = t.phase := by rw [h]
  refine ⟨hm, ?_, ?_, ?_, fun hl hp => hf (hpt.trans hp) hl hp, fun hl hp => hc (hpt.trans hp) hl hp,
    fun hl hp => hd (hpt.trans hp) hl hp⟩
  · rw [h]; exact hs
  · rw [h]; exact hcmd
  · rw [h]; exact fun _ => ⟨hb, hp⟩

/-- The phase of a running command is the one its word decodes to (R28, R45). -/
theorem Inv.phase_of_decode {i : Instr} (hd : decodeCommand s.latched.cmd = .ok i) :
    (i = .compress → s.phase = .runCompress) ∧ (i = .decompress → s.phase = .runDecompress) ∧
      (i = .findMatch → s.phase = .runFind) := by
  obtain ⟨-, -, hcmd, -⟩ := hi
  rw [(hcmd hb).2, phaseOf, hd]
  exact ⟨by rintro rfl; rfl, by rintro rfl; rfl, by rintro rfl; rfl⟩

end InProgress

/-! ### FIND_MATCH's registers (R100, R103) -/

/-- The bounds of a query's registers: no candidate past the window, no agreement past the forward bound, and the best
pair is (0, 0) or a tried displacement with a length. -/
structure FinderOk (f : FinderRegs) : Prop where
  d_le : f.d.toNat ≤ f.wl.toNat
  k_le : f.k.toNat ≤ f.maxlen.toNat
  bestL_le : f.bestL.toNat ≤ f.maxlen.toNat
  bestD_le : f.bestD.toNat ≤ f.d.toNat
  none_iff : f.bestL = 0 ↔ f.bestD = 0

theorem finderStart_ok (p : Word) (wl : BitVec 16) (maxlen : Byte) : FinderOk (finderStart p wl maxlen) where
  d_le := Nat.zero_le _
  k_le := Nat.zero_le _
  bestL_le := Nat.zero_le _
  bestD_le := Nat.le_refl _
  none_iff := by simp [finderStart]

theorem finderCandidate_operands (B : Nat → Byte) (f : FinderRegs) :
    (finderCandidate B f).p = f.p ∧ (finderCandidate B f).wl = f.wl ∧ (finderCandidate B f).maxlen = f.maxlen := by
  rw [finderCandidate]
  split <;> exact ⟨rfl, rfl, rfl⟩

theorem FinderOk.candidate {f : FinderRegs} (h : FinderOk f) (B : Nat → Byte) (hd : f.d.toNat < f.wl.toNat) :
    FinderOk (finderCandidate B f) := by
  have hd1 : (f.d + 1).toNat = f.d.toNat + 1 := by
    have := f.wl.isLt
    rw [BitVec.toNat_add]
    exact Nat.mod_eq_of_lt (by simp; omega)
  have hk : (BitVec.ofNat 8 (matchLen B f.maxlen.toNat (f.p.toNat - (f.d + 1).toNat) f.p.toNat)).toNat ≤
      f.maxlen.toNat := by
    rw [toNat_ofNat_matchLen]; exact matchLen_le _ _ _ _
  rw [finderCandidate]
  generalize BitVec.ofNat 8 (matchLen B f.maxlen.toNat (f.p.toNat - (f.d + 1).toNat) f.p.toNat) = k at hk ⊢
  split
  · refine ⟨by simp only; omega, hk, hk, Nat.le_refl _, ?_⟩
    rw [eq_zero_iff_toNat, eq_zero_iff_toNat]
    simp only
    omega
  · have := h.bestD_le
    exact ⟨by simp only; omega, hk, h.bestL_le, by simp only; omega, h.none_iff⟩

theorem findProgress_iff (s : State) :
    FindProgress s ↔ (s.inLoop = true → s.phase = .runFind → findChecks s.latched = none ∧
      (s.finder.p = s.latched.position ∧ s.finder.wl = findWindow s.latched ∧ s.finder.maxlen = findMaxlen s.latched) ∧
      FinderOk s.finder) := by
  refine forall₂_congr fun _ _ => ⟨?_, ?_⟩
  · rintro ⟨hc, hp, hw, hm, h1, h2, h3, h4, h5⟩
    exact ⟨hc, ⟨hp, hw, hm⟩, h1, h2, h3, h4, h5⟩
  · rintro ⟨hc, ⟨hp, hw, hm⟩, h1, h2, h3, h4, h5⟩
    exact ⟨hc, hp, hw, hm, h1, h2, h3, h4, h5⟩

/-! ### COMPRESS's registers (R121, R137) -/

theorem encRegsZero_encOk (n : Nat) : EncOk n EncRegs.zero :=
  ⟨Nat.zero_le _, rfl, Nat.le_refl _, rfl, Nat.le_refl _, rfl, rfl⟩

theorem compressProgress_iff (s : State) :
    CompressProgress s ↔ (s.inLoop = true → s.phase = .runCompress → compressChecks s.latched = none ∧
      EncOk s.latched.srcLen.toNat s.enc) := by
  refine forall₂_congr fun _ _ => ⟨?_, ?_⟩
  · rintro ⟨hc, h1, h2, h3, h4, h5, h6, h7⟩
    exact ⟨hc, h1, h2, h3, h4, h5, h6, h7⟩
  · rintro ⟨hc, h1, h2, h3, h4, h5, h6, h7⟩
    exact ⟨hc, h1, h2, h3, h4, h5, h6, h7⟩

/-! ### The engine's moves -/

/-- A token keeps the bounds of a replay in progress (R159). -/
theorem TokenDone.decompressProgress {s t : State} (h : TokenDone s t) (hd : DecompressProgress s)
    (hlt : s.dec.di.toNat < s.dec.fc.toNat) : DecompressProgress t := by
  have hl : t.inLoop = s.inLoop ∧ t.phase = s.phase ∧ t.latched = s.latched := by rw [h.frame]; exact ⟨rfl, rfl, rfl⟩
  rw [DecompressProgress, hl.1, hl.2.1, hl.2.2, blobSize, h.ol_eq, h.cl_eq, h.fc_eq, h.di_eq, cursor_succ hlt]
  intro hi hp
  obtain ⟨hchk, hs, ho, -⟩ := hd hi hp
  exact ⟨hchk, hs, ho, h.rc_bound, h.wc_bound, hlt⟩

theorem compressProgress_compressIteration {s : State} (hc : CompressProgress s)
    (hlt : s.enc.pos.toNat < s.latched.srcLen.toNat) : CompressProgress (compressIteration s) := by
  rw [compressProgress_iff] at hc ⊢
  intro hl hp
  obtain ⟨hchk, he⟩ := hc hl hp
  exact ⟨hchk, (encodeEmit_encOk _ he hlt).1⟩

theorem findProgress_findIteration {s : State} (hf : FindProgress s) (hlt : s.finder.d.toNat < s.finder.wl.toNat) :
    FindProgress (findIteration s) := by
  rw [findProgress_iff] at hf ⊢
  intro hl hp
  obtain ⟨hchk, ho, hk⟩ := hf hl hp
  obtain ⟨h1, h2, h3⟩ := finderCandidate_operands (sourceByte s) s.finder
  exact ⟨hchk, ⟨h1.trans ho.1, h2.trans ho.2.1, h3.trans ho.2.2⟩, hk.candidate _ hlt⟩

theorem EngineMove.inv {s t : State} (h : EngineMove s t) (hi : Inv s) : Inv t := by
  have ⟨hm, _, _, _, hf, hc, hd⟩ := hi
  cases h with
  | stay => exact hi
  | complete _ h => exact h.inv hm
  | beginCompress hb hdec hchk =>
    have hp := (hi.phase_of_decode hb hdec).1 rfl
    exact hi.advance hb rfl hm (by simp [hp]) (by simp [hp])
      (fun _ => (compressProgress_iff _).2 fun _ _ => ⟨hchk, encRegsZero_encOk _⟩) (by simp [hp])
  | beginDecompress hb hdec hchk hs ho =>
    have hp := (hi.phase_of_decode hb hdec).2.1 rfl
    exact hi.advance hb rfl hm (by simp [hp]) (by simp [hp]) (by simp [hp])
      (fun _ _ _ => ⟨hchk, hs, ho, Nat.zero_le _, Nat.zero_le _, Nat.zero_le _⟩)
  | beginFind hb hdec hchk =>
    have hp := (hi.phase_of_decode hb hdec).2.2 rfl
    exact hi.advance hb rfl hm (by simp [hp])
      (fun _ => (findProgress_iff _).2 fun _ _ => ⟨hchk, ⟨rfl, rfl, rfl⟩, finderStart_ok _ _ _⟩)
      (by simp [hp]) (by simp [hp])
  | encode hb hl hp hlt =>
    exact hi.advance hb (by rw [compressIteration, ← hl]) hm (by simp [hp]) (by simp [hp])
      (fun _ => compressProgress_compressIteration hc hlt) (by simp [hp])
  | token hb hl hp hlt h =>
    exact hi.advance hb (by rw [← hl, h.frame]) (h.wf hm) (by simp [hp]) (by simp [hp]) (by simp [hp])
      (fun _ => h.decompressProgress hd hlt)
  | candidate hb hl hp hlt =>
    exact hi.advance hb (by rw [findIteration, ← hl]) hm (by simp [hp])
      (fun _ => findProgress_findIteration hf hlt) (by simp [hp]) (by simp [hp])

/-! ### The statements -/

/-- Settles O47: every move a step can make keeps the invariant. -/
theorem stepKeepsTheInvariant : Obligations.StepKeepsTheInvariant := by
  intro s t hi h
  obtain rfl | ⟨-, op, rest, -, hm⟩ | ⟨-, hm⟩ := step_cases h
  · exact hi
  · exact hm.inv hi
  · exact hm.inv hi

/-- The host operations that clear the field at bit `b` of STATUS (R28, R30, R230). -/
def ClearsBit (s : State) (b : Nat) (op : HostOp) : Prop :=
  op = .reset ∨ (∃ v, op = .wr 0x00 8 v ∧ s.status.busy = false) ∨ (∃ v, op = .wr 0x08 8 v ∧ v.getLsbD b = true)

/-- The host's next operation clears the field at bit `b` of STATUS. -/
def HostClears (s : State) (b : Nat) : Prop := ∃ op rest, s.host = op :: rest ∧ ClearsBit s b op

/-- The step from `s` to `t` is an engine turn that completes the running command. -/
def EngineCompletes (s t : State) : Prop :=
  nextTurn s ≠ .host ∧ s.status.busy = true ∧ t.status.busy = false ∧ t.status.done = true

/-- A host move keeps DONE or clears it. -/
theorem HostMove.done_cases {op : HostOp} {s t : State} (h : HostMove s op t) :
    t.status.done = s.status.done ∨ (t.status.done = false ∧ ClearsBit s 1 op) := by
  cases h with
  | quiet h => rw [h]; exact .inl rfl
  | accept w hb => exact .inr ⟨rfl, .inr (.inl ⟨w, rfl, hb⟩)⟩
  | clear w =>
    cases h1 : w[1] with
    | false => exact .inl (by simp [statusCleared, h1])
    | true => exact .inr ⟨by simp [statusCleared, h1], .inr (.inr ⟨w, rfl, h1⟩)⟩
  | drop | store => exact .inl rfl
  | reset => exact .inr ⟨rfl, .inl rfl⟩

/-- A host move keeps ERROR and CAUSE or clears both. -/
theorem HostMove.error_cases {op : HostOp} {s t : State} (h : HostMove s op t) :
    (t.status.error = s.status.error ∧ t.status.cause = s.status.cause) ∨
      (t.status.error = false ∧ t.status.cause = .none ∧ ClearsBit s 2 op) := by
  cases h with
  | quiet h => rw [h]; exact .inl ⟨rfl, rfl⟩
  | accept w hb => exact .inr ⟨rfl, rfl, .inr (.inl ⟨w, rfl, hb⟩)⟩
  | clear w =>
    cases h2 : w[2] with
    | false => exact .inl (by simp [statusCleared, h2])
    | true => exact .inr ⟨by simp [statusCleared, h2], by simp [statusCleared, h2], .inr (.inr ⟨w, rfl, h2⟩)⟩
  | drop | store => exact .inl ⟨rfl, rfl⟩
  | reset => exact .inr ⟨rfl, rfl, .inl rfl⟩

/-- What a step does to DONE, ERROR and CAUSE: a field stays, is cleared by the host, or the engine completes. -/
theorem step_status_cases {s t : State} (h : step s = .next t) :
    EngineCompletes s t ∨
    ((t.status.done = s.status.done ∨ (t.status.done = false ∧ nextTurn s = .host ∧ HostClears s 1)) ∧
      ((t.status.error = s.status.error ∧ t.status.cause = s.status.cause) ∨
        (t.status.error = false ∧ t.status.cause = .none ∧ nextTurn s = .host ∧ HostClears s 2))) := by
  obtain rfl | ⟨hn, op, rest, hh, hm⟩ | ⟨hn, hm⟩ := step_cases h
  · exact .inr ⟨.inl rfl, .inl ⟨rfl, rfl⟩⟩
  · exact .inr ⟨hm.done_cases.imp_right fun ⟨h1, h2⟩ => ⟨h1, hn, op, rest, hh, h2⟩,
      hm.error_cases.imp_right fun ⟨h1, h2, h3⟩ => ⟨h1, h2, hn, op, rest, hh, h3⟩⟩
  · obtain hs | ⟨hb, hc⟩ := hm.status
    · rw [hs]; exact .inr ⟨.inl rfl, .inl ⟨rfl, rfl⟩⟩
    · exact .inl ⟨hn, hb, hc.busy, hc.done⟩

/-- Settles O42: by `step_status_cases`; a completion clears nothing, for DONE and ERROR are 0 while BUSY = 1 (R29). -/
theorem onlyCompletionSetsAndOnlyTheHostClears : Obligations.OnlyCompletionSetsAndOnlyTheHostClears := by
  intro s t ⟨_, ⟨_, hbusy, _⟩, _⟩ h
  obtain hc | ⟨hd, he⟩ := step_status_cases h
  · have ⟨_, hb, _⟩ := hc
    obtain ⟨hd, he, -⟩ := hbusy hb
    exact ⟨fun _ => hc, by simp [hd], by simp [he], fun _ => .inl hc⟩
  · refine ⟨?_, fun h0 h1 => ?_, fun h0 h1 => ?_, fun hne => ?_⟩
    · rintro (⟨h0, h1⟩ | ⟨h0, h1⟩)
      · simp [h0, h1] at hd
      · simp [h0, h1] at he
    · obtain hd | ⟨-, hn, hh⟩ := hd
      · simp [h0, h1] at hd
      · exact ⟨hn, hh⟩
    · obtain ⟨he, -⟩ | ⟨-, hc, hn, hh⟩ := he
      · simp [h0, h1] at he
      · exact ⟨hn, hc, hh⟩
    · obtain ⟨-, hc⟩ | ⟨-, hc, hn, hh⟩ := he
      · exact absurd hc hne
      · exact .inr ⟨hn, hc, hh⟩

end Sys2Proof.Machine

/-! PROOFS. The engine neither reads nor writes the configuration registers, DROPPED, or what lies outside it
(10_state.md R44, R208, R243, R244): a change of them passes through an engine turn, in either granularity. -/

namespace Sys2Proof.Machine

/-- `s` with everything that `SameConfiguration` speaks of taken from `v`. -/
def withConfigOf (v s : State) : State :=
  { s with
    cmd := v.cmd, doneIe := v.doneIe, srcAddr := v.srcAddr, srcLen := v.srcLen, dstAddr := v.dstAddr, dstCap := v.dstCap
    position := v.position, windowLimit := v.windowLimit, status := { s.status with dropped := v.status.dropped }
    host := v.host, turns := v.turns, busData := v.busData, regBase := v.regBase, devices := v.devices }

section Blind

variable (v s : State)

theorem withConfigOf_self : withConfigOf s s = s := rfl

@[simp] theorem withConfigOf_latched : (withConfigOf v s).latched = s.latched := rfl

@[simp] theorem withConfigOf_phase : (withConfigOf v s).phase = s.phase := rfl

theorem fetchToken_withConfigOf : fetchToken (withConfigOf v s) = fetchToken s := rfl

theorem fetchCommand_withConfigOf : fetchCommand (withConfigOf v s) = fetchCommand s := rfl

/-! ### The pieces that recurse or branch on a result -/

theorem copyBytes_withConfigOf (n a d : Nat) :
    copyBytes n a d (withConfigOf v s) = withConfigOf v (copyBytes n a d s) := by
  induction n generalizing a s with
  | zero => rfl
  | succ n ih => rw [copyBytes, copyBytes, ← ih]; rfl

theorem compressLoop_withConfigOf (n : Nat) :
    compressLoop n (withConfigOf v s) = withConfigOf v (compressLoop n s) := by
  induction n generalizing s with
  | zero => rfl
  | succ n ih => rw [compressLoop, compressLoop, apply_ite (withConfigOf v), ← ih]; rfl

theorem findLoop_withConfigOf (n : Nat) : findLoop n (withConfigOf v s) = withConfigOf v (findLoop n s) := by
  rw [findLoop_eq, findLoop_eq]; rfl

theorem litToken_withConfigOf (b : Byte) : litToken b (withConfigOf v s) = (litToken b s).map (withConfigOf v) := by
  rw [litToken, litToken, apply_ite (Except.map _), apply_ite (Except.map _)]
  rfl

theorem matchToken_withConfigOf (d : BitVec 16) (l : Byte) :
    matchToken d l (withConfigOf v s) = (matchToken d l s).map (withConfigOf v) := by
  rw [matchToken, matchToken, apply_ite (Except.map _), apply_ite (Except.map _), apply_ite (Except.map _),
    copyBytes_withConfigOf]
  rfl

theorem runToken_withConfigOf (i : Instr) : runToken i (withConfigOf v s) = (runToken i s).map (withConfigOf v) := by
  cases i with
  | compress | decompress | findMatch => rfl
  | lit b => exact litToken_withConfigOf v s b
  | matchRecord d l => exact matchToken_withConfigOf v s d l

theorem replayToken_withConfigOf : replayToken (withConfigOf v s) = (replayToken s).map (withConfigOf v) := by
  rw [replayToken, replayToken, fetchToken_withConfigOf]
  cases fetchToken s with
  | ok i => exact runToken_withConfigOf v s i
  | error e => rfl

theorem endOfReplay_withConfigOf : endOfReplay (withConfigOf v s) = (endOfReplay s).map (withConfigOf v) := by
  rw [endOfReplay, endOfReplay, apply_ite (Except.map _), apply_ite (Except.map _)]
  rfl

theorem replay_withConfigOf (n : Nat) : replay n (withConfigOf v s) = (replay n s).map (withConfigOf v) := by
  induction n generalizing s with
  | zero => exact endOfReplay_withConfigOf v s
  | succ n ih =>
    rw [replay, replay, replayToken_withConfigOf]
    cases replayToken s with
    | ok t => exact ih t
    | error c => rfl

theorem decompressBegin_withConfigOf : decompressBegin (withConfigOf v s) = (decompressBegin s).map (withConfigOf v) := by
  rw [decompressBegin, decompressBegin, withConfigOf_latched, show unpack (withConfigOf v s) = unpack s from rfl]
  cases decompressChecks s.latched with
  | some c => rfl
  | none =>
    cases unpack s with
    | error c => rfl
    | ok r => simp only [apply_ite (Except.map (withConfigOf v))]; rfl

theorem settleToken_withConfigOf (r : Except Cause State) :
    settleToken (withConfigOf v s) (r.map (withConfigOf v)) = withConfigOf v (settleToken s r) := by
  cases r <;> rfl

theorem settleReplay_withConfigOf (r : Except Cause State) :
    settleReplay (withConfigOf v s) (r.map (withConfigOf v)) = withConfigOf v (settleReplay s r) := by
  cases r <;> rfl

/-! ### The instructions -/

theorem execCompress_withConfigOf :
    execCompress (withConfigOf v s) = mapNext (withConfigOf v) (execCompress s) := by
  rw [execCompress, execCompress, withConfigOf_latched]
  cases compressChecks s.latched with
  | some c => rfl
  | none =>
    simp only [mapNext]
    rw [show compressBegin (withConfigOf v s) = withConfigOf v (compressBegin s) from rfl, compressLoop_withConfigOf]
    rfl

theorem execDecompress_withConfigOf :
    execDecompress (withConfigOf v s) = mapNext (withConfigOf v) (execDecompress s) := by
  rw [execDecompress, execDecompress, decompressBegin_withConfigOf]
  cases decompressBegin s with
  | error c => rfl
  | ok t =>
    simp only [Except.map, mapNext]
    rw [replay_withConfigOf, settleReplay_withConfigOf]
    rfl

theorem execFindMatch_withConfigOf :
    execFindMatch (withConfigOf v s) = mapNext (withConfigOf v) (execFindMatch s) := by
  rw [execFindMatch, execFindMatch, withConfigOf_latched]
  cases findChecks s.latched with
  | some c => rfl
  | none =>
    simp only [mapNext]
    rw [show findBegin (withConfigOf v s) = withConfigOf v (findBegin s) from rfl, findLoop_withConfigOf]
    rfl

theorem exec_withConfigOf (i : Instr) : exec i (withConfigOf v s) = mapNext (withConfigOf v) (exec i s) := by
  cases i with
  | compress => exact execCompress_withConfigOf v s
  | decompress => exact execDecompress_withConfigOf v s
  | findMatch => exact execFindMatch_withConfigOf v s
  | lit b =>
    rw [exec, exec, execLit, execLit, litToken_withConfigOf, settleToken_withConfigOf, apply_ite (mapNext _)]
    rfl
  | matchRecord d l =>
    rw [exec, exec, execMatchRecord, execMatchRecord, matchToken_withConfigOf, settleToken_withConfigOf,
      apply_ite (mapNext _)]
    rfl

/-! ### The engine's turns -/

theorem compressStep_withConfigOf : compressStep (withConfigOf v s) = mapNext (withConfigOf v) (compressStep s) := by
  rw [compressStep, compressStep, apply_ite (mapNext _), apply_ite (mapNext _)]
  rfl

theorem findStep_withConfigOf : findStep (withConfigOf v s) = mapNext (withConfigOf v) (findStep s) := by
  rw [findStep, findStep, apply_ite (mapNext _), apply_ite (mapNext _)]
  rfl

theorem replayStep_withConfigOf : replayStep (withConfigOf v s) = mapNext (withConfigOf v) (replayStep s) := by
  rw [replayStep, replayStep, endOfReplay_withConfigOf, settleReplay_withConfigOf, apply_ite (mapNext _), apply_ite (mapNext _)]
  rw [fetchToken_withConfigOf]
  cases fetchToken s with
  | ok i => simp only [exec_withConfigOf]; rfl
  | error e => simp only [apply_ite (mapNext _)]; rfl

theorem engineIteration_withConfigOf :
    engineIteration (withConfigOf v s) = mapNext (withConfigOf v) (engineIteration s) := by
  rw [engineIteration, engineIteration, compressStep_withConfigOf, replayStep_withConfigOf, findStep_withConfigOf,
    withConfigOf_phase]
  cases s.phase <;> rfl

theorem runCommand_withConfigOf : runCommand (withConfigOf v s) = mapNext (withConfigOf v) (runCommand s) := by
  rw [runCommand, runCommand, fetchCommand_withConfigOf]
  cases fetchCommand s with
  | ok i => exact exec_withConfigOf v s i
  | error e => rfl

theorem beginCommand_withConfigOf : beginCommand (withConfigOf v s) = withConfigOf v (beginCommand s) := by
  rw [beginCommand, beginCommand, fetchCommand_withConfigOf,
    decompressBegin_withConfigOf, withConfigOf_latched]
  cases fetchCommand s with
  | error e => rfl
  | ok i =>
    cases i with
    | compress => cases compressChecks s.latched <;> rfl
    | decompress => cases decompressBegin s <;> rfl
    | findMatch => cases findChecks s.latched <;> rfl
    | lit b => rfl
    | matchRecord d l => rfl

theorem engineTurn_withConfigOf : engineTurn (withConfigOf v s) = mapNext (withConfigOf v) (engineTurn s) := by
  rw [engineTurn, engineTurn, engineIteration_withConfigOf, runCommand_withConfigOf, apply_ite (mapNext _),
    apply_ite (mapNext _)]
  rfl

theorem engineFineTurn_withConfigOf :
    engineFineTurn (withConfigOf v s) = mapNext (withConfigOf v) (engineFineTurn s) := by
  rw [engineFineTurn, engineFineTurn, engineIteration_withConfigOf, beginCommand_withConfigOf, apply_ite (mapNext _),
    apply_ite (mapNext _)]
  rfl

end Blind

/-! ### A host write while a command runs -/

theorem mapNext_mapNext (f g : State → State) (o : Host.Outcome State Fault Refusal) :
    mapNext f (mapNext g o) = mapNext (fun s => f (g s)) o := by
  cases o <;> rfl

/-- `f` changes nothing but what the engine neither reads nor writes, and by that alone. -/
def ConfigOnly (f : State → State) : Prop := ∀ v s, f (withConfigOf v s) = withConfigOf (f v) s

/-- What the engine does commutes with a change of the configuration (R243, R244). -/
theorem ConfigOnly.commutes {f : State → State} (hf : ConfigOnly f) {turn : State → Host.Outcome State Fault Refusal}
    (hturn : ∀ v s, turn (withConfigOf v s) = mapNext (withConfigOf v) (turn s)) (s : State) :
    turn (f s) = mapNext f (turn s) := by
  calc turn (f s) = turn (withConfigOf (f s) s) := by rw [← hf, withConfigOf_self]
    _ = mapNext (withConfigOf (f s)) (turn s) := hturn _ _
    _ = mapNext f (mapNext (withConfigOf s) (turn s)) := by rw [mapNext_mapNext]; simp only [hf s]
    _ = mapNext f (turn s) := by rw [← hturn, withConfigOf_self]

theorem configOnly_setDropped : ConfigOnly (fun u => { u with status := { u.status with dropped := true } }) :=
  fun _ _ => rfl

/-- Settles O13: DROPPED is configuration to the engine. -/
theorem cmdWriteWhileBusyIsDropped : Obligations.CmdWriteWhileBusyIsDropped := by
  intro s w hb
  refine ⟨{ s with status := statusDropped s.status }, ?_, rfl, rfl, ?_, ?_⟩
  · rw [hostOp_wr (by decide)]
    exact if_pos hb
  · exact configOnly_setDropped.commutes engineTurn_withConfigOf s
  · exact configOnly_setDropped.commutes engineFineTurn_withConfigOf s

/-- An operand register's write is stored, whatever the state, and is configuration to the engine (R44). -/
theorem writeReg_operand {r : Reg} (h : r = .srcAddr ∨ r = .srcLen ∨ r = .dstAddr ∨ r = .dstCap ∨ r = .position ∨
    r = .windowLimit) (w : Word) :
    ∃ f : State → State, (∀ u, writeReg r w u = .next (f u)) ∧ (∀ u, regValue (f u) r = w) ∧ ConfigOnly f := by
  rcases h with rfl | rfl | rfl | rfl | rfl | rfl <;>
    exact ⟨_, fun _ => rfl, fun _ => rfl, fun _ _ => rfl⟩

/-- Settles O14: an operand register is configuration to the engine. -/
theorem operandWritesDoNotReachTheRunningCommand : Obligations.OperandWritesDoNotReachTheRunningCommand := by
  intro s off w _ h8 hl hu
  obtain ⟨f, hw, hv, hf⟩ := writeReg_operand (regAt_operand h8 hl hu) w
  exact ⟨f, hw, by rw [hostOp_wr h8, hw], hv s, hf.commutes engineTurn_withConfigOf s,
    hf.commutes engineFineTurn_withConfigOf s⟩

end Sys2Proof.Machine

/-! PROOFS. The host's accesses to memory (20_memory.md R60, R73, 70_reset_and_hazards.md R248), the launch it may
not make (20_memory.md R61), and that no host operation stops with a fault. -/

namespace Sys2Proof.Machine

/-! ### Byte accesses (R60, R73) -/

/-- A byte stored below 2^64 reads back, and every other byte keeps its value (R60). -/
theorem readByte_writeBytes_byte (s : State) {a : Nat} (ha : a < addressSpace) (v : Byte) (x : Nat) :
    readByte (writeBytes s a [v]) x = if x = a then v else readByte s x := by
  split
  · next h => subst h; exact readByte_writeBytes_of_mem s x [v] 0 Nat.one_pos ha
  · next h => exact readByte_writeBytes_of_not_mem s a [v] x (by simp; omega)

/-- Settles O17: past the device check, ownership alone decides (U6). -/
theorem hostStoreWritesOneByte : Obligations.HostStoreWritesOneByte := by
  intro s a v hd
  refine ⟨fun hr => ?_, fun hsrc hdst =>
    ⟨writeBytes s a.toNat [v], ?_, rfl, readByte_writeBytes_byte s a.isLt v⟩⟩
  · rw [hostOp, hostStore, if_neg (by simp [hd]), if_pos (by simpa using hr)]
  · rw [hostOp, hostStore, if_neg (by simp [hd]), if_neg (by simp [hsrc, hdst])]

/-- Settles O54: past the device check, the running destination alone decides (U17). -/
theorem hostLoadReadsOneByte : Obligations.HostLoadReadsOneByte := by
  intro s a hd
  refine ⟨fun hdst => ?_, fun hdst => ⟨Config.freeByte s.draws 0, ?_⟩⟩
  · rw [hostOp, hostLoad, if_neg (by simp [hd]), if_neg (by simp [hdst])]
  · rw [hostOp, hostLoad, if_neg (by simp [hd]), if_pos hdst]

/-! ### The launch on a device (R61, U7) -/

/-- Settles O15: the step is the host's CMD write, which is refused before it is accepted. -/
theorem launchOnDeviceIsRefused : Obligations.LaunchOnDeviceIsRefused := by
  intro s w rest hb hn hh hd
  rw [step_host hn hh, hostOp_wr (by decide)]
  show writeCmd w _ = _
  rw [writeCmd, if_neg (by simp [hb])]
  exact if_pos hd

/-! ### The host never stops with a fault -/

theorem writeCmd_ne_fault (w : Word) (s : State) (f : Fault) : writeCmd w s ≠ .fault f := by
  rw [writeCmd]
  split
  · simp
  · split <;> simp

theorem writeReg_ne_fault (r : Reg) (w : Word) (s : State) (f : Fault) : writeReg r w s ≠ .fault f := by
  cases r with
  | cmd => exact writeCmd_ne_fault w s f
  | status | irqEn | srcAddr | srcLen | dstAddr | dstCap | position | windowLimit | resultLen | resFlagCount
  | resContentLen | matchResult | params | reserved => simp [writeReg]

theorem hostStore_ne_fault (a : Word) (v : Byte) (s : State) (f : Fault) : hostStore a v s ≠ .fault f := by
  rw [hostStore]
  split
  · simp
  · split <;> simp

theorem hostLoad_ne_fault (a : Word) (s : State) (f : Fault) : hostLoad a s ≠ .fault f := by
  rw [hostLoad]
  split
  · simp
  · split <;> simp

/-- A host operation answers a next state or a refusal (R27, R61, R248). -/
theorem hostOp_ne_fault (op : HostOp) (s : State) (f : Fault) : hostOp op s ≠ .fault f := by
  cases op with
  | wr off width v =>
    rw [hostOp]
    split
    · exact writeReg_ne_fault _ v s f
    · simp
  | rd off width => rw [hostOp]; split <;> simp
  | wait => rw [hostOp]; split <;> simp
  | store a v => exact hostStore_ne_fault a v s f
  | load a => exact hostLoad_ne_fault a s f
  | reset => simp [hostOp]

theorem hostTurn_ne_fault (s : State) (f : Fault) : hostTurn s ≠ .fault f := by
  rw [hostTurn]
  split
  · simp
  · exact hostOp_ne_fault _ _ f

end Sys2Proof.Machine

/-! PROOFS. The engine and memory: from a state that meets the invariant every engine turn, in either granularity, answers
a next state, and it writes only the destination region of the running command (20_memory.md R62, R64, R71, 43_decoder.md
R159, 60_exceptions.md R206). -/

namespace Sys2Proof.Machine

/-! ### Memory outside the running destination -/

/-- `t` reads as `s` at every address outside the destination region of the command that runs in `s` (R62, R64). -/
def KeepsOutsideDest (s t : State) : Prop := ∀ x, inRunningDest s x = false → readByte t x = readByte s x

theorem KeepsOutsideDest.of_mem {s t : State} (h : t.mem = s.mem) : KeepsOutsideDest s t := fun x _ => by
  rw [readByte, h, readByte]

/-- Writes within a region's first bytes are writes within the region. -/
theorem sameOutside_mono {a n m : Nat} {s t : State} (hn : n ≤ m) (h : SameOutside a n s t) : SameOutside a m s t :=
  fun x hx => h x (by omega)

/-- Writes within the latched destination of a running command that has one. -/
theorem KeepsOutsideDest.of_sameOutside {s t : State} (hb : s.status.busy = true)
    (hd : reachesDest s.latched.cmd = true)
    (h : SameOutside s.latched.dstAddr.toNat s.latched.dstCap.toNat s t) : KeepsOutsideDest s t :=
  fun x hx => h x (by simpa [inRunningDest, inRegion, hb, hd] using hx)

/-- COMPRESS and DECOMPRESS are the commands with a destination (R62, log 13). -/
theorem Inv.cmd_reachesDest {s : State} (hi : Inv s) (hb : s.status.busy = true)
    (hp : s.phase = .runCompress ∨ s.phase = .runDecompress) : reachesDest s.latched.cmd = true := by
  obtain ⟨-, -, hcmd, -⟩ := hi
  rw [(hcmd hb).2] at hp
  obtain ⟨-, -, hw⟩ | ⟨-, -, hw⟩ | ⟨-, h, -⟩ | ⟨-, h, -⟩ := phaseOf_cases s.latched.cmd
  · rw [hw]; rfl
  · rw [hw]; rfl
  · simp [h] at hp
  · simp [h] at hp

/-! ### A command as one transition -/

/-- A token writes only `dst[wc, ol)`, so only `dst[0, ol)` (R152, R153, R159). -/
theorem TokenDone.sameOutside {s t : State} (h : TokenDone s t) :
    SameOutside s.latched.dstAddr.toNat s.dec.ol.toNat s t := by
  intro x hx
  refine h.outside x fun hc => hx ?_
  have := h.wc_bound
  simp only [outputAddr] at hc
  omega

/-- A replay and what it ends in write only `dst[0, ol)` (R159, R206). -/
theorem settleReplay_outside (n : Nat) (s : State) :
    SameOutside s.latched.dstAddr.toNat s.dec.ol.toNat s (settleReplay s (replay n s)) := by
  cases h : replay n s with
  | ok u => exact (replay_done h).1.outside
  | error c => exact raiseReplayFault_outside c s

/-- COMPRESS writes only its destination: its blob fits the capacity it checked (R136, R176). -/
theorem execCompress_outside (s : State) :
    ∃ t, execCompress s = .next t ∧ SameOutside s.latched.dstAddr.toNat s.latched.dstCap.toNat s t := by
  cases h : compressChecks s.latched with
  | some c => exact ⟨raiseFault c s, by rw [execCompress, h], fun _ _ => rfl⟩
  | none =>
    refine ⟨_, by rw [execCompress, h], ?_⟩
    obtain ⟨-, -, -, hcap⟩ := compressChecks_none h
    have hlen : (compressBlob (compressLoop s.latched.srcLen.toNat (compressBegin s))).length ≤
        s.latched.dstCap.toNat := by
      rw [compressBlob_done]
      exact (inputBlob_length_le _ _).trans hcap
    obtain ⟨f, hf⟩ := compressLoop_done s
    have hfin := compressFinish_mem (compressLoop s.latched.srcLen.toNat (compressBegin s))
    rw [hf] at hlen hfin ⊢
    exact sameOutside_mono (Nat.max_le.2 ⟨Nat.le_refl _, hlen⟩) hfin

/-- DECOMPRESS writes only its destination: the output length it read fits the capacity (R157, R206). -/
theorem execDecompress_outside (s : State) :
    ∃ t, execDecompress s = .next t ∧ SameOutside s.latched.dstAddr.toNat s.latched.dstCap.toNat s t := by
  obtain ⟨c, h, -⟩ | ⟨h, -, -, ho⟩ := decompressBegin_cases s
  · exact ⟨raiseFault c s, by rw [execDecompress, h], fun _ _ => rfl⟩
  · refine ⟨_, by rw [execDecompress, h], ?_⟩
    exact sameOutside_mono ho (settleReplay_outside _ { s with dec := headerRegs s, inLoop := true })

/-- FIND_MATCH writes no memory (R62, R104). -/
theorem execFindMatch_mem (s : State) : ∃ t, execFindMatch s = .next t ∧ t.mem = s.mem := by
  cases h : findChecks s.latched with
  | some c => exact ⟨raiseFault c s, by rw [execFindMatch, h], rfl⟩
  | none => exact ⟨_, by rw [execFindMatch, h], by rw [findLoop_findBegin]; rfl⟩

/-- A command run whole answers a next state from every state. -/
theorem runCommand_answers {s : State} (hb : s.status.busy = true) :
    ∃ t, runCommand s = .next t ∧ KeepsOutsideDest s t := by
  obtain ⟨hd, -, hw⟩ | ⟨hd, -, hw⟩ | ⟨hd, -, -⟩ | ⟨⟨e, he⟩, -, -⟩ := phaseOf_cases s.latched.cmd
  · obtain ⟨t, ht, hm⟩ := execCompress_outside s
    exact ⟨t, (runCommand_of_decode hd).trans ht, .of_sameOutside hb (by rw [hw]; rfl) hm⟩
  · obtain ⟨t, ht, hm⟩ := execDecompress_outside s
    exact ⟨t, (runCommand_of_decode hd).trans ht, .of_sameOutside hb (by rw [hw]; rfl) hm⟩
  · obtain ⟨t, ht, hm⟩ := execFindMatch_mem s
    exact ⟨t, (runCommand_of_decode hd).trans ht, .of_mem hm⟩
  · exact ⟨badCommand s, by rw [runCommand, fetchCommand, he], .of_mem rfl⟩

/-- A command's checks and its start write no memory. -/
theorem beginCommand_mem (s : State) : (beginCommand s).mem = s.mem := by
  rw [beginCommand]
  split
  · split <;> rfl
  · obtain ⟨c, h, -⟩ | ⟨h, -⟩ := decompressBegin_cases s
    · rw [h]; rfl
    · rw [h]
  · split <;> rfl
  · rfl
  · rfl
  · rfl

/-! ### One iteration of a command in progress -/

/-- The addresses of a query in progress exist (R71, R104). -/
theorem Inv.findInSpace_eq_true {s : State} (hi : Inv s) (hl : s.inLoop = true) (hp : s.phase = .runFind) :
    findInSpace s = true := by
  have ⟨_, _, _, _, hprog, _⟩ := hi
  obtain ⟨hchk, hpos, -, hmax, -⟩ := hprog hl hp
  have hlen := toNat_findMaxlen s.latched
  obtain ⟨-, h⟩ | ⟨-, -, h⟩ | ⟨hsrc, hle, -⟩ := findChecks_cases s.latched
  · simp [hchk] at h
  · simp [hchk] at h
  · rw [findInSpace, decide_eq_true_iff, hpos, hmax, hlen]
    unfold addressSpace
    omega

theorem findStep_answers {s : State} (hi : Inv s) (hl : s.inLoop = true) (hp : s.phase = .runFind) :
    ∃ t, findStep s = .next t ∧ KeepsOutsideDest s t := by
  rw [findStep, if_pos (hi.findInSpace_eq_true hl hp)]
  split <;> exact ⟨_, rfl, .of_mem rfl⟩

/-- The addresses of a replay in progress exist: the blob lies in the source region and the output in the destination
(R71, R159). -/
theorem Inv.replayInSpace_eq_true {s : State} (hi : Inv s) (hl : s.inLoop = true) (hp : s.phase = .runDecompress) :
    replayInSpace s = true := by
  have ⟨_, _, _, _, _, _, hprog⟩ := hi
  obtain ⟨hchk, hblob, hol, -⟩ := hprog hl hp
  simp only [blobSize, ceil8, Config.headerBytes] at hblob
  obtain ⟨-, h⟩ | ⟨-, -, h⟩ | ⟨-, -, -, h⟩ | ⟨hsrc, hdst, -, -⟩ := decompressChecks_cases s.latched
  · simp [hchk] at h
  · simp [hchk] at h
  · simp [hchk] at h
  · exact (replayInSpace_iff s).2 ⟨by omega, by omega⟩

section Iteration

variable {s : State} (hi : Inv s) (hb : s.status.busy = true) (hl : s.inLoop = true)
include hi hb hl

/-- The blob of a COMPRESS in progress fits the capacity it checked (R136, R137). -/
theorem compressStep_answers (hp : s.phase = .runCompress) :
    ∃ t, compressStep s = .next t ∧ KeepsOutsideDest s t := by
  have ⟨_, _, _, _, _, hprog, _⟩ := hi
  obtain ⟨hchk, henc⟩ := (compressProgress_iff s).1 hprog hl hp
  rw [compressStep, if_pos (compressInSpace_of_encOk hchk henc)]
  split
  · exact ⟨_, rfl, .of_mem rfl⟩
  · obtain ⟨-, -, -, hcap⟩ := compressChecks_none hchk
    have hlen := compressBlob_length_le henc
    refine ⟨_, rfl, .of_sameOutside hb (hi.cmd_reachesDest hb (.inl hp)) ?_⟩
    exact sameOutside_mono (Nat.max_le.2 ⟨Nat.le_refl _, hlen.trans hcap⟩) (compressFinish_mem s)

/-- Every outcome of a replay's pass writes only `dst[0, ol)` (R206). -/
theorem replayStep_answers (hp : s.phase = .runDecompress) :
    ∃ t, replayStep s = .next t ∧ KeepsOutsideDest s t := by
  have ⟨_, _, _, _, _, _, hprog⟩ := hi
  obtain ⟨-, -, hol, -⟩ := hprog hl hp
  have hs := hi.replayInSpace_eq_true hl hp
  suffices ∃ t, replayStep s = .next t ∧ SameOutside s.latched.dstAddr.toNat s.dec.ol.toNat s t by
    obtain ⟨t, ht, hm⟩ := this
    exact ⟨t, ht, .of_sameOutside hb (hi.cmd_reachesDest hb (.inr hp)) (sameOutside_mono hol hm)⟩
  simp only [replayStep, if_pos hs]
  split
  · split
    · next i hf =>
      obtain ⟨t, ht, -, hd⟩ | ⟨c, hc, -, -⟩ := exec_token i s (by rw [fetchToken_isToken hf]; simp) hs
      · exact ⟨t, ht, hd.sameOutside⟩
      · exact ⟨_, hc, raiseReplayFault_outside c s⟩
    · exact ⟨_, rfl, raiseReplayFault_outside _ s⟩
  · exact ⟨_, rfl, settleReplay_outside 0 s⟩

theorem engineIteration_answers : ∃ t, engineIteration s = .next t ∧ KeepsOutsideDest s t := by
  cases hp : s.phase with
  | idle => exact ⟨s, by rw [engineIteration, hp], .of_mem rfl⟩
  | runCompress => rw [engineIteration_compress s hp]; exact compressStep_answers hi hb hl hp
  | runDecompress => rw [engineIteration_decompress s hp]; exact replayStep_answers hi hb hl hp
  | runFind => rw [engineIteration_find s hp]; exact findStep_answers hi hl hp
  | runBadCmd => exact ⟨badCommand s, by rw [engineIteration, hp], .of_mem rfl⟩

end Iteration

/-! ### The engine's turns -/

theorem engineTurn_answers {s : State} (hi : Inv s) : ∃ t, engineTurn s = .next t ∧ KeepsOutsideDest s t := by
  rw [engineTurn]
  split
  · next hb =>
    split
    · next hl => exact engineIteration_answers hi hb hl
    · exact runCommand_answers hb
  · exact ⟨s, rfl, .of_mem rfl⟩

theorem engineFineTurn_answers {s : State} (hi : Inv s) : ∃ t, engineFineTurn s = .next t ∧ KeepsOutsideDest s t := by
  rw [engineFineTurn]
  split
  · next hb =>
    split
    · next hl => exact engineIteration_answers hi hb hl
    · exact ⟨_, rfl, .of_mem (beginCommand_mem s)⟩
  · exact ⟨s, rfl, .of_mem rfl⟩

/-- Settles O41: what either turn answers keeps memory outside the running destination. -/
theorem engineWritesOnlyTheDestination : Obligations.EngineWritesOnlyTheDestination := by
  intro s t x hi h hx
  obtain ⟨u, hu, hm⟩ := engineTurn_answers hi
  obtain ⟨v, hv, hn⟩ := engineFineTurn_answers hi
  obtain h | h := h
  · rw [h] at hu; cases hu; exact hm x hx
  · rw [h] at hv; cases hv; exact hn x hx

/-- Settles O49: a host turn answers a next state or a refusal, and an engine turn a next state. -/
theorem stepNeverFaults : Obligations.StepNeverFaults := by
  intro s f hi
  rw [step]
  split
  · exact hostTurn_ne_fault _ f
  · obtain ⟨t, ht, -⟩ := engineTurn_answers (s := { s with turns := s.turns.tail }) hi
    simp [ht]
  · obtain ⟨t, ht, -⟩ := engineFineTurn_answers (s := { s with turns := s.turns.tail }) hi
    simp [ht]

/-! ### A token outside the address space (log 23) -/

theorem exec_outsideAddressSpace {i : Instr} {s : State} (hi : tokenDecision i ≠ none) (hs : ¬replayInSpace s = true) :
    exec i s = .fault .outsideAddressSpace := by
  cases i with
  | compress => exact absurd rfl hi
  | decompress => exact absurd rfl hi
  | findMatch => exact absurd rfl hi
  | lit b => rw [exec, execLit, if_neg hs]
  | matchRecord d l => rw [exec, execMatchRecord, if_neg hs]

/-- Settles O32: the token's own check of its addresses is its only way to a fault. -/
theorem tokensFaultExactlyOutsideTheAddressSpace : Obligations.TokensFaultExactlyOutsideTheAddressSpace := by
  intro s i hi
  rw [← replayInSpace_iff]
  refine ⟨fun h hs => ?_, exec_outsideAddressSpace hi⟩
  obtain ⟨t, ht, -⟩ | ⟨c, hc, -⟩ := exec_token i s hi hs
  · simp [h] at ht
  · simp [h] at hc

end Sys2Proof.Machine

/-! PROOFS. The encodings (30_encoding.md): which words are commands, that the decoder inverts the encoder, for one
instruction and for a token stream. -/

namespace Sys2Proof

/-! ### Command words (R81) -/

/-- The two fields a command word's validity is about, as numbers (R81). -/
theorem validCommandWord_iff_fields (w : Word) :
    validCommandWord w = true ↔
      w.toNat / 256 = 0 ∧ (w.toNat % 256 = 1 ∨ w.toNat % 256 = 2 ∨ w.toNat % 256 = 3) := by
  simp [validCommandWord, BitVec.toNat_eq, Nat.shiftRight_eq_div_pow, or_assoc]

/-- With the upper bits 0 the opcode is the whole word. -/
theorem validCommandWord_iff (w : Word) : validCommandWord w = true ↔ w = 0x1#64 ∨ w = 0x2#64 ∨ w = 0x3#64 := by
  rw [validCommandWord_iff_fields]
  bv_omega

/-- A command word decodes exactly when it is valid (R81, R91). -/
theorem validCommandWord_iff_decodes (w : Word) : validCommandWord w = true ↔ ∃ i, decodeCommand w = .ok i := by
  simp only [validCommandWord_iff, decodeCommand_ok_iff, exists_or, exists_and_left, exists_eq, and_true]

/-- A reserved word does not decode (R91). -/
theorem decodeCommand_reserved {w : Word} (h : validCommandWord w = false) : ∃ e, decodeCommand w = .error e := by
  cases hd : decodeCommand w with
  | error e => exact ⟨e, rfl⟩
  | ok i => simp [(validCommandWord_iff_decodes w).2 ⟨i, hd⟩] at h

/-- Settles O5: the word that decodes to a command is its opcode. -/
theorem commandWordsDecodeExactlyWhenValid : Obligations.CommandWordsDecodeExactlyWhenValid := by
  intro w
  refine ⟨validCommandWord_iff_decodes w, validCommandWord_iff_fields w, ?_⟩
  simp [decodeCommand_ok_iff, BitVec.toNat_eq]

/-! ### One instruction -/

/-- The 8 bus bytes of a command word decode as the word does (R27, R63). -/
theorem decode_le64 {w : Word} {i : Instr} (h : decodeCommand w = .ok i) (rest : List Byte) :
    decode (.command (le64 w ++ rest)) = .ok (i, rest) := by
  have ht : (le64 w ++ rest).take 8 = le64 w := List.take_left' (le64_length w)
  have hd : (le64 w ++ rest).drop 8 = rest := List.drop_left' (le64_length w)
  rw [decode, if_neg (by simp), ht, ofNat_leValue_le64, h, hd]

/-- Settles O1: a command by its word (R81), a token by its decision and its content (R88). -/
theorem decodeInvertsEncode : Obligations.DecodeInvertsEncode := by
  intro i rest _
  cases i with
  | compress => exact decode_le64 rfl rest
  | decompress => exact decode_le64 rfl rest
  | findMatch => exact decode_le64 rfl rest
  | lit b => exact decodeToken_tokenContent (.lit b) false rfl rest
  | matchRecord d l => exact decodeToken_tokenContent (.matchRecord d l) true rfl rest

/-- Settles O6: the words, evaluated. -/
theorem wordsOfTheSpecDecode : Obligations.WordsOfTheSpecDecode := by
  unfold Obligations.WordsOfTheSpecDecode
  decide

/-! ### A token stream (R96, R99) -/

theorem streamFlags_cons {t : Instr} {b : Bool} (h : tokenDecision t = some b) (ts : List Instr) :
    streamFlags (t :: ts) = b :: streamFlags ts := by
  rw [streamFlags, List.filterMap_cons_some h, streamFlags]

theorem streamContent_cons (t : Instr) (ts : List Instr) :
    streamContent (t :: ts) = tokenContent t ++ streamContent ts :=
  List.flatMap_cons

/-- A stream of tokens has one decision per token. -/
theorem streamFlags_length {ts : List Instr} (h : ∀ t ∈ ts, tokenDecision t ≠ none) :
    (streamFlags ts).length = ts.length := by
  induction ts with
  | nil => rfl
  | cons t ts ih =>
    obtain ⟨b, hb⟩ := Option.ne_none_iff_exists'.1 (h t (by simp))
    rw [streamFlags_cons hb, List.length_cons, List.length_cons, ih fun u hu => h u (by simp [hu])]

/-- A stream parses back from its content and any flag bytes that hold its decisions from decision `i` on (R88, R122). -/
theorem decodeStream_streamContent (flagBytes : List Byte) {ts : List Instr} (h : ∀ t ∈ ts, tokenDecision t ≠ none)
    {i : Nat} (hf : ∀ j, j < ts.length →
      flagBit (flagBytes.getD ((i + j) / 8) 0#8) (i + j) = (streamFlags ts).getD j false) :
    decodeStream flagBytes ts.length i (streamContent ts) = .ok ts := by
  induction ts generalizing i with
  | nil => rfl
  | cons t ts ih =>
    obtain ⟨b, hb⟩ := Option.ne_none_iff_exists'.1 (h t (by simp))
    rw [streamFlags_cons hb] at hf
    have hrest := ih (fun u hu => h u (by simp [hu])) (i := i + 1) fun j hj => by
      have := hf (j + 1) (by simpa using hj)
      rwa [← Nat.add_assoc, Nat.add_right_comm] at this
    have hfirst : flagBit (flagBytes.getD (i / 8) 0#8) i = b := hf 0 (by simp)
    rw [List.length_cons, decodeStream, hfirst, streamContent_cons, decodeToken_tokenContent t b hb]
    simp only [hrest]

/-- Settles O2: the packed decisions are flag bytes that hold the stream's decisions from 0 on (R123). -/
theorem tokenStreamParsesBack : Obligations.TokenStreamParsesBack := by
  intro ts h
  refine decodeStream_streamContent _ h fun j hj => ?_
  rw [Nat.zero_add]
  exact flagBit_packFlags _ j (by rwa [streamFlags_length h])

end Sys2Proof

/-! PROOFS. What the machine does with the encodings (30_encoding.md R87, R91, R97): the matches the encoder emits, WAIT, and
a reserved word written to CMD. -/

namespace Sys2Proof.Machine

/-! ### The matches the encoder emits (R87, R133) -/

/-- Settles O23: an iteration whose query answers a match emits it. -/
theorem emittedMatchesAreCanonical : Obligations.EmittedMatchesAreCanonical := by
  intro B n fuel pos hpos h3
  have hmin : ¬(queryAt B n pos).bestL.toNat < Config.minMatch := by
    rw [show Config.minMatch = 3 from rfl]; omega
  refine ⟨decide_eq_true (queryAt_canonical B n pos hmin), ?_⟩
  rw [encodeTokens_succ B n fuel pos hpos, iterationTokens, iterationAdvance, if_neg hmin, if_neg hmin]
  rfl

/-! ### Host operations (R91, R97) -/

/-- Settles O46: the law of a host step. -/
theorem stepRunsTheHostOperation : Obligations.StepRunsTheHostOperation := fun _ _ _ => step_host

/-- Settles O56: STATUS is no result register, so WAIT's read of it gives the held word (R97). -/
theorem waitReadsStatusUntilIdle : Obligations.WaitReadsStatusUntilIdle := by
  intro s rest hn hh
  have hread : ∀ u : State, readReg .status u = { u with busData := statusWord u.status } := fun u =>
    readReg_held (.inl rfl)
  refine ⟨fun hb => ?_, fun hb => ?_⟩ <;> rw [step_host hn hh, hostOp, hread]
  · rw [if_pos hb, ← hh]
  · rw [if_neg (by simp [hb])]

/-- A reserved word fails check 1 of R203 before any access, so its launch is never refused (R62, R91, log 14). -/
theorem launchesOnDevice_reserved {w : Word} (h : validCommandWord w = false) (s : State) :
    launchesOnDevice s w = false := by
  obtain ⟨e, he⟩ := decodeCommand_reserved h
  have hl : launchCheck (pendingLatched s w) = some .badCmd := by
    rw [launchCheck, show (pendingLatched s w).cmd = w from rfl, he]
  rw [launchesOnDevice, hl]
  rfl

theorem runCommand_of_error {s : State} {e : DecodeError} (h : decodeCommand s.latched.cmd = .error e) :
    runCommand s = .next (badCommand s) := by
  rw [runCommand, fetchCommand, h]

theorem beginCommand_of_error {s : State} {e : DecodeError} (h : decodeCommand s.latched.cmd = .error e) :
    beginCommand s = badCommand s := by
  rw [beginCommand, fetchCommand, h]

/-- Settles O38: the word is accepted, and either turn finds that it does not decode. -/
theorem reservedWordsCompleteWithBadCmd : Obligations.ReservedWordsCompleteWithBadCmd := by
  intro s w hb hv
  obtain ⟨e, he⟩ := decodeCommand_reserved hv
  have hd : decodeCommand (acceptCommand w s).latched.cmd = .error e := he
  obtain ⟨hc, hm⟩ := raiseFault_completion .badCmd (acceptCommand w s)
  refine ⟨acceptCommand w s, badCommand (acceptCommand w s), ?_, ?_, ?_, rfl, hc, rfl, hm⟩
  · rw [hostOp_wr (by decide)]
    show writeCmd w s = _
    rw [writeCmd, if_neg (by simp [hb]), if_neg (by simp [launchesOnDevice_reserved hv])]
  · rw [engineTurn_begin _ rfl rfl, runCommand_of_error hd]
  · rw [engineFineTurn_begin _ rfl rfl, beginCommand_of_error hd]

end Sys2Proof.Machine

/-! PROOFS. DECOMPRESS reads no padding bit and no byte after the blob (30_encoding.md R93, R94): run from two states that
differ only in memory inside the source region, and agree there on what the blob's header counts, it comes to states that
differ only there. -/

namespace Sys2Proof.Machine

/-! ### States alike but for some bytes of memory -/

/-- `t` is `s` but for memory, and reads as `s` outside the `n` bytes at `a`. -/
structure MemTwin (a n : Nat) (s t : State) : Prop where
  frame : { s with mem := t.mem } = t
  outside : SameOutside a n s t

/-- What a byte reads after a write depends on what was written and on what it read before. -/
theorem readByte_writeBytes_congr {s t : State} {x : Nat} (h : readByte t x = readByte s x) (b : Nat) (bs : List Byte) :
    readByte (writeBytes t b bs) x = readByte (writeBytes s b bs) x := by
  by_cases hx : b ≤ x ∧ x < b + bs.length
  · simp only [readByte, memRead, writeBytes_mem, memGet_memWrite, if_pos hx]
  · rw [readByte_writeBytes_of_not_mem _ _ _ _ hx, readByte_writeBytes_of_not_mem _ _ _ _ hx, h]

namespace MemTwin

variable {a n : Nat} {s t : State} (h : MemTwin a n s t)
include h

theorem dec : t.dec = s.dec := by rw [← h.frame]

theorem latched : t.latched = s.latched := by rw [← h.frame]

theorem draws : t.draws = s.draws := by rw [← h.frame]

/-- An update that neither reads nor writes memory keeps states alike. -/
theorem map {f : State → State} (hf : ∀ u m, f { u with mem := m } = { f u with mem := m }) :
    MemTwin a n (f s) (f t) := by
  have hmem : ∀ u, (f u).mem = u.mem := fun u => (congrArg State.mem (hf u u.mem) :)
  refine ⟨?_, fun x hx => ?_⟩
  · rw [hmem, ← hf, h.frame]
  · rw [readByte, readByte, hmem, hmem]
    exact h.outside x hx

theorem writeBytes (b : Nat) (bs : List Byte) : MemTwin a n (writeBytes s b bs) (writeBytes t b bs) where
  frame := by
    conv_rhs => rw [← h.frame]
    rfl
  outside x hx := readByte_writeBytes_congr (h.outside x hx) b bs

/-- A copy whose sources lie outside the bytes that differ keeps states alike. -/
theorem copyBytes {k b d : Nat} (hr : ∀ j, j < k → ¬(a ≤ b + j - d ∧ b + j - d < a + n)) :
    MemTwin a n (copyBytes k b d s) (copyBytes k b d t) := by
  induction k generalizing b s t with
  | zero => exact h
  | succ k ih =>
    have hsrc : readByte t (b - d) = readByte s (b - d) := h.outside _ (hr 0 (by omega))
    rw [Machine.copyBytes, Machine.copyBytes, hsrc]
    refine ih (h.writeBytes b _) fun j hj => ?_
    have hsucc := hr (j + 1) (by omega)
    rwa [show b + 1 + j = b + (j + 1) by omega]

theorem setDec (r : DecRegs) : MemTwin a n { s with dec := r } { t with dec := r } :=
  h.map (f := fun u => { u with dec := r }) fun _ _ => rfl

theorem raiseFault (c : Cause) : MemTwin a n (raiseFault c s) (raiseFault c t) := h.map fun _ _ => rfl

theorem drawBytes (b k : Nat) : MemTwin a n (drawBytes s b k) (drawBytes t b k) := by
  rw [Machine.drawBytes, Machine.drawBytes, h.draws]
  exact (h.writeBytes b _).map (f := fun u => { u with draws := s.draws + 1 }) fun _ _ => rfl

theorem raiseReplayFault (c : Cause) : MemTwin a n (raiseReplayFault c s) (raiseReplayFault c t) := by
  rw [Machine.raiseReplayFault, Machine.raiseReplayFault, h.latched, h.dec]
  exact (h.drawBytes _ _).raiseFault c

theorem decompressFinish : MemTwin a n (decompressFinish s) (decompressFinish t) := h.map fun _ _ => rfl

end MemTwin

/-! ### Results alike -/

/-- Two results of the engine's operations: the same cause, or states alike but for the `n` bytes at `a`. -/
inductive ResultTwin (a n : Nat) : Except Cause State → Except Cause State → Prop
  | ok {s t : State} (h : MemTwin a n s t) : ResultTwin a n (.ok s) (.ok t)
  | error (c : Cause) : ResultTwin a n (.error c) (.error c)

/-- LIT reads no memory (R152). -/
theorem litToken_twin {a n : Nat} {s t : State} (h : MemTwin a n s t) (b : Byte) :
    ResultTwin a n (litToken b s) (litToken b t) := by
  simp only [litToken, outputAddr, h.dec, h.latched]
  split
  · exact .error _
  · split
    · exact .error _
    · exact .ok ((h.writeBytes _ _).setDec _)

/-- MATCH reads only bytes of the output before it (R153, R154). -/
theorem matchToken_twin {a n : Nat} {s t : State} (h : MemTwin a n s t)
    (hout : ∀ i, i < s.dec.ol.toNat → ¬(a ≤ outputAddr s i ∧ outputAddr s i < a + n)) (d : BitVec 16) (l : Byte) :
    ResultTwin a n (matchToken d l s) (matchToken d l t) := by
  simp only [matchToken, outputAddr, h.dec, h.latched]
  split
  · exact .error _
  · split
    · exact .error _
    · split
      · exact .error _
      · refine .ok ((h.copyBytes fun j hj => ?_).setDec _)
        have hsrc := hout (s.dec.wc.toNat + j - d.toNat) (by omega)
        rwa [outputAddr, show s.latched.dstAddr.toNat + (s.dec.wc.toNat + j - d.toNat) =
          s.latched.dstAddr.toNat + s.dec.wc.toNat + j - d.toNat by omega] at hsrc

theorem endOfReplay_twin {a n : Nat} {s t : State} (h : MemTwin a n s t) :
    ResultTwin a n (endOfReplay s) (endOfReplay t) := by
  simp only [endOfReplay, h.dec]
  split
  · exact .error _
  · split
    · exact .error _
    · exact .ok h

theorem settleReplay_twin {a n : Nat} {s t : State} (h : MemTwin a n s t) {r r' : Except Cause State}
    (hr : ResultTwin a n r r') : MemTwin a n (settleReplay s r) (settleReplay t r') := by
  cases hr with
  | ok hu => exact hu.decompressFinish
  | error c => exact h.raiseReplayFault c

/-! ### A blob that no token writes -/

/-- The blob being replayed lies in the source region, and the output lies apart from it (R203, checks 4 and 6). -/
structure BlobApart (s : State) : Prop where
  fits : blobSize s.dec ≤ s.latched.srcLen.toNat
  apart : s.dec.ol.toNat = 0 ∨ s.latched.dstAddr.toNat + s.dec.ol.toNat ≤ s.latched.srcAddr.toNat ∨
    s.latched.srcAddr.toNat + s.latched.srcLen.toNat ≤ s.latched.dstAddr.toNat

/-- Where a blob lies is a matter of the regions and the header fields alone. -/
theorem BlobApart.of_header {s t : State} (h : BlobApart s) (hl : t.latched = s.latched) (ho : t.dec.ol = s.dec.ol)
    (hc : t.dec.cl = s.dec.cl) (hf : t.dec.fc = s.dec.fc) : BlobApart t := by
  obtain ⟨hfits, hapart⟩ := h
  rw [blobSize] at hfits
  exact ⟨by rwa [blobSize, hc, hf, hl], by rwa [ho, hl]⟩

/-- The output lies outside the source region. -/
theorem BlobApart.output_outside {s : State} (h : BlobApart s) (i : Nat) (hi : i < s.dec.ol.toNat) :
    ¬(s.latched.srcAddr.toNat ≤ outputAddr s i ∧
      outputAddr s i < s.latched.srcAddr.toNat + s.latched.srcLen.toNat) := by
  have hapart := h.apart
  rw [outputAddr]
  omega

namespace TokenDone

variable {s u : State} (h : TokenDone s u)
include h

theorem latched : u.latched = s.latched := by rw [h.frame]

theorem blobApart (hb : BlobApart s) : BlobApart u := hb.of_header h.latched h.ol_eq h.cl_eq h.fc_eq

/-- A token leaves the source region alone (R152, R153). -/
theorem sourceByte_eq (hb : BlobApart s) {i : Nat} (hi : i < s.latched.srcLen.toNat) :
    sourceByte u i = sourceByte s i := by
  have hapart := hb.apart
  rw [sourceByte, sourceByte, h.latched]
  exact h.sameOutside _ (by omega)

theorem decision_eq (hb : BlobApart s) {i : Nat} (hi : i < s.dec.fc.toNat) : decision u i = decision s i := by
  have hfits := hb.fits
  have hbyte := ceil8_div hi
  rw [blobSize] at hfits
  rw [decision, decision, h.sourceByte_eq hb (by omega)]

theorem contentByte_eq (hb : BlobApart s) {i : Nat} (hi : i < s.dec.cl.toNat) : contentByte u i = contentByte s i := by
  have hfits := hb.fits
  rw [blobSize] at hfits
  rw [contentByte, contentByte, h.fc_eq, h.sourceByte_eq hb (by omega)]

end TokenDone

/-! ### The replay of blobs that agree -/

/-- Two replays in progress, alike but for their source regions, which hold blobs that agree on the decisions and the
content their header counts (R93, R94). -/
structure ReplayTwin (s t : State) : Prop where
  twin : MemTwin s.latched.srcAddr.toNat s.latched.srcLen.toNat s t
  blob : BlobApart s
  decision_eq : ∀ i, i < s.dec.fc.toNat → decision t i = decision s i
  content_eq : ∀ i, i < s.dec.cl.toNat → contentByte t i = contentByte s i

namespace ReplayTwin

variable {s t : State} (h : ReplayTwin s t)
include h

theorem fetchToken_eq (hi : s.dec.di.toNat < s.dec.fc.toNat) : fetchToken t = fetchToken s := by
  have hb : tokenBytes t = tokenBytes s := by
    rw [tokenBytes, tokenBytes, h.twin.dec]
    exact List.map_congr_left fun j hj => h.content_eq _ (by rw [List.mem_range] at hj; omega)
  rw [fetchToken, fetchToken, h.twin.dec, h.decision_eq _ hi, hb]

theorem runToken_twin (i : Instr) :
    ResultTwin s.latched.srcAddr.toNat s.latched.srcLen.toNat (runToken i s) (runToken i t) := by
  cases i with
  | compress => exact .ok h.twin
  | decompress => exact .ok h.twin
  | findMatch => exact .ok h.twin
  | lit b => exact litToken_twin h.twin b
  | matchRecord d l => exact matchToken_twin h.twin h.blob.output_outside d l

theorem replayToken_twin (hi : s.dec.di.toNat < s.dec.fc.toNat) :
    ResultTwin s.latched.srcAddr.toNat s.latched.srcLen.toNat (replayToken s) (replayToken t) := by
  rw [replayToken, replayToken, h.fetchToken_eq hi]
  cases fetchToken s with
  | ok i => exact h.runToken_twin i
  | error e => exact .error _

/-- A token writes neither blob, so the replays stay twins. -/
theorem token {u v : State} (hs : TokenDone s u) (ht : TokenDone t v)
    (huv : MemTwin s.latched.srcAddr.toNat s.latched.srcLen.toNat u v) : ReplayTwin u v := by
  have hdec := h.twin.dec
  have hblob : BlobApart t := h.blob.of_header h.twin.latched (by rw [hdec]) (by rw [hdec]) (by rw [hdec])
  refine ⟨hs.latched.symm ▸ huv, hs.blobApart h.blob, fun i hi => ?_, fun i hi => ?_⟩
  · rw [hs.fc_eq] at hi
    rw [ht.decision_eq hblob (by rwa [hdec]), h.decision_eq i hi, hs.decision_eq h.blob hi]
  · rw [hs.cl_eq] at hi
    rw [ht.contentByte_eq hblob (by rwa [hdec]), h.content_eq i hi, hs.contentByte_eq h.blob hi]

end ReplayTwin

/-- The replay loop, token by token (R150). -/
theorem ReplayTwin.replay_twin {s t : State} (h : ReplayTwin s t) (n : Nat) (hn : s.dec.di.toNat + n ≤ s.dec.fc.toNat) :
    ResultTwin s.latched.srcAddr.toNat s.latched.srcLen.toNat (replay n s) (replay n t) := by
  induction n generalizing s t with
  | zero => exact endOfReplay_twin h.twin
  | succ n ih =>
    have hr := h.replayToken_twin (by omega)
    rw [replay, replay]
    generalize hs : replayToken s = r at hr ⊢
    generalize ht : replayToken t = r' at hr ⊢
    cases hr with
    | error c => exact .error c
    | ok huv =>
      have hdone := replayToken_done hs
      have hdi := cursor_succ (c := s.dec.di) (b := s.dec.fc) (by omega)
      rw [← hdone.latched]
      exact ih (h.token hdone (replayToken_done ht) huv) (by rw [hdone.di_eq, hdone.fc_eq, hdi]; omega)

/-! ### The start of DECOMPRESS -/

/-- A header field is assembled from its 8 bytes (R82). -/
theorem headerField_congr {s t : State} {k : Nat} (h : ∀ i, i < 8 → sourceByte t (k + i) = sourceByte s (k + i)) :
    headerField t k = headerField s k := by
  rw [headerField, headerField, sourceBytes, sourceBytes,
    List.map_congr_left fun j hj => h j (List.mem_range.1 hj)]

theorem headerRegs_congr {s t : State} (h : ∀ i, i < 24 → sourceByte t i = sourceByte s i) :
    headerRegs t = headerRegs s := by
  rw [headerRegs, headerRegs, headerField_congr fun i _ => h (0 + i) (by omega),
    headerField_congr fun i _ => h (8 + i) (by omega), headerField_congr fun i _ => h (16 + i) (by omega)]

/-- What comes before the first token depends on the regions and the header alone (R157). -/
theorem decompressBegin_twin {a n : Nat} {s t : State} (h : MemTwin a n s t) (hh : headerRegs t = headerRegs s) :
    ResultTwin a n (decompressBegin s) (decompressBegin t) := by
  have hu : unpack t = unpack s := by rw [unpack, unpack, h.latched, hh]
  have hc : decompressChecks t.latched = decompressChecks s.latched := by rw [h.latched]
  have hcap : t.latched.dstCap = s.latched.dstCap := by rw [h.latched]
  rw [decompressBegin, decompressBegin, hu, hc, hcap]
  cases decompressChecks s.latched with
  | some c => exact .error c
  | none =>
    cases unpack s with
    | error c => exact .error c
    | ok r =>
      dsimp only
      split
      · exact .error _
      · exact .ok (h.map (f := fun u => { u with dec := r, inLoop := true }) fun _ _ => rfl)

/-- A DECOMPRESS that passed its checks replays a blob that its output lies apart from (R157, R203). -/
theorem blobApart_of_decompressBegin {s t : State} (h : decompressBegin s = .ok t) :
    t = { s with dec := headerRegs s, inLoop := true } ∧ BlobApart t := by
  obtain ⟨c, hc, -⟩ | ⟨ht, hchecks, hfits, hol⟩ := decompressBegin_cases s
  · rw [h] at hc; cases hc
  · rw [h] at ht; cases ht
    refine ⟨rfl, hfits, ?_⟩
    have hover : latchedOverlap s.latched = false := by
      obtain ⟨-, h'⟩ | ⟨-, -, h'⟩ | ⟨-, -, -, h'⟩ | ⟨-, -, h', -⟩ := decompressChecks_cases s.latched
      · simp [hchecks] at h'
      · simp [hchecks] at h'
      · simp [hchecks] at h'
      · exact h'
    have hsrc : s.latched.srcLen.toNat ≠ 0 := by
      rw [blobSize, show Config.headerBytes = 24 from rfl] at hfits
      omega
    show (headerRegs s).ol.toNat = 0 ∨ _
    rcases Nat.eq_zero_or_pos (headerRegs s).ol.toNat with h0 | h0
    · exact .inl h0
    · have := latchedOverlap_false hover hsrc (by omega)
      dsimp only
      omega

/-- DECOMPRESS in two states alike but for their source regions, whose blobs agree on the header, the decisions below `fc`
and the content (R94). -/
theorem execDecompress_twin {s t : State} (h : MemTwin s.latched.srcAddr.toNat s.latched.srcLen.toNat s t)
    (hh : ∀ i, i < 24 → sourceByte t i = sourceByte s i)
    (hd : ∀ i, i < (headerField s 16).toNat → decision t i = decision s i)
    (hc : ∀ i, i < (headerField s 8).toNat → sourceByte t (24 + ceil8 (headerField s 16).toNat + i) =
      sourceByte s (24 + ceil8 (headerField s 16).toNat + i)) :
    ∃ u v, execDecompress s = .next u ∧ execDecompress t = .next v ∧
      MemTwin s.latched.srcAddr.toNat s.latched.srcLen.toNat u v := by
  have hr := decompressBegin_twin h (headerRegs_congr hh)
  rw [execDecompress, execDecompress]
  generalize hs : decompressBegin s = r at hr ⊢
  generalize ht : decompressBegin t = r' at hr ⊢
  cases hr with
  | error c => exact ⟨_, _, rfl, rfl, h.raiseFault c⟩
  | ok huv =>
    obtain ⟨rfl, hblob⟩ := blobApart_of_decompressBegin hs
    obtain ⟨rfl, -⟩ := blobApart_of_decompressBegin ht
    have hreplay : ReplayTwin { s with dec := headerRegs s, inLoop := true }
        { t with dec := headerRegs t, inLoop := true } :=
      ⟨huv, hblob, hd, fun i hi => by
        rw [headerRegs_congr hh]
        exact hc i hi⟩
    refine ⟨_, _, rfl, rfl, settleReplay_twin huv ?_⟩
    rw [huv.dec]
    exact hreplay.replay_twin _ (by simp [headerRegs])

/-- Settles O36: the twins of `execDecompress_twin`. -/
theorem paddingAndTrailingBytesAreIgnored : Obligations.PaddingAndTrailingBytesAreIgnored := by
  intro s s' t t' hframe hout hheader hdec hcontent ht ht'
  have htwin : MemTwin s.latched.srcAddr.toNat s.latched.srcLen.toNat s s' :=
    ⟨hframe, fun x hx => (hout x (decide_eq_false hx)).symm⟩
  obtain ⟨u, v, hu, hv, huv⟩ := execDecompress_twin htwin (fun i hi => (hheader i hi).symm)
    (fun i hi => (hdec i hi).symm) (fun i hi => (hcontent i hi).symm)
  rw [exec, hu] at ht
  rw [exec, hv] at ht'
  cases ht
  cases ht'
  exact ⟨huv.frame, fun x hx => (huv.outside x (of_decide_eq_false hx)).symm⟩

end Sys2Proof.Machine

/-! PROOFS. FIND_MATCH (40_match_finder.md R100 to R105): the finder's counts read as agreements of bytes, and the two
completions of the command, from which its obligations follow. -/

namespace Sys2Proof.Machine

/-! ### Agreements -/

/-- The inner loop counts every byte of an agreement that lies within its bound (R100). -/
theorem le_matchLen {B : Nat → Byte} {n i j m : Nat} (hm : m ≤ n) (h : ∀ k, k < m → B (i + k) = B (j + k)) :
    m ≤ matchLen B n i j := by
  by_contra hlt
  exact matchLen_stop B n i j (by omega) (h _ (by omega))

/-- Where the inner loop counts fewer than `l` bytes, some byte before the `l`-th differs (R100). -/
theorem exists_ne_of_matchLen_lt {B : Nat → Byte} {n i j l : Nat} (hl : l ≤ n) (h : matchLen B n i j < l) :
    ∃ k, k < l ∧ B (i + k) ≠ B (j + k) := by
  by_contra hall
  push Not at hall
  exact absurd (le_matchLen hl hall) (Nat.not_le_of_lt h)

/-! ### The completions of FIND_MATCH -/

/-- A failed check completes FIND_MATCH with its cause and leaves memory as it is (R203, R206). -/
theorem exec_findMatch_fault {s : State} {c : Cause} (h : findChecks s.latched = some c) :
    ∃ t, exec .findMatch s = .next t ∧ FaultCompletion c s t ∧ t.mem = s.mem :=
  ⟨raiseFault c s, by rw [exec, execFindMatch, h], raiseFault_completion c s⟩

/-- The registers of FIND_MATCH's query after its last candidate (R104). -/
def latchedQuery (s : State) : FinderRegs :=
  findLongestMatch (sourceByte s) s.latched.position (findWindow s.latched) (findMaxlen s.latched)

/-- Past its checks FIND_MATCH completes with the finder's best pair and leaves memory as it is (R104, R205). -/
theorem exec_findMatch_success {s : State} (h : findChecks s.latched = none) :
    ∃ t, exec .findMatch s = .next t ∧
      SuccessCompletion 0 0 0 ⟨(latchedQuery s).bestD, (latchedQuery s).bestL⟩ s t ∧ t.mem = s.mem := by
  refine ⟨findFinish { s with finder := latchedQuery s, inLoop := true }, ?_, complete_success 0 0 0 _ _, rfl⟩
  rw [exec, execFindMatch, h, latchedQuery, ← findLoop_findBegin]

/-! ### The obligations -/

/-- Settles O26: past the checks the pair is `findLongestMatch_best`'s, whose counts are agreements. -/
theorem findMatchAnswersTheNearestLongest : Obligations.FindMatchAnswersTheNearestLongest := by
  intro s hsrc hpos B p wl maxlen
  have hchecks : findChecks s.latched = none := by
    obtain ⟨h, -⟩ | ⟨-, h, -⟩ | ⟨-, -, h⟩ := findChecks_cases s.latched
    · omega
    · omega
    · exact h
  obtain ⟨t, hexec, hdone, hmem⟩ := exec_findMatch_success hchecks
  have hbest : FinderBest B s.latched.position (findWindow s.latched) (findMaxlen s.latched)
    (findWindow s.latched).toNat (latchedQuery s) := findLongestMatch_best _ _ _ _
  have hwl : (findWindow s.latched).toNat = wl := toNat_findWindow _
  have hmax : (findMaxlen s.latched).toNat = maxlen := toNat_findMaxlen _
  have hl : (latchedQuery s).bestL.toNat ≤ maxlen := hmax ▸ hbest.bestL_le
  refine ⟨t, (latchedQuery s).bestD.toNat, (latchedQuery s).bestL.toNat, hexec, by simpa using hdone, hmem,
    hwl ▸ hbest.bestD_le, hl, ?_, findLongestMatch_agree _ _ _ _, ?_, ?_⟩
  · rw [← eq_zero_iff_toNat, ← eq_zero_iff_toNat]
    exact hbest.none_iff
  · intro d m h1 hd hm hagree
    exact (le_matchLen (hmax.symm ▸ hm) hagree).trans (hbest.longest d h1 (hwl.symm ▸ hd))
  · intro d h1 hd
    exact exists_ne_of_matchLen_lt hbest.bestL_le (hbest.nearest d h1 hd)

/-- Settles O27: the first check that fails gives the cause. -/
theorem findMatchFaultsInOrder : Obligations.FindMatchFaultsInOrder := by
  intro s
  obtain ⟨hsrc, hc⟩ | ⟨hsrc, hpos, hc⟩ | ⟨hsrc, hpos, -⟩ := findChecks_cases s.latched
  · exact ⟨fun _ => exec_findMatch_fault hc, fun h => absurd h (by omega)⟩
  · exact ⟨fun h => absurd h (by omega), fun _ _ => exec_findMatch_fault hc⟩
  · exact ⟨fun h => absurd h (by omega), fun _ h => absurd h (by omega)⟩

/-- Settles O28: the answer is the finder's, which reads no other byte (`findLongestMatch_congr`). -/
theorem findMatchReadsOnlyItsWindow : Obligations.FindMatchReadsOnlyItsWindow := by
  intro s s' t t' hlatched hchecks hbytes ht ht'
  obtain ⟨u, hu, ⟨-, -, -, -, -, -, hpair, -⟩, -⟩ := exec_findMatch_success hchecks
  obtain ⟨u', hu', ⟨-, -, -, -, -, -, hpair', -⟩, -⟩ := exec_findMatch_success (hlatched ▸ hchecks)
  obtain rfl : u = t := Host.Outcome.next.inj (hu.symm.trans ht)
  obtain rfl : u' = t' := Host.Outcome.next.inj (hu'.symm.trans ht')
  have hquery : latchedQuery s = latchedQuery s' := by
    rw [latchedQuery, latchedQuery, ← hlatched]
    exact findLongestMatch_congr _ _ _ _ _ hbytes
  rw [hpair, hpair', hquery]

end Sys2Proof.Machine

/-! PROOFS. The decision stream (41_decision_stream.md R121 to R123): every bit of the packed flags, and the packer after any
number of calls of `write_bit`, from which both obligations follow. -/

namespace Sys2Proof

/-! ### Packed flags (R123) -/

/-- The flag bit at any position of the packed flags is the decision there, or 0 past the last one. -/
theorem flagBit_packFlags_padded (flags : List Bool) (i : Nat) (hi : i < 8 * ceil8 flags.length) :
    flagBit ((packFlags flags).getD (i / 8) 0#8) i = flags.getD i false := by
  rw [flagBit, packFlags_bit _ _ _ (by omega) (Nat.mod_lt _ (by omega)), Nat.div_add_mod]

/-- A list read past its end with 0 as the default needs no test of the position. -/
theorem decide_lt_length_and_getD (flags : List Bool) (i : Nat) :
    (decide (i < flags.length) && flags.getD i false) = flags.getD i false := by
  by_cases h : i < flags.length
  · rw [decide_eq_true h, Bool.true_and]
  · rw [List.getD_eq_default _ _ (Nat.le_of_not_lt h), Bool.and_false]

/-- Settles O3: each flag byte holds its eight decisions, the missing ones 0 (`packFlags_bit`). -/
theorem packFlagsFormat : Obligations.PackFlagsFormat := by
  intro f
  refine ⟨packFlags_length f, fun j m hj hm => ?_, flagBit_packFlags f⟩
  rw [decide_lt_length_and_getD]
  exact packFlags_bit f j m hj hm

end Sys2Proof

namespace Sys2Proof.Machine

/-! ### The packer (R121) -/

/-- The encoder's registers after `write_bit` of each of `bits`, from an empty packer (R121). -/
def packerAfter (bits : List Bool) : EncRegs :=
  { EncRegs.zero with wbit := BitVec.ofNat 64 bits.length, fbuf := packFlags bits }

/-- One more call of `write_bit` appends its decision. -/
theorem writeBit_packerAfter (b : Bool) {bits : List Bool} (h : bits.length < 2 ^ 64) :
    writeBit b (packerAfter bits) = packerAfter (bits ++ [b]) := by
  have hfbuf : (writeBit b (packerAfter bits)).fbuf = packFlags (bits ++ [b]) :=
    writeBit_packFlags b { packerAfter bits with flags := bits } (Nat.mod_eq_of_lt h) rfl
  have hwbit : (writeBit b (packerAfter bits)).wbit = BitVec.ofNat 64 (bits ++ [b]).length := by
    rw [List.length_append, BitVec.ofNat_add]
    rfl
  calc writeBit b (packerAfter bits)
    _ = { EncRegs.zero with
          wbit := (writeBit b (packerAfter bits)).wbit
          fbuf := (writeBit b (packerAfter bits)).fbuf } := rfl
    _ = packerAfter (bits ++ [b]) := by rw [hwbit, hfbuf, packerAfter]

/-- The calls of `write_bit` for `bits`, one after the other (R121). -/
theorem foldl_writeBit {bits : List Bool} (h : bits.length < 2 ^ 64) :
    bits.foldl (fun e b => writeBit b e) EncRegs.zero = packerAfter bits := by
  induction bits using List.reverseRecOn with
  | nil => rfl
  | append_singleton bits b ih =>
    have hlt : bits.length < 2 ^ 64 := by
      rw [List.length_append] at h
      exact Nat.lt_of_add_right_lt h
    rw [List.foldl_append, ih hlt, List.foldl_cons, List.foldl_nil, writeBit_packerAfter b hlt]

/-- Settles O4: FBUF holds the packed decisions, whose bits past the last decision are 0. -/
theorem writeBitPacksMsbFirst : Obligations.WriteBitPacksMsbFirst := by
  intro bits h
  rw [foldl_writeBit h]
  refine ⟨Nat.mod_eq_of_lt h, packFlags_length bits, flagBit_packFlags bits, fun i hn hi => ?_⟩
  exact (flagBit_packFlags_padded bits i hi).trans (List.getD_eq_default _ _ hn)

end Sys2Proof.Machine

/-! PROOFS. The two granularities of a command (92_eei_decisions.md D31): run iteration by iteration, a command reaches the
state it reaches as one transition, within the number of turns that its iterations allow (42_encoder.md R139, 43_decoder.md
R159, 70_reset_and_hazards.md R242). -/

namespace Sys2Proof.Machine

/-! ### Turns in the fine granularity -/

/-- The engine gets from `s` to `t` in `n` turns of the fine granularity at most. -/
def ReachesWithin (n : Nat) (s t : State) : Prop := ∃ k, k ≤ n ∧ engineFineTurns k s = .next t

/-- A first turn, then the rest. -/
theorem ReachesWithin.cons {n : Nat} {s u t : State} (hu : engineFineTurn s = .next u) (h : ReachesWithin n u t) :
    ReachesWithin (n + 1) s t := by
  obtain ⟨k, hk, ht⟩ := h
  exact ⟨k + 1, by omega, by simp only [engineFineTurns, hu, ht]⟩

/-- One turn is enough for any bound that allows one. -/
theorem reachesWithin_of_turn {s t : State} (n : Nat) (h : engineFineTurn s = .next t) : ReachesWithin (n + 1) s t :=
  .cons h ⟨0, Nat.zero_le n, rfl⟩

/-- A command of phase `p` has begun in `s` and is not complete. -/
structure InProgress (p : Phase) (s : State) : Prop where
  inv : Inv s
  busy : s.status.busy = true
  loop : s.inLoop = true
  phase : s.phase = p

theorem InProgress.fineTurn {p : Phase} {s : State} (h : InProgress p s) : engineFineTurn s = engineIteration s :=
  engineFineTurn_loop s h.busy h.loop

/-! ### COMPRESS (R130, R139) -/

theorem InProgress.encOk {s : State} (h : InProgress .runCompress s) :
    compressChecks s.latched = none ∧ EncOk s.latched.srcLen.toNat s.enc := by
  have ⟨_, _, _, _, _, hprog, _⟩ := h.inv
  exact (compressProgress_iff s).1 hprog h.loop h.phase

theorem InProgress.fineTurn_compress {s : State} (h : InProgress .runCompress s) :
    engineFineTurn s =
      .next (if s.enc.pos.toNat < s.latched.srcLen.toNat then compressIteration s else compressFinish s) := by
  obtain ⟨hchk, henc⟩ := h.encOk
  rw [h.fineTurn, engineIteration_compress s h.phase, compressStep, if_pos (compressInSpace_of_encOk hchk henc),
    apply_ite Host.Outcome.next]

theorem InProgress.encode {s : State} (h : InProgress .runCompress s)
    (hlt : s.enc.pos.toNat < s.latched.srcLen.toNat) : InProgress .runCompress (compressIteration s) :=
  ⟨(EngineMove.encode h.busy h.loop h.phase hlt).inv h.inv, h.busy, h.loop, h.phase⟩

/-- An encoder iteration consumes input (R132, R133). -/
theorem InProgress.pos_lt_encode {s : State} (h : InProgress .runCompress s)
    (hlt : s.enc.pos.toNat < s.latched.srcLen.toNat) :
    s.enc.pos.toNat < (compressIteration s).enc.pos.toNat := by
  obtain ⟨-, henc⟩ := h.encOk
  have hpos : (compressIteration s).enc.pos.toNat = _ := (encodeEmit_encOk (sourceByte s) henc hlt).2
  have hadv := iterationAdvance_bounds (sourceByte s) _ _ hlt
  omega

/-- The iterations of a COMPRESS in progress come to the end of its loop. -/
theorem InProgress.reaches_compressFinish (fuel : Nat) {s : State} (h : InProgress .runCompress s)
    (hf : s.latched.srcLen.toNat ≤ s.enc.pos.toNat + fuel) :
    ReachesWithin (fuel + 1) s (compressFinish (compressLoop fuel s)) := by
  induction fuel generalizing s with
  | zero =>
    have hturn := h.fineTurn_compress
    rw [if_neg (by omega)] at hturn
    exact reachesWithin_of_turn 0 hturn
  | succ fuel ih =>
    have hturn := h.fineTurn_compress
    rw [compressLoop]
    split at hturn
    · next hlt =>
      rw [if_pos hlt]
      have hpos := h.pos_lt_encode hlt
      exact .cons hturn (ih (h.encode hlt) (show s.latched.srcLen.toNat ≤ _ by omega))
    · next hlt =>
      rw [if_neg hlt]
      exact reachesWithin_of_turn _ hturn

/-! ### FIND_MATCH (R100, R104) -/

theorem InProgress.fineTurn_find {s : State} (h : InProgress .runFind s) :
    engineFineTurn s = .next (if s.finder.d.toNat < s.finder.wl.toNat then findIteration s else findFinish s) := by
  rw [h.fineTurn, engineIteration_find s h.phase, findStep, if_pos (h.inv.findInSpace_eq_true h.loop h.phase),
    apply_ite Host.Outcome.next]

theorem finderCandidate_d (B : Nat → Byte) (f : FinderRegs) : (finderCandidate B f).d = f.d + 1 := by
  rw [finderCandidate]
  split <;> rfl

/-- The iterations of a FIND_MATCH in progress try the candidates that are left (R100). -/
theorem InProgress.reaches_findFinish (n : Nat) {s : State} (h : InProgress .runFind s)
    (hn : s.finder.d.toNat + n = s.finder.wl.toNat) : ReachesWithin (n + 1) s (findFinish (findLoop n s)) := by
  induction n generalizing s with
  | zero =>
    have hturn := h.fineTurn_find
    rw [if_neg (by omega)] at hturn
    exact reachesWithin_of_turn 0 hturn
  | succ n ih =>
    have hlt : s.finder.d.toNat < s.finder.wl.toNat := by omega
    have hturn := h.fineTurn_find
    rw [if_pos hlt] at hturn
    have hnext : InProgress .runFind (findIteration s) :=
      ⟨(EngineMove.candidate h.busy h.loop h.phase hlt).inv h.inv, h.busy, h.loop, h.phase⟩
    have hd : (findIteration s).finder.d.toNat = s.finder.d.toNat + 1 := by
      have hwl := s.finder.wl.isLt
      rw [findIteration, finderCandidate_d, BitVec.toNat_add]
      exact Nat.mod_eq_of_lt (by simp; omega)
    have hwl : (findIteration s).finder.wl = s.finder.wl := (finderCandidate_operands _ _).2.1
    exact .cons hturn (ih hnext (by rw [hd, hwl]; omega))

/-! ### DECOMPRESS (R150, R156) -/

/-- A pass of a replay in progress with a decision left runs the token, or completes with the cause it faults with. -/
theorem InProgress.fineTurn_token {s : State} (h : InProgress .runDecompress s)
    (hlt : s.dec.di.toNat < s.dec.fc.toNat) : engineFineTurn s = .next (settleToken s (replayToken s)) := by
  have hs := h.inv.replayInSpace_eq_true h.loop h.phase
  rw [h.fineTurn, engineIteration_decompress s h.phase, replayStep, if_pos hlt, replayToken]
  cases hf : fetchToken s with
  | error e => exact if_pos hs
  | ok i =>
    obtain ⟨t, he, hr, -⟩ | ⟨c, he, hr, -⟩ := exec_token i s (by rw [fetchToken_isToken hf]; simp) hs
    · simp only [he, hr, settleToken]
    · simp only [he, hr, settleToken]

/-- The last pass of a replay in progress makes the end checks (R156). -/
theorem InProgress.fineTurn_endOfReplay {s : State} (h : InProgress .runDecompress s)
    (hge : ¬s.dec.di.toNat < s.dec.fc.toNat) : engineFineTurn s = .next (settleReplay s (endOfReplay s)) := by
  rw [h.fineTurn, engineIteration_decompress s h.phase, replayStep, if_neg hge,
    if_pos (h.inv.replayInSpace_eq_true h.loop h.phase)]

/-- A replay settles to the same state from a token's start as from its end: what a fault leaves does not depend on the
token's writes (R206, D31). -/
theorem settleReplay_token {s t : State} (h : TokenDone s t) (hm : memWf s.mem = true) (r : Except Cause State) :
    settleReplay t r = settleReplay s r := by
  cases r with
  | ok u => rfl
  | error c => exact raiseReplayFault_token c h hm

/-- The passes of a DECOMPRESS in progress come to what its replay comes to. -/
theorem InProgress.reaches_settleReplay (n : Nat) {s : State} (h : InProgress .runDecompress s)
    (hn : s.dec.di.toNat + n = s.dec.fc.toNat) : ReachesWithin (n + 1) s (settleReplay s (replay n s)) := by
  induction n generalizing s with
  | zero => exact reachesWithin_of_turn 0 (h.fineTurn_endOfReplay (by omega))
  | succ n ih =>
    have hlt : s.dec.di.toNat < s.dec.fc.toNat := by omega
    have hturn := h.fineTurn_token hlt
    rw [replay]
    cases ht : replayToken s with
    | error c =>
      rw [ht] at hturn
      exact reachesWithin_of_turn _ hturn
    | ok t =>
      rw [ht] at hturn
      have hdone := replayToken_done ht
      have ⟨hm, _⟩ := h.inv
      have hnext : InProgress .runDecompress t := by
        refine ⟨(EngineMove.token h.busy h.loop h.phase hlt hdone).inv h.inv, ?_, ?_, ?_⟩ <;> rw [hdone.frame]
        exacts [h.busy, h.loop, h.phase]
      have hdi : t.dec.di.toNat = s.dec.di.toNat + 1 := by rw [hdone.di_eq, cursor_succ hlt]
      have hrest := ih hnext (by rw [hdi, hdone.fc_eq]; omega)
      exact .cons hturn (settleReplay_token hdone hm _ ▸ hrest)

/-! ### A command from acceptance to completion -/

section Accepted

variable {s : State} (hi : Inv s) (hb : s.status.busy = true) (hl : s.inLoop = false)
include hi hb hl

theorem compress_reaches (hd : decodeCommand s.latched.cmd = .ok .compress) :
    ∃ t, exec .compress s = .next t ∧ ReachesWithin (s.latched.srcLen.toNat + 2) s t := by
  have hturn := engineFineTurn_begin s hb hl
  rw [beginCommand, fetchCommand, hd] at hturn
  rw [exec, execCompress]
  cases hc : compressChecks s.latched with
  | some c =>
    simp only [hc] at hturn
    exact ⟨_, rfl, reachesWithin_of_turn _ hturn⟩
  | none =>
    simp only [hc] at hturn
    have hbegun : InProgress .runCompress (compressBegin s) :=
      ⟨(EngineMove.beginCompress hb hd hc).inv hi, hb, rfl, (hi.phase_of_decode hb hd).1 rfl⟩
    exact ⟨_, rfl, .cons hturn (hbegun.reaches_compressFinish _ (Nat.le_add_left _ _))⟩

theorem decompress_reaches (hd : decodeCommand s.latched.cmd = .ok .decompress) :
    ∃ t, exec .decompress s = .next t ∧ ReachesWithin ((headerField s 16).toNat + 2) s t := by
  have hturn := engineFineTurn_begin s hb hl
  rw [beginCommand, fetchCommand, hd] at hturn
  rw [exec, execDecompress]
  obtain ⟨c, hc, -⟩ | ⟨hc, hchk, hblob, hol⟩ := decompressBegin_cases s
  · simp only [hc] at hturn ⊢
    exact ⟨_, rfl, reachesWithin_of_turn _ hturn⟩
  · simp only [hc] at hturn ⊢
    have hbegun : InProgress .runDecompress { s with dec := headerRegs s, inLoop := true } :=
      ⟨(EngineMove.beginDecompress hb hd hchk hblob hol).inv hi, hb, rfl, (hi.phase_of_decode hb hd).2.1 rfl⟩
    exact ⟨_, rfl, .cons hturn (hbegun.reaches_settleReplay _ (Nat.zero_add _))⟩

theorem findMatch_reaches (hd : decodeCommand s.latched.cmd = .ok .findMatch) :
    ∃ t, exec .findMatch s = .next t ∧ ReachesWithin ((findWindow s.latched).toNat + 2) s t := by
  have hturn := engineFineTurn_begin s hb hl
  rw [beginCommand, fetchCommand, hd] at hturn
  rw [exec, execFindMatch]
  cases hc : findChecks s.latched with
  | some c =>
    simp only [hc] at hturn
    exact ⟨_, rfl, reachesWithin_of_turn _ hturn⟩
  | none =>
    simp only [hc] at hturn
    have hbegun : InProgress .runFind (findBegin s) :=
      ⟨(EngineMove.beginFind hb hd hc).inv hi, hb, rfl, (hi.phase_of_decode hb hd).2.2 rfl⟩
    exact ⟨_, rfl, .cons hturn (hbegun.reaches_findFinish _ (Nat.zero_add _))⟩

end Accepted

/-- The turns that the command accepted in `s` takes at most: its iterations, a turn to begin it and one to complete it
(R139, R159). A reserved word takes one (R91). -/
def turnBound (s : State) : Nat :=
  match s.phase with
  | .idle => 0
  | .runCompress => s.latched.srcLen.toNat + 2
  | .runDecompress => (headerField s 16).toNat + 2
  | .runFind => (findWindow s.latched).toNat + 2
  | .runBadCmd => 1

/-- A command run whole completes (R204, R205). -/
theorem runCommand_completed (s : State) : ∃ t, runCommand s = .next t ∧ Completed s t := by
  cases hd : decodeCommand s.latched.cmd with
  | error e => exact ⟨_, runCommand_of_error hd, raiseFault_completed _ (by decide) s⟩
  | ok i =>
    have hi : tokenDecision i = none := by
      obtain ⟨-, rfl⟩ | ⟨-, rfl⟩ | ⟨-, rfl⟩ := (decodeCommand_ok_iff _ i).1 hd <;> rfl
    rw [runCommand_of_decode hd]
    exact exec_command hi s

/-- A command run iteration by iteration comes to what it comes to run whole, within its bound (D31). -/
theorem runCommand_reaches {s : State} (hi : Inv s) (hb : s.status.busy = true) (hl : s.inLoop = false) :
    ∃ t, runCommand s = .next t ∧ ReachesWithin (turnBound s) s t := by
  have ⟨_, _, hcmd, _⟩ := hi
  obtain ⟨-, hphase⟩ := hcmd hb
  rw [turnBound, hphase]
  obtain ⟨hd, hp, -⟩ | ⟨hd, hp, -⟩ | ⟨hd, hp, -⟩ | ⟨⟨e, he⟩, hp, -⟩ := phaseOf_cases s.latched.cmd <;> rw [hp]
  · rw [runCommand_of_decode hd]; exact compress_reaches hi hb hl hd
  · rw [runCommand_of_decode hd]; exact decompress_reaches hi hb hl hd
  · rw [runCommand_of_decode hd]; exact findMatch_reaches hi hb hl hd
  · refine ⟨_, runCommand_of_error he, reachesWithin_of_turn 0 ?_⟩
    rw [engineFineTurn_begin s hb hl, beginCommand_of_error he]

/-- The completion both granularities of a command come to, the fine one within its bound (D31, R242). -/
theorem accepted_completes {s : State} (hi : Inv s) (hb : s.status.busy = true) (hl : s.inLoop = false) :
    ∃ t, engineTurn s = .next t ∧ Completed s t ∧ ReachesWithin (turnBound s) s t := by
  obtain ⟨t, ht, hreach⟩ := runCommand_reaches hi hb hl
  obtain ⟨u, hu, hdone⟩ := runCommand_completed s
  obtain rfl : t = u := Host.Outcome.next.inj (ht.symm.trans hu)
  exact ⟨t, (engineTurn_begin s hb hl).trans ht, hdone, hreach⟩

/-- Settles O50: a simulation of the whole command by its iterations (`accepted_completes`). -/
theorem iterationsReachTheCommandsOutcome : Obligations.IterationsReachTheCommandsOutcome := by
  intro s hi hb hl
  obtain ⟨t, hturn, hdone, k, -, hk⟩ := accepted_completes hi hb hl
  exact ⟨k, t, hk, hturn, hdone.busy⟩

/-- Settles O51: the bound of `accepted_completes`, read phase by phase; no turns at all complete nothing. -/
theorem everyAcceptedCommandCompletes : Obligations.EveryAcceptedCommandCompletes := by
  intro s hi hb hl
  obtain ⟨t, -, hdone, k, hbound, hk⟩ := accepted_completes hi hb hl
  refine ⟨k, t, hk, hdone.busy, hdone.done, hdone.phase, fun hp => ?_, fun hp => ?_, fun hp => ?_, fun hp => ?_⟩ <;>
    rw [turnBound, hp] at hbound
  · exact hbound
  · exact hbound
  · rwa [toNat_findWindow] at hbound
  · have hpos : k ≠ 0 := by
      rintro rfl
      cases hk
      exact absurd hdone.busy (by simp [hb])
    dsimp only at hbound
    omega

end Sys2Proof.Machine

/-! PROOFS. The encoder's token stream (42_encoder.md R130 to R138, 44_container.md R176): what its decisions, its content and
its tokens count, and that it depends on the input bytes alone. -/

namespace Sys2Proof.Machine

/-! ### What a token stream counts (R24, R120) -/

/-- A decision bit takes one content byte for a LIT, three for a MATCH (R88). -/
theorem streamContent_length (ts : List Instr) :
    (streamContent ts).length = (streamFlags ts).count false + 3 * (streamFlags ts).count true := by
  induction ts with
  | nil => rfl
  | cons t ts ih =>
    rw [streamContent_cons, List.length_append, ih]
    cases t with
    | compress | decompress | findMatch => exact Nat.zero_add _
    | lit b =>
      rw [streamFlags_cons (b := false) rfl, List.count_cons_self, List.count_cons_of_ne (by simp)]
      show 1 + _ = _
      omega
    | matchRecord d l =>
      rw [streamFlags_cons (b := true) rfl, List.count_cons_self, List.count_cons_of_ne (by simp)]
      show 3 + _ = _
      omega

/-- A stream of literals has one decision and one content byte per input byte it stands for (R85). -/
theorem literals_length {ts : List Instr} (h : ∀ t ∈ ts, tokenDecision t = some false) :
    (streamFlags ts).length = (ts.map tokenSpan).sum ∧ (streamContent ts).length = (ts.map tokenSpan).sum := by
  induction ts with
  | nil => exact ⟨rfl, rfl⟩
  | cons t ts ih =>
    obtain ⟨hflags, hcontent⟩ := ih fun u hu => h u (by simp [hu])
    have ht := h t (by simp)
    rw [streamFlags_cons ht, streamContent_cons, List.length_append, List.map_cons, List.sum_cons, List.length_cons, hflags,
      hcontent]
    cases t with
    | compress | decompress | findMatch | matchRecord => cases ht
    | lit b => exact ⟨Nat.add_comm _ _, rfl⟩

/-- The tokens of an iteration stand for the bytes it advances by (R132, R133). -/
theorem sum_tokenSpan_iterationTokens (B : Nat → Byte) (pos : Nat) (f : FinderRegs) :
    ((iterationTokens B pos f).map tokenSpan).sum = iterationAdvance f := by
  rw [iterationTokens, iterationAdvance]
  split
  · simp [Function.comp_def, tokenSpan]
  · simp [tokenSpan]

/-- The tokens from `pos` on stand for exactly the input left (R137). -/
theorem sum_tokenSpan_encodeTokens (B : Nat → Byte) {n fuel pos : Nat} (hp : pos ≤ n) (hf : n ≤ pos + fuel) :
    ((encodeTokens B n fuel pos).map tokenSpan).sum = n - pos := by
  induction fuel generalizing pos with
  | zero => rw [encodeTokens_done B n 0 pos hf, show n - pos = 0 by omega]; rfl
  | succ fuel ih =>
    rcases Nat.lt_or_ge pos n with hlt | hge
    · have ha := iterationAdvance_bounds B n pos hlt
      rw [encodeTokens_succ B n fuel pos hlt, List.map_append, List.sum_append, sum_tokenSpan_iterationTokens,
        ih ha.2 (by omega)]
      omega
    · rw [encodeTokens_done B n _ pos hge, show n - pos = 0 by omega]; rfl

theorem sum_tokenSpan_inputTokens (B : Nat → Byte) (n : Nat) : ((inputTokens B n).map tokenSpan).sum = n :=
  sum_tokenSpan_encodeTokens B (Nat.zero_le n) (Nat.le_add_left n 0)

/-- Settles O22: at most one decision and one content byte per byte consumed, and every byte is consumed. -/
theorem encoderCounts : Obligations.EncoderCounts := by
  intro B n
  obtain ⟨hflags, hcontent⟩ := encodeTokens_length B n n 0 (Nat.zero_le n)
  exact ⟨hflags, hcontent, streamContent_length _, sum_tokenSpan_inputTokens B n⟩

/-- Settles O24: the bound is R137's for each area of the blob, and literals reach it in both. -/
theorem blobFitsTheRequiredCapacity : Obligations.BlobFitsTheRequiredCapacity := by
  intro B n
  refine ⟨inputBlob_length_le B n, fun h => ?_⟩
  obtain ⟨hflags, hcontent⟩ := literals_length h
  rw [inputBlob, pack_length, hflags, hcontent, sum_tokenSpan_inputTokens]
  rfl

/-! ### The stream depends on the input bytes alone (R138) -/

section Congr

variable {B B' : Nat → Byte} {n : Nat} (h : ∀ x, x < n → B x = B' x)
include h

/-- A query's window and forward bytes lie within the input (R105, R131). -/
theorem queryAt_congr {pos : Nat} (hp : pos < n) : queryAt B n pos = queryAt B' n pos := by
  rw [queryAt, queryAt]
  refine findLongestMatch_congr B B' _ _ _ fun x _ hx => h x ?_
  have hle : (BitVec.ofNat 64 pos).toNat ≤ pos := BitVec.toNat_ofNat pos 64 ▸ Nat.mod_le _ _
  rw [toNat_clampMaxlen] at hx
  omega

/-- The literals of an iteration lie within the input (R132). -/
theorem iterationTokens_congr {pos : Nat} {f : FinderRegs} (hf : pos + iterationAdvance f ≤ n) :
    iterationTokens B pos f = iterationTokens B' pos f := by
  rw [iterationAdvance] at hf
  rw [iterationTokens, iterationTokens]
  split
  · next hmin =>
    rw [if_pos hmin] at hf
    exact List.map_congr_left fun i hi => by rw [List.mem_range] at hi; rw [h _ (by omega)]
  · rfl

theorem encodeTokens_congr (fuel pos : Nat) : encodeTokens B n fuel pos = encodeTokens B' n fuel pos := by
  induction fuel generalizing pos with
  | zero => rfl
  | succ fuel ih =>
    rcases Nat.lt_or_ge pos n with hlt | hge
    · rw [encodeTokens_succ _ _ _ _ hlt, encodeTokens_succ _ _ _ _ hlt, ← queryAt_congr h hlt, ih,
        iterationTokens_congr h (iterationAdvance_bounds B n pos hlt).2]
    · rw [encodeTokens_done _ _ _ _ hge, encodeTokens_done _ _ _ _ hge]

theorem inputTokens_congr : inputTokens B n = inputTokens B' n := encodeTokens_congr h n 0

theorem inputBlob_congr : inputBlob B n = inputBlob B' n := by rw [inputBlob, inputBlob, inputTokens_congr h]

end Congr

end Sys2Proof.Machine

/-! PROOFS. COMPRESS (42_encoder.md R136, R138): its fault completions in order, its success, and that it is a function of its
input. -/

namespace Sys2Proof.Machine

/-- A failed check completes COMPRESS with its cause and leaves memory as it is (R203, R206). -/
theorem exec_compress_fault {s : State} {c : Cause} (h : compressChecks s.latched = some c) :
    ∃ t, exec .compress s = .next t ∧ FaultCompletion c s t ∧ t.mem = s.mem :=
  ⟨raiseFault c s, by rw [exec, execCompress, h], raiseFault_completion c s⟩

/-- Settles O21: the first check that fails gives the cause. -/
theorem compressFaultsInOrder : Obligations.CompressFaultsInOrder := by
  intro s
  obtain ⟨hsrc, hc⟩ | ⟨hsrc, hdst, hc⟩ | ⟨hsrc, hdst, hover, hc⟩ | ⟨hsrc, hdst, hover, hcap, hc⟩ |
    ⟨hsrc, hdst, hover, hcap, -⟩ := compressChecks_cases s.latched
  · exact ⟨fun _ => exec_compress_fault hc, by omega, by omega, by omega⟩
  · exact ⟨by omega, fun _ _ => exec_compress_fault hc, by omega, by omega⟩
  · exact ⟨by omega, by omega, fun _ _ _ => exec_compress_fault hc, by simp [hover]⟩
  · exact ⟨by omega, by omega, by simp [hover], fun _ _ _ _ => exec_compress_fault hc⟩
  · exact ⟨by omega, by omega, by simp [hover], by omega⟩

/-- The end of COMPRESS completes with the counts of the blob it writes (R136, R205). -/
theorem compressFinish_success (s : State) :
    SuccessCompletion (compressBlob s).length s.enc.flags.length s.enc.content.length ⟨0, 0⟩ s (compressFinish s) :=
  successCompletion_of_frame (complete_success _ _ _ _ (scratchDest (compressBlob s).length (storeBlob s)))
    (by simp [SameConfiguration, scratchDest, storeBlob])

/-- Past its checks COMPRESS completes with the blob of its source bytes at the destination and the blob's counts in the
result registers (R130, R136, R171, R205). -/
theorem exec_compress_success {s : State} (h : compressChecks s.latched = none) :
    ∃ t, exec .compress s = .next t ∧
      SuccessCompletion (inputBlob (sourceByte s) s.latched.srcLen.toNat).length
        (streamFlags (inputTokens (sourceByte s) s.latched.srcLen.toNat)).length
        (streamContent (inputTokens (sourceByte s) s.latched.srcLen.toNat)).length ⟨0, 0⟩ s t ∧
      ∀ i, i < (inputBlob (sourceByte s) s.latched.srcLen.toNat).length →
        readByte t (s.latched.dstAddr.toNat + i) = (inputBlob (sourceByte s) s.latched.srcLen.toNat).getD i 0 := by
  obtain ⟨-, hdst, -, hcap⟩ := compressChecks_none h
  have hlen := inputBlob_length_le (sourceByte s) s.latched.srcLen.toNat
  have hblob := compressBlob_done s
  have hdone := compressFinish_success (compressLoop s.latched.srcLen.toNat (compressBegin s))
  have hread := compressFinish_blob (compressLoop s.latched.srcLen.toNat (compressBegin s))
  obtain ⟨f, hf⟩ := compressLoop_done s
  rw [hblob, hf] at hdone hread
  refine ⟨_, by rw [exec, execCompress, h, hf], hdone, fun i hi => hread i hi ?_⟩
  show s.latched.dstAddr.toNat + i < 2 ^ 64
  simp only [Config.headerBytes, ceil8] at hlen
  omega

/-- Settles O20: the conditions are the checks of COMPRESS, one by one. -/
theorem compressWritesItsBlob : Obligations.CompressWritesItsBlob := by
  intro s hsrc hdst hover hcap
  have hchecks : compressChecks s.latched = none := by
    obtain ⟨h, -⟩ | ⟨-, h, -⟩ | ⟨-, -, h, -⟩ | ⟨-, -, -, h, -⟩ | ⟨-, -, -, -, h⟩ := compressChecks_cases s.latched
    · omega
    · omega
    · simp [hover] at h
    · omega
    · exact h
  obtain ⟨t, ht, hdone, hblob⟩ := exec_compress_success hchecks
  obtain ⟨u, hu, hout⟩ := execCompress_outside s
  obtain rfl : t = u := Host.Outcome.next.inj (ht.symm.trans hu)
  exact ⟨t, ht, hdone, hblob, hout⟩

/-- Settles O25: both write the blob of their source bytes, which are the same (`inputBlob_congr`). -/
theorem compressIsDeterministic : Obligations.CompressIsDeterministic := by
  intro s s' t t' hchecks hchecks' hlen hbytes ht ht'
  obtain ⟨u, hu, ⟨-, -, -, hrl, hrf, hrc, hm, -⟩, hblob⟩ := exec_compress_success hchecks
  obtain ⟨u', hu', ⟨-, -, -, hrl', hrf', hrc', hm', -⟩, hblob'⟩ := exec_compress_success hchecks'
  obtain rfl : u = t := Host.Outcome.next.inj (hu.symm.trans ht)
  obtain rfl : u' = t' := Host.Outcome.next.inj (hu'.symm.trans ht')
  rw [← hlen, ← inputBlob_congr hbytes] at hrl' hblob'
  rw [← hlen, ← inputTokens_congr hbytes] at hrf' hrc'
  refine ⟨by rw [hrl, hrl'], by rw [hrf, hrf'], by rw [hrc, hrc'], by rw [hm, hm'], fun i hi => ?_⟩
  rw [hrl, BitVec.toNat_ofNat] at hi
  have hi' := hi.trans_le (Nat.mod_le _ _)
  rw [hblob i hi', hblob' i hi']

end Sys2Proof.Machine

/-! PROOFS. LIT and MATCH (43_decoder.md R151 to R155, 60_exceptions.md R203): their checks one by one, what they write, and
the step that runs them. -/

namespace Sys2Proof.Machine

/-! ### The checks of a token, one by one (R152, R153) -/

section Tokens

variable {s : State}

theorem litToken_contentOverrun (b : Byte) (hrc : s.dec.cl.toNat < s.dec.rc.toNat + 1) :
    litToken b s = .error .contentOverrun := if_pos hrc

theorem litToken_outputOverrun (b : Byte) (hrc : s.dec.rc.toNat + 1 ≤ s.dec.cl.toNat)
    (hwc : s.dec.ol.toNat < s.dec.wc.toNat + 1) : litToken b s = .error .outputOverrun := by
  rw [litToken, if_neg (by omega), if_pos hwc]

theorem litToken_writes (b : Byte) (hrc : s.dec.rc.toNat + 1 ≤ s.dec.cl.toNat)
    (hwc : s.dec.wc.toNat + 1 ≤ s.dec.ol.toNat) :
    litToken b s = .ok { writeBytes s (outputAddr s s.dec.wc.toNat) [b] with
      dec := { s.dec with rc := s.dec.rc + 1, wc := s.dec.wc + 1, di := s.dec.di + 1 } } := by
  rw [litToken, if_neg (by omega), if_neg (by omega)]

theorem matchToken_contentOverrun (d : BitVec 16) (l : Byte) (hrc : s.dec.cl.toNat < s.dec.rc.toNat + 3) :
    matchToken d l s = .error .contentOverrun := if_pos hrc

variable {d : BitVec 16} (l : Byte) (hrc : s.dec.rc.toNat + 3 ≤ s.dec.cl.toNat)
include hrc

theorem matchToken_badDisplacement (hd : d.toNat = 0 ∨ s.dec.wc.toNat < d.toNat) :
    matchToken d l s = .error .badDisplacement := by
  rw [matchToken, if_neg (Nat.not_lt.2 hrc), if_pos hd]

variable (hd : ¬(d.toNat = 0 ∨ s.dec.wc.toNat < d.toNat))
include hd

theorem matchToken_outputOverrun (hwc : s.dec.ol.toNat < s.dec.wc.toNat + l.toNat) :
    matchToken d l s = .error .outputOverrun := by
  rw [matchToken, if_neg (Nat.not_lt.2 hrc), if_neg hd, if_pos hwc]

theorem matchToken_copies (hwc : s.dec.wc.toNat + l.toNat ≤ s.dec.ol.toNat) :
    matchToken d l s = .ok { copyBytes l.toNat (outputAddr s s.dec.wc.toNat) d.toNat s with
      dec := { s.dec with rc := s.dec.rc + 3, wc := s.dec.wc + l.setWidth 64, di := s.dec.di + 1 } } := by
  rw [matchToken, if_neg (Nat.not_lt.2 hrc), if_neg hd, if_neg (Nat.not_lt.2 hwc)]
  rfl

end Tokens

/-- A token consumes its content (R88). -/
theorem runToken_rc {i : Instr} {s t : State} (hi : tokenDecision i ≠ none) (h : runToken i s = .ok t) :
    t.dec.rc.toNat = s.dec.rc.toNat + (tokenContent i).length := by
  cases i with
  | compress | decompress | findMatch => exact absurd rfl hi
  | lit b =>
    obtain ⟨hrc, -, rfl⟩ := litToken_ok h
    exact cursor_succ hrc
  | matchRecord d l =>
    obtain ⟨hrc, -, -, -, rfl⟩ := matchToken_ok h
    exact cursor_add hrc

/-! ### What a token answers -/

section Answer

variable {i : Instr} {s : State} (hi : tokenDecision i ≠ none) (hs : replayInSpace s = true)
include hi hs

theorem exec_of_runToken_ok {t : State} (h : runToken i s = .ok t) : exec i s = .next t := by
  obtain ⟨u, he, hr, -⟩ | ⟨c, -, hr, -⟩ := exec_token i s hi hs
  · rw [h] at hr
    cases hr
    exact he
  · rw [h] at hr
    cases hr

/-- A token that faults completes the command, and only `dst[0, ol)` may differ (R204, R206). -/
theorem exec_of_runToken_error {c : Cause} (h : runToken i s = .error c) :
    ∃ t, exec i s = .next t ∧ FaultCompletion c s t ∧ SameOutside s.latched.dstAddr.toNat s.dec.ol.toNat s t := by
  obtain ⟨u, -, hr, -⟩ | ⟨c', he, hr, -⟩ := exec_token i s hi hs
  · rw [h] at hr
    cases hr
  · rw [h] at hr
    cases hr
    exact ⟨_, he, raiseReplayFault_completion c s⟩

end Answer

/-- Settles O29: the checks of `litToken` one by one, and the one byte it writes. -/
theorem litExecutes : Obligations.LitExecutes := by
  intro s b hs
  have htok : tokenDecision (.lit b) ≠ none := by simp [tokenDecision]
  refine ⟨fun hrc hwc => ?_, fun hrc => exec_of_runToken_error htok hs (litToken_contentOverrun b hrc),
    fun hrc hwc => exec_of_runToken_error htok hs (litToken_outputOverrun b hrc hwc)⟩
  obtain ⟨-, hdst⟩ := (replayInSpace_iff s).1 hs
  exact ⟨_, exec_of_runToken_ok htok hs (litToken_writes b hrc hwc), rfl,
    readByte_writeBytes_byte s (show _ < 2 ^ 64 by rw [outputAddr]; omega) b⟩

/-- A copied byte, read back through the copy, is the byte before it that the copy did not write (R154). -/
theorem readByte_copyBytes_mod {n a d : Nat} {s : State} (h1 : 1 ≤ d) (h2 : d ≤ a) (hs : a + n ≤ addressSpace) {j : Nat}
    (hj : j < n) : readByte (copyBytes n a d s) (a + j) = readByte s (a - d + j % d) := by
  induction j using Nat.strong_induction_on with
  | _ j ih =>
    rw [readByte_copyBytes n a d s h1 h2 hs j hj]
    rcases Nat.lt_or_ge j d with hlt | hge
    · rw [readByte_copyBytes_of_not_mem _ _ _ _ _ (by omega), Nat.mod_eq_of_lt hlt, Nat.sub_add_comm h2]
    · rw [Nat.add_sub_assoc hge, ih (j - d) (by omega) (by omega), ← Nat.mod_eq_sub_mod hge]

/-- Settles O30: the bytes of a copy are those of the `d` bytes before it, over and over (`readByte_copyBytes_mod`). -/
theorem matchCopiesByteByByte : Obligations.MatchCopiesByteByByte := by
  intro s d l hs hrc hd1 hd hwc
  obtain ⟨-, hdst⟩ := (replayInSpace_iff s).1 hs
  have haddr : outputAddr s s.dec.wc.toNat = s.latched.dstAddr.toNat + s.dec.wc.toNat := rfl
  refine ⟨_, exec_of_runToken_ok (by simp [tokenDecision]) hs (matchToken_copies l hrc (by omega) hwc), ?_, fun j hj => ?_,
    readByte_copyBytes_of_not_mem l.toNat _ d.toNat s⟩
  · rw [copyBytes_frame]
  · exact readByte_copyBytes_mod hd1 (by omega) (show _ + l.toNat ≤ 2 ^ 64 by omega) hj

/-- Settles O31: the checks of `matchToken` one by one. -/
theorem matchFaultsInOrder : Obligations.MatchFaultsInOrder := by
  intro s d l hs
  have htok : tokenDecision (.matchRecord d l) ≠ none := by simp [tokenDecision]
  exact ⟨fun hrc => exec_of_runToken_error htok hs (matchToken_contentOverrun d l hrc),
    fun hrc hd => exec_of_runToken_error htok hs (matchToken_badDisplacement l hrc hd),
    fun hrc hd1 hd hwc => exec_of_runToken_error htok hs (matchToken_outputOverrun l hrc (by omega) hwc)⟩

/-! ### The step (R150, R151) -/

theorem engineIteration_token {s : State} {i : Instr} (hp : s.phase = .runDecompress)
    (hdi : s.dec.di.toNat < s.dec.fc.toNat) (hf : fetchToken s = .ok i) : engineIteration s = exec i s := by
  rw [engineIteration_decompress s hp, replayStep, if_pos hdi, hf]

theorem fetchToken_of_decode {s : State} {i : Instr} {rest : List Byte}
    (h : decode (.token (decision s s.dec.di.toNat) (tokenBytes s)) = .ok (i, rest)) : fetchToken s = .ok i := by
  rw [decode] at h
  rw [fetchToken, h]

/-- Settles O45: in either granularity the engine's turn is an iteration, which runs the token fetched. -/
theorem stepRunsTheFetchedToken : Obligations.StepRunsTheFetchedToken := by
  intro s i rest hb hl hp hn hdi hdec
  have hiter : engineIteration { s with turns := s.turns.tail } = exec i { s with turns := s.turns.tail } :=
    engineIteration_token hp hdi (fetchToken_of_decode hdec)
  rw [step]
  cases hturn : nextTurn s with
  | host => exact absurd hturn hn
  | engine => exact (engineTurn_loop { s with turns := s.turns.tail } hb hl).trans hiter
  | engineFine => exact (engineFineTurn_loop { s with turns := s.turns.tail } hb hl).trans hiter

end Sys2Proof.Machine

/-! PROOFS. The replay against the function on lists (43_decoder.md R150 to R157): token by token the machine keeps the output
that `expandFrom` builds, and faults where it does, with its cause. -/

namespace Sys2Proof.Machine

/-! ### One token on lists -/

/-- What a token makes of the output `out` of a blob that stands for `ol` bytes (R152, R153). -/
def expandStep (ol : Nat) (out : List Byte) (i : Instr) : Except Cause (List Byte) :=
  match expandToken out i with
  | none => .error .badDisplacement
  | some out' => if ol < out'.length then .error .outputOverrun else .ok out'

theorem expandStep_lit (ol : Nat) (out : List Byte) (b : Byte) :
    expandStep ol out (.lit b) = if ol < out.length + 1 then .error .outputOverrun else .ok (out ++ [b]) := by
  simp [expandStep, expandToken]

theorem expandStep_matchRecord (ol : Nat) (out : List Byte) (d : BitVec 16) (l : Byte) :
    expandStep ol out (.matchRecord d l) =
      if d.toNat = 0 ∨ out.length < d.toNat then .error .badDisplacement
      else if ol < out.length + l.toNat then .error .outputOverrun else .ok (expandCopy l.toNat d.toNat out) := by
  rw [expandStep, expandToken]
  by_cases hd : d.toNat = 0 ∨ out.length < d.toNat
  · rw [if_pos hd, if_pos hd]
  · rw [if_neg hd, if_neg hd, ← expandCopy_length]

/-- The function on lists takes one token, then the rest (R150). -/
theorem expandFrom_succ (ol : Nat) (flagBytes : List Byte) (n i : Nat) (content out : List Byte) :
    expandFrom ol flagBytes (n + 1) i content out =
      match decodeToken (flagBit (flagBytes.getD (i / 8) 0#8) i) content with
      | .error _ => .error .contentOverrun
      | .ok (t, rest) => expandStep ol out t >>= expandFrom ol flagBytes n (i + 1) rest := by
  rw [expandFrom]
  cases decodeToken (flagBit (flagBytes.getD (i / 8) 0#8) i) content with
  | error e => rfl
  | ok p =>
    simp only [expandStep]
    cases expandToken out p.1 with
    | none => rfl
    | some out' =>
      dsimp only
      split <;> rfl

/-! ### The two replays agree -/

/-- A byte written at the end of the output appends it. -/
theorem HoldsOutput.append {s : State} {out : List Byte} (h : HoldsOutput s out) (b : Byte)
    (hs : outputAddr s out.length < addressSpace) :
    HoldsOutput (writeBytes s (outputAddr s out.length) [b]) (out ++ [b]) := by
  intro i hi
  rw [List.length_append, List.length_singleton] at hi
  rw [readByte_writeBytes_byte s hs, List.getD_eq_getElem?_getD]
  split
  · next hx =>
    obtain rfl : i = out.length := Nat.add_left_cancel hx
    simp
  · next hx =>
    have hlt : i < out.length := Nat.lt_of_le_of_ne (Nat.le_of_lt_succ hi) fun he => hx (by rw [he]; rfl)
    rw [List.getElem?_append_left hlt, ← List.getD_eq_getElem?_getD]
    exact h i hlt

/-- The machine has the output that the function on lists gives, or faults with its cause. -/
inductive ReplayAgrees : Except Cause (List Byte) → Except Cause State → Prop
  | ok {out : List Byte} {t : State} (ho : HoldsOutput t out) (hw : t.dec.wc.toNat = out.length) :
    ReplayAgrees (.ok out) (.ok t)
  | error (c : Cause) : ReplayAgrees (.error c) (.error c)

/-- The replay in progress in `s` is that of the given flag bytes and content, and its output so far is `out`. -/
structure Replays (flagBytes content : List Byte) (s : State) (out : List Byte) : Prop where
  blob : BlobApart s
  space : s.latched.dstAddr.toNat + s.dec.ol.toNat ≤ addressSpace
  decision_eq : ∀ i, i < s.dec.fc.toNat → decision s i = flagBit (flagBytes.getD (i / 8) 0#8) i
  content_length : content.length = s.dec.cl.toNat
  content_eq : ∀ i, i < s.dec.cl.toNat → contentByte s i = content.getD i 0
  rc_le : s.dec.rc.toNat ≤ s.dec.cl.toNat
  output : HoldsOutput s out
  wc_eq : s.dec.wc.toNat = out.length

namespace Replays

variable {flagBytes content : List Byte} {s : State} {out : List Byte} (h : Replays flagBytes content s out)
include h

/-- A token leaves the blob as it is (R152, R153). -/
theorem token {t : State} {out' : List Byte} (hd : TokenDone s t) (ho : HoldsOutput t out')
    (hw : t.dec.wc.toNat = out'.length) : Replays flagBytes content t out' where
  blob := hd.blobApart h.blob
  space := by rw [hd.latched, hd.ol_eq]; exact h.space
  decision_eq i hi := by
    rw [hd.fc_eq] at hi
    rw [hd.decision_eq h.blob hi, h.decision_eq i hi]
  content_length := by rw [hd.cl_eq]; exact h.content_length
  content_eq i hi := by
    rw [hd.cl_eq] at hi
    rw [hd.contentByte_eq h.blob hi, h.content_eq i hi]
  rc_le := by rw [hd.cl_eq]; exact hd.rc_bound
  output := ho
  wc_eq := hw

/-- The machine fetches the token that the lists hold (R151). -/
theorem fetchToken_eq (hi : s.dec.di.toNat < s.dec.fc.toNat) :
    fetchToken s = (decodeToken (flagBit (flagBytes.getD (s.dec.di.toNat / 8) 0#8) s.dec.di.toNat)
      (content.drop s.dec.rc.toNat)).map Prod.fst := by
  rw [fetchToken, h.decision_eq _ hi, tokenBytes_eq h.content_length h.content_eq, decodeToken_take]
  cases decodeToken (flagBit (flagBytes.getD (s.dec.di.toNat / 8) 0#8) s.dec.di.toNat)
    (content.drop s.dec.rc.toNat) <;> rfl

/-- A LIT's byte goes to the end of the output (R152). -/
theorem lit_agrees (b : Byte) (hrc : s.dec.rc.toNat + 1 ≤ s.dec.cl.toNat) :
    ReplayAgrees (expandStep s.dec.ol.toNat out (.lit b)) (litToken b s) := by
  have hwc := h.wc_eq
  have hspace := h.space
  rw [expandStep_lit]
  split
  · rw [litToken_outputOverrun b hrc (by omega)]
    exact .error _
  · rw [litToken_writes b hrc (by omega)]
    refine .ok (fun i hi => ?_) ?_
    · rw [hwc]
      exact h.output.append b (by rw [outputAddr]; omega) i hi
    · rw [List.length_append, ← hwc]
      exact cursor_succ (b := s.dec.ol) (by omega)

/-- A MATCH copies what its expansion appends (R153, R154). -/
theorem match_agrees (d : BitVec 16) (l : Byte) (hrc : s.dec.rc.toNat + 3 ≤ s.dec.cl.toNat) :
    ReplayAgrees (expandStep s.dec.ol.toNat out (.matchRecord d l)) (matchToken d l s) := by
  have hspace := h.space
  rw [expandStep_matchRecord, ← h.wc_eq]
  split
  · next hd =>
    rw [matchToken_badDisplacement l hrc hd]
    exact .error _
  · next hd =>
    split
    · next hwc =>
      rw [matchToken_outputOverrun l hrc hd hwc]
      exact .error _
    · next hwc =>
      rw [matchToken_copies l hrc hd (by omega)]
      refine .ok ?_ ?_
      · rw [h.wc_eq] at hd hwc ⊢
        exact copyBytes_holds l.toNat d.toNat out s (by omega) (by omega) (by omega) h.output
      · rw [expandCopy_length, ← h.wc_eq]
        exact cursor_add_byte (b := s.dec.ol) (by omega)

theorem runToken_agrees {i : Instr} (hi : tokenDecision i ≠ none)
    (hrc : s.dec.rc.toNat + (tokenContent i).length ≤ s.dec.cl.toNat) :
    ReplayAgrees (expandStep s.dec.ol.toNat out i) (runToken i s) := by
  cases i with
  | compress | decompress | findMatch => exact absurd rfl hi
  | lit b => exact h.lit_agrees b hrc
  | matchRecord d l => exact h.match_agrees d l hrc

/-- The checks at the end (R156). -/
theorem endOfReplay_agrees (i : Nat) :
    ReplayAgrees (expandFrom s.dec.ol.toNat flagBytes 0 i (content.drop s.dec.rc.toNat) out) (endOfReplay s) := by
  have hol : s.dec.wc ≠ s.dec.ol ↔ out.length ≠ s.dec.ol.toNat := by rw [ne_eq, BitVec.toNat_eq, h.wc_eq]
  have hcl : s.dec.rc ≠ s.dec.cl ↔ content.drop s.dec.rc.toNat ≠ [] := by
    have hle := h.rc_le
    rw [ne_eq, ne_eq, BitVec.toNat_eq, List.drop_eq_nil_iff, h.content_length]
    omega
  rw [expandFrom, endOfReplay]
  simp only [hol, hcl]
  split
  · exact .error _
  · split
    · exact .error _
    · exact .ok h.output h.wc_eq

end Replays

/-- The replay loop agrees with the function on lists, token by token (R150). -/
theorem Replays.replay_agrees {flagBytes content : List Byte} {s : State} {out : List Byte}
    (h : Replays flagBytes content s out) (n : Nat) (hn : s.dec.di.toNat + n ≤ s.dec.fc.toNat) :
    ReplayAgrees (expandFrom s.dec.ol.toNat flagBytes n s.dec.di.toNat (content.drop s.dec.rc.toNat) out)
      (replay n s) := by
  induction n generalizing s out with
  | zero => exact h.endOfReplay_agrees _
  | succ n ih =>
    rw [expandFrom_succ, replay, replayToken, h.fetchToken_eq (by omega)]
    cases hdec : decodeToken (flagBit (flagBytes.getD (s.dec.di.toNat / 8) 0#8) s.dec.di.toNat)
      (content.drop s.dec.rc.toNat) with
    | error e => exact .error _
    | ok p =>
      obtain ⟨i, rest⟩ := p
      have htok : tokenDecision i ≠ none := by rw [decodeToken_isToken hdec]; simp
      obtain ⟨hrest, hle⟩ := decodeToken_rest hdec
      have hrc := h.rc_le
      rw [List.length_drop, h.content_length] at hle
      have hrun := h.runToken_agrees htok (by omega)
      simp only [Except.map]
      generalize hx : expandStep s.dec.ol.toNat out i = x at hrun ⊢
      generalize hy : runToken i s = y at hrun ⊢
      cases hrun with
      | error c => exact .error c
      | @ok out' t ho hw =>
        have hdone := runToken_done htok hy
        have hdi := cursor_succ (c := s.dec.di) (b := s.dec.fc) (by omega)
        have hnext := ih (h.token hdone ho hw) (by rw [hdone.di_eq, hdone.fc_eq, hdi]; omega)
        rw [hdone.ol_eq, hdone.di_eq, hdi, runToken_rc htok hy, ← List.drop_drop, ← hrest] at hnext
        exact hnext

end Sys2Proof.Machine

/-! PROOFS. DECOMPRESS (43_decoder.md R157, 44_container.md R173): what it finds in a blob, its completions before the first
token, and the two completions of its replay. -/

namespace Sys2Proof.Machine

/-! ### The checks before the blob is read (R157, R203) -/

theorem decompressChecks_eq_none_iff (l : Latched) :
    decompressChecks l = none ↔ l.srcAddr.toNat + l.srcLen.toNat ≤ 2 ^ 64 ∧ l.dstAddr.toNat + l.dstCap.toNat ≤ 2 ^ 64 ∧
      latchedOverlap l = false := by
  obtain ⟨hsrc, h⟩ | ⟨-, hdst, h⟩ | ⟨-, -, hover, h⟩ | ⟨hsrc, hdst, hover, h⟩ := decompressChecks_cases l
  · exact iff_of_false (by simp [h]) (by omega)
  · exact iff_of_false (by simp [h]) (by omega)
  · exact iff_of_false (by simp [h]) (by simp [hover])
  · exact iff_of_true h ⟨hsrc, hdst, hover⟩

/-! ### The completions before the first token (R157, R203) -/

theorem unpack_ok {s : State} (hlen : 24 ≤ s.latched.srcLen.toNat)
    (hblob : blobSize (headerRegs s) ≤ s.latched.srcLen.toNat) : unpack s = .ok (headerRegs s) :=
  (if_neg (Nat.not_lt.2 hlen)).trans (if_neg (Nat.not_lt.2 hblob))

section Begin

variable {s : State} (hchk : decompressChecks s.latched = none)
include hchk

theorem decompressBegin_of_unpack_error {c : Cause} (h : unpack s = .error c) : decompressBegin s = .error c := by
  rw [decompressBegin, hchk, h]

theorem decompressBegin_noHeader (hlen : s.latched.srcLen.toNat < 24) : decompressBegin s = .error .blobTruncated :=
  decompressBegin_of_unpack_error hchk (if_pos hlen)

variable (hlen : 24 ≤ s.latched.srcLen.toNat)
include hlen

theorem decompressBegin_truncated (hblob : s.latched.srcLen.toNat < blobSize (headerRegs s)) :
    decompressBegin s = .error .blobTruncated :=
  decompressBegin_of_unpack_error hchk ((if_neg (Nat.not_lt.2 hlen)).trans (if_pos hblob))

variable (hblob : blobSize (headerRegs s) ≤ s.latched.srcLen.toNat)
include hblob

theorem decompressBegin_alloc (hcap : s.latched.dstCap.toNat < (headerRegs s).ol.toNat) :
    decompressBegin s = .error .alloc := by
  rw [decompressBegin, hchk, unpack_ok hlen hblob]
  exact if_pos hcap

theorem decompressBegin_ok (hcap : (headerRegs s).ol.toNat ≤ s.latched.dstCap.toNat) :
    decompressBegin s = .ok { s with dec := headerRegs s, inLoop := true } := by
  rw [decompressBegin, hchk, unpack_ok hlen hblob]
  exact if_neg (Nat.not_lt.2 hcap)

end Begin

/-- A failed check before the first token completes DECOMPRESS with its cause and leaves memory as it is (R203, R206). -/
theorem exec_decompress_begin_fault {s : State} {c : Cause} (h : decompressBegin s = .error c) :
    ∃ t, exec .decompress s = .next t ∧ FaultCompletion c s t ∧ t.mem = s.mem :=
  ⟨raiseFault c s, by rw [exec, execDecompress, h], raiseFault_completion c s⟩

theorem exec_decompress_check_fault {s : State} {c : Cause} (h : decompressChecks s.latched = some c) :
    ∃ t, exec .decompress s = .next t ∧ FaultCompletion c s t ∧ t.mem = s.mem :=
  exec_decompress_begin_fault (by rw [decompressBegin, h])

/-- Settles O35: the first check that fails gives the cause. -/
theorem decompressFaultsBeforeReplayInOrder : Obligations.DecompressFaultsBeforeReplayInOrder := by
  intro s
  obtain ⟨hsrc, hc⟩ | ⟨hsrc, hdst, hc⟩ | ⟨hsrc, hdst, hover, hc⟩ | ⟨hsrc, hdst, hover, hc⟩ :=
    decompressChecks_cases s.latched
  · exact ⟨fun _ => exec_decompress_check_fault hc, by omega, by omega, by simp [hc], by simp [hc], by simp [hc]⟩
  · exact ⟨by omega, fun _ _ => exec_decompress_check_fault hc, by omega, by simp [hc], by simp [hc], by simp [hc]⟩
  · exact ⟨by omega, by omega, fun _ _ _ => exec_decompress_check_fault hc, by simp [hc], by simp [hc], by simp [hc]⟩
  · exact ⟨by omega, by omega, by simp [hover],
      fun _ hlen => exec_decompress_begin_fault (decompressBegin_noHeader hc hlen),
      fun _ hlen hblob => exec_decompress_begin_fault (decompressBegin_truncated hc hlen hblob),
      fun _ hlen hblob hcap => exec_decompress_begin_fault (decompressBegin_alloc hc hlen hblob hcap)⟩

/-! ### A blob at the start of the source region (R82, R83) -/

/-- An area of the bytes in the source region reads back byte by byte. -/
theorem sourceByte_of_area {s : State} {bytes before area after : List Byte} {k i : Nat}
    (h : sourceBytes s 0 bytes.length = bytes) (hb : bytes = before ++ (area ++ after)) (hk : before.length = k)
    (hi : i < area.length) : sourceByte s (k + i) = area.getD i 0 := by
  subst hb hk
  rw [sourceByte_of_sourceBytes h _ (by simp; omega), List.getD_append_right _ _ _ _ (Nat.le_add_right _ _),
    Nat.add_sub_cancel_left, List.getD_append _ _ _ _ hi]

theorem blobBytes_length (ol cl fc : Word) (flagBytes content : List Byte) :
    (blobBytes ol cl fc flagBytes content).length = 24 + flagBytes.length + content.length := by
  simp only [blobBytes, List.length_append, le64_length]

/-- `s` with the replay of a blob of the given header fields begun (R150, R157). -/
def replayBegun (ol cl fc : Word) (s : State) : State := { s with dec := ⟨0, 0, 0, ol, cl, fc⟩, inLoop := true }

theorem sourceByte_replayBegun (ol cl fc : Word) (s : State) (i : Nat) :
    sourceByte (replayBegun ol cl fc s) i = sourceByte s i := rfl

/-- The end of DECOMPRESS completes with the header fields as its results (R157, R205). -/
theorem decompressFinish_success (t : State) :
    SuccessCompletion t.dec.ol.toNat t.dec.fc.toNat t.dec.cl.toNat ⟨0, 0⟩ t (decompressFinish t) := by
  have h := complete_success t.dec.ol.toNat t.dec.fc.toNat t.dec.cl.toNat ⟨0, 0⟩ t
  have hword : ∀ w : Word, BitVec.ofNat 64 w.toNat = w := fun w => by rw [BitVec.ofNat_toNat, BitVec.setWidth_eq]
  rwa [hword, hword, hword] at h

section Blob

variable {s : State} {ol cl fc : Word} {flagBytes content : List Byte}
  (hsrc : SourceHolds s (blobBytes ol cl fc flagBytes content))
include hsrc

/-- The header of a blob gives its fields (R82). -/
theorem headerRegs_of_blob : headerRegs s = ⟨0, 0, 0, ol, cl, fc⟩ := by
  obtain ⟨-, hbytes⟩ := hsrc
  have hol : headerField s 0 = ol := headerField_of_bytes (before := []) hbytes (by simp [blobBytes]; rfl) rfl
  have hcl : headerField s 8 = cl := headerField_of_bytes (before := le64 ol) hbytes (by simp [blobBytes]; rfl) rfl
  have hfc : headerField s 16 = fc :=
    headerField_of_bytes (before := le64 ol ++ le64 cl) hbytes (by simp [blobBytes]; rfl) rfl
  rw [headerRegs, hol, hcl, hfc]

variable (hflags : flagBytes.length = ceil8 fc.toNat) (hcontent : content.length = cl.toNat)
  (hchk : decompressChecks s.latched = none) (hol : ol.toNat ≤ s.latched.dstCap.toNat)
include hflags hcontent hchk hol

/-- Past its checks DECOMPRESS begins the replay of the blob it finds (R157, R173). -/
theorem decompressBegin_of_blob : decompressBegin s = .ok (replayBegun ol cl fc s) := by
  have hregs := headerRegs_of_blob hsrc
  obtain ⟨hlen, -⟩ := hsrc
  rw [blobBytes_length, hflags, hcontent] at hlen
  rw [decompressBegin_ok hchk (by omega) (by rwa [hregs]) (by rwa [hregs]), hregs, replayBegun]

/-- The replay that DECOMPRESS begins is that of the blob's flag bytes and content, with no output yet (R150). -/
theorem replays_of_blob : Replays flagBytes content (replayBegun ol cl fc s) [] where
  blob := (blobApart_of_decompressBegin (decompressBegin_of_blob hsrc hflags hcontent hchk hol)).2
  space := by
    obtain ⟨-, hdst, -⟩ := (decompressChecks_eq_none_iff _).1 hchk
    exact (Nat.add_le_add_left hol _).trans hdst
  decision_eq i hi := by
    have hbyte : sourceByte s (24 + i / 8) = flagBytes.getD (i / 8) 0 :=
      sourceByte_of_area (before := le64 ol ++ le64 cl ++ le64 fc) hsrc.2 (by simp [blobBytes]; rfl) rfl
        (hflags ▸ ceil8_div hi)
    rw [decision, sourceByte_replayBegun, show Config.headerBytes = 24 from rfl, hbyte]
    rfl
  content_length := hcontent
  content_eq i hi := sourceByte_of_area (before := le64 ol ++ le64 cl ++ le64 fc ++ flagBytes) (after := []) hsrc.2
    (by simp [blobBytes]) (show _ = 24 + ceil8 fc.toNat by rw [← hflags]; simp; omega) (hcontent ▸ hi)
  rc_le := Nat.zero_le _
  output _ hi := absurd hi (Nat.not_lt_zero _)
  wc_eq := rfl

/-- The replay of DECOMPRESS agrees with the blob's on lists (R150, R157). -/
theorem replay_of_blob :
    ReplayAgrees (expandBlob ol.toNat fc.toNat flagBytes content) (replay fc.toNat (replayBegun ol cl fc s)) :=
  (replays_of_blob hsrc hflags hcontent hchk hol).replay_agrees fc.toNat (Nat.le_of_eq (Nat.zero_add _))

/-- DECOMPRESS settles the replay of its blob (R157). -/
theorem exec_decompress_of_blob :
    exec .decompress s = .next (settleReplay (replayBegun ol cl fc s) (replay fc.toNat (replayBegun ol cl fc s))) := by
  rw [exec, execDecompress, decompressBegin_of_blob hsrc hflags hcontent hchk hol]
  rfl

/-- A replay with an output completes DECOMPRESS successfully, and the output stands at the destination (R156, R157, R205). -/
theorem exec_decompress_success {out : List Byte} (hout : expandBlob ol.toNat fc.toNat flagBytes content = .ok out) :
    ∃ t, exec .decompress s = .next t ∧ SuccessCompletion ol.toNat fc.toNat cl.toNat ⟨0, 0⟩ s t ∧
      out.length = ol.toNat ∧ HoldsOutput t out := by
  have hagrees := replay_of_blob hsrc hflags hcontent hchk hol
  rw [exec_decompress_of_blob hsrc hflags hcontent hchk hol]
  rw [hout] at hagrees
  generalize hr : replay fc.toNat (replayBegun ol cl fc s) = r at hagrees ⊢
  cases hagrees with
  | @ok _ t ho hw =>
    obtain ⟨hdone, -, hwc, -⟩ := replay_done hr
    have hfin := decompressFinish_success t
    rw [hwc, hdone.ol_eq] at hw
    rw [hdone.ol_eq, hdone.fc_eq, hdone.cl_eq] at hfin
    refine ⟨_, rfl, successCompletion_of_frame hfin ?_, hw.symm, ho⟩
    rw [hdone.frame]
    simp [SameConfiguration, replayBegun]

/-- A replay that fails completes DECOMPRESS with its cause (R204). -/
theorem exec_decompress_fault {c : Cause} (hout : expandBlob ol.toNat fc.toNat flagBytes content = .error c) :
    ∃ t, exec .decompress s = .next t ∧ FaultCompletion c s t := by
  have hagrees := replay_of_blob hsrc hflags hcontent hchk hol
  rw [exec_decompress_of_blob hsrc hflags hcontent hchk hol]
  rw [hout] at hagrees
  generalize replay fc.toNat (replayBegun ol cl fc s) = r at hagrees ⊢
  cases hagrees with
  | error c => exact ⟨_, rfl, raiseReplayFault_frame c (replayBegun ol cl fc s)⟩

/-- DECOMPRESS of a blob writes only `dst[0, ol)` (R159, R206). -/
theorem exec_decompress_outside {t : State} (ht : exec .decompress s = .next t) :
    SameOutside s.latched.dstAddr.toNat ol.toNat s t := by
  rw [exec_decompress_of_blob hsrc hflags hcontent hchk hol] at ht
  cases ht
  exact settleReplay_outside fc.toNat (replayBegun ol cl fc s)

end Blob

/-- Settles O33: the replay agrees with the function on lists, token by token (`Replays.replay_agrees`). -/
theorem decompressWritesTheReplayedBytes : Obligations.DecompressWritesTheReplayedBytes := by
  intro s ol cl fc flagBytes content out hsrc hdst hover hflags hcontent hblob hol hout
  have hchk := (decompressChecks_eq_none_iff _).2 ⟨hsrc, hdst, hover⟩
  obtain ⟨t, ht, hsucc, hlen, ho⟩ := exec_decompress_success hblob hflags hcontent hchk hol hout
  have haddr : t.latched.dstAddr = s.latched.dstAddr := by rw [(instructionsKeepTheConfiguration _ s t ht).2]
  refine ⟨t, ht, hsucc, hlen, fun i hi => ?_, exec_decompress_outside hblob hflags hcontent hchk hol ht⟩
  rw [← ho i (by omega), outputAddr, haddr]

/-- Settles O34: the replay that agrees with the function on lists faults where it fails (`Replays.replay_agrees`). -/
theorem decompressFaultsAsTheReplayDoes : Obligations.DecompressFaultsAsTheReplayDoes := by
  intro s ol cl fc flagBytes content c hsrc hdst hover hflags hcontent hblob hol hout
  have hchk := (decompressChecks_eq_none_iff _).2 ⟨hsrc, hdst, hover⟩
  obtain ⟨t, ht, hfault⟩ := exec_decompress_fault hblob hflags hcontent hchk hol hout
  exact ⟨t, ht, hfault, exec_decompress_outside hblob hflags hcontent hchk hol ht⟩

end Sys2Proof.Machine

/-! PROOFS. The round trip (43_decoder.md R158): the tokens of an input expand to the input, so DECOMPRESS of the blob that
COMPRESS wrote gives it back. -/

namespace Sys2Proof.Machine

/-! ### A token stream on lists (R150) -/

/-- A token that expands is no command. -/
theorem tokenDecision_of_expandToken {out out' : List Byte} {t : Instr} (h : expandToken out t = some out') :
    ∃ b, tokenDecision t = some b := by
  cases t with
  | compress | decompress | findMatch => cases h
  | lit b => exact ⟨_, rfl⟩
  | matchRecord d l => exact ⟨_, rfl⟩

/-- A token appends to the output. -/
theorem length_le_of_expandToken {out out' : List Byte} {t : Instr} (h : expandToken out t = some out') :
    out.length ≤ out'.length := by
  cases t with
  | compress | decompress | findMatch => cases h
  | lit b =>
    cases h
    simp
  | matchRecord d l =>
    rw [expandToken] at h
    split at h
    · cases h
    · cases h
      rw [expandCopy_length]
      exact Nat.le_add_right _ _

/-- The output after the tokens `ts`, or none where one has a bad displacement. -/
def expandTokens (out : List Byte) (ts : List Instr) : Option (List Byte) := ts.foldlM expandToken out

theorem expandTokens_append (out : List Byte) (ts us : List Instr) :
    expandTokens out (ts ++ us) = (expandTokens out ts).bind fun out' => expandTokens out' us :=
  List.foldlM_append

theorem expandTokens_cons {out out' : List Byte} {t : Instr} {ts : List Instr} :
    expandTokens out (t :: ts) = some out' ↔ ∃ o, expandToken out t = some o ∧ expandTokens o ts = some out' := by
  rw [expandTokens, List.foldlM_cons]
  exact Option.bind_eq_some_iff

theorem length_le_of_expandTokens {out out' : List Byte} {ts : List Instr} (h : expandTokens out ts = some out') :
    out.length ≤ out'.length := by
  induction ts generalizing out with
  | nil => cases h; exact Nat.le_refl _
  | cons t ts ih =>
    obtain ⟨o, ht, hts⟩ := expandTokens_cons.1 h
    exact (length_le_of_expandToken ht).trans (ih hts)

/-- The replay of a stream's content, under flag bytes that hold its decisions from decision `i` on, gives what its tokens
expand to (R150). -/
theorem expandFrom_streamContent (flagBytes : List Byte) {ts : List Instr} {out out' : List Byte} {i : Nat}
    (hf : ∀ j, j < (streamFlags ts).length →
      flagBit (flagBytes.getD ((i + j) / 8) 0#8) (i + j) = (streamFlags ts).getD j false)
    (h : expandTokens out ts = some out') :
    expandFrom out'.length flagBytes (streamFlags ts).length i (streamContent ts) out = .ok out' := by
  induction ts generalizing out i with
  | nil =>
    cases h
    simp [expandFrom, streamFlags, streamContent]
  | cons t ts ih =>
    obtain ⟨o, ht, hts⟩ := expandTokens_cons.1 h
    obtain ⟨b, hb⟩ := tokenDecision_of_expandToken ht
    rw [streamFlags_cons hb] at hf ⊢
    have hrest := ih (i := i + 1) (fun j hj => by
      have := hf (j + 1) (by simpa using hj)
      rwa [← Nat.add_assoc, Nat.add_right_comm] at this) hts
    rw [List.length_cons, streamContent_cons, expandFrom_token _ _ _ i hb _ (hf 0 (by simp)) ht
      (length_le_of_expandTokens hts), hrest]

/-! ### The tokens of an input (R130) -/

/-- The first `n` bytes of `B`. -/
def firstBytes (B : Nat → Byte) (n : Nat) : List Byte := (List.range n).map B

@[simp] theorem firstBytes_length (B : Nat → Byte) (n : Nat) : (firstBytes B n).length = n := by simp [firstBytes]

theorem firstBytes_succ (B : Nat → Byte) (n : Nat) : firstBytes B (n + 1) = firstBytes B n ++ [B n] := by
  simp [firstBytes, List.range_succ]

theorem firstBytes_getD (B : Nat → Byte) {n i : Nat} (hi : i < n) : (firstBytes B n).getD i 0 = B i := by
  simp [firstBytes, hi]

/-- A copy whose bytes repeat those `d` back appends the next bytes of the input (R154). -/
theorem expandCopy_firstBytes (B : Nat → Byte) {l d pos : Nat} (h1 : 1 ≤ d) (hd : d ≤ pos)
    (h : ∀ k, k < l → B (pos - d + k) = B (pos + k)) :
    expandCopy l d (firstBytes B pos) = firstBytes B (pos + l) := by
  induction l generalizing pos with
  | zero => rfl
  | succ l ih =>
    rw [expandCopy, firstBytes_length, firstBytes_getD B (by omega), show B (pos - d) = B pos from h 0 (by omega),
      ← firstBytes_succ, ih (by omega), Nat.add_right_comm, Nat.add_assoc]
    intro k hk
    have := h (k + 1) (by omega)
    rwa [show pos + 1 - d + k = pos - d + (k + 1) by omega, show pos + 1 + k = pos + (k + 1) by omega]

/-- A literal run appends the bytes it stands for (R132). -/
theorem expandTokens_literals (B : Nat → Byte) (r pos : Nat) :
    expandTokens (firstBytes B pos) ((List.range r).map fun i => .lit (B (pos + i))) = some (firstBytes B (pos + r)) := by
  induction r with
  | zero => rfl
  | succ r ih =>
    rw [List.range_succ, List.map_append, expandTokens_append, ih, ← Nat.add_assoc, firstBytes_succ]
    rfl

/-- The tokens of an iteration append the bytes it advances by (R132, R133): a match repeats the bytes it found (R100). -/
theorem expandTokens_iterationTokens (B : Nat → Byte) {n pos : Nat} (hp : pos < 2 ^ 64) :
    expandTokens (firstBytes B pos) (iterationTokens B pos (queryAt B n pos)) =
      some (firstBytes B (pos + iterationAdvance (queryAt B n pos))) := by
  rw [iterationTokens, iterationAdvance]
  split
  · exact expandTokens_literals B _ pos
  · next hmin =>
    obtain ⟨hd, hle, -⟩ := queryAt_canonical B n pos hmin
    have hagree : ∀ k, k < (queryAt B n pos).bestL.toNat →
        B ((BitVec.ofNat 64 pos).toNat - (queryAt B n pos).bestD.toNat + k) = B ((BitVec.ofNat 64 pos).toNat + k) :=
      findLongestMatch_agree B (BitVec.ofNat 64 pos) (clampWindow pos) (clampMaxlen (n - pos))
    rw [BitVec.toNat_ofNat, Nat.mod_eq_of_lt hp] at hagree
    refine expandTokens_cons.2 ⟨_, ?_, rfl⟩
    rw [expandToken, firstBytes_length, if_neg (by omega), expandCopy_firstBytes B hd (by omega) hagree]

theorem expandTokens_encodeTokens (B : Nat → Byte) {n fuel pos : Nat} (hn : n < 2 ^ 64) (hp : pos ≤ n)
    (hf : n ≤ pos + fuel) :
    expandTokens (firstBytes B pos) (encodeTokens B n fuel pos) = some (firstBytes B n) := by
  induction fuel generalizing pos with
  | zero =>
    obtain rfl : pos = n := by omega
    rfl
  | succ fuel ih =>
    rcases Nat.lt_or_ge pos n with hlt | hge
    · have hadv := iterationAdvance_bounds B n pos hlt
      rw [encodeTokens_succ B n fuel pos hlt, expandTokens_append, expandTokens_iterationTokens B (by omega),
        Option.bind_some, ih hadv.2 (by omega)]
    · rw [encodeTokens_done B n _ pos hge, show pos = n by omega]
      rfl

/-- The replay of an input's blob gives the input (R158). -/
theorem expandBlob_inputTokens (B : Nat → Byte) {n : Nat} (hn : n < 2 ^ 64) :
    expandBlob n (streamFlags (inputTokens B n)).length (packFlags (streamFlags (inputTokens B n)))
      (streamContent (inputTokens B n)) = .ok (firstBytes B n) := by
  have h := expandFrom_streamContent (packFlags (streamFlags (inputTokens B n))) (i := 0)
    (fun j hj => by rw [Nat.zero_add]; exact flagBit_packFlags _ j hj)
    (expandTokens_encodeTokens B (fuel := n) hn (Nat.zero_le n) (Nat.le_add_left n 0))
  rwa [firstBytes_length] at h

/-! ### The round trip -/

/-- The source region begins with bytes that it reads back one by one. -/
theorem sourceBytes_eq {s : State} {bytes : List Byte} (h : ∀ i, i < bytes.length → sourceByte s i = bytes.getD i 0) :
    sourceBytes s 0 bytes.length = bytes := by
  apply List.ext_getElem (by simp [sourceBytes])
  intro i _ hi
  have hbyte := h i hi
  rw [List.getD_eq_getElem _ _ hi] at hbyte
  simp [sourceBytes, hbyte]

/-- DECOMPRESS of an input's blob succeeds and leaves the input at its destination (R157, R158). -/
theorem exec_decompress_inputBlob {s : State} {B : Nat → Byte} {n : Nat} (hn : n < 2 ^ 64)
    (hsrc : SourceHolds s (inputBlob B n)) (hchk : decompressChecks s.latched = none) (hcap : n ≤ s.latched.dstCap.toNat) :
    ∃ t, exec .decompress s = .next t ∧
      SuccessCompletion n (streamFlags (inputTokens B n)).length (streamContent (inputTokens B n)).length ⟨0, 0⟩ s t ∧
      HoldsOutput t (firstBytes B n) := by
  obtain ⟨hflags, hcontent, -⟩ := encoderCounts B n
  have hword : ∀ m, m ≤ n → (BitVec.ofNat 64 m).toNat = m := fun m hm => Nat.mod_eq_of_lt (Nat.lt_of_le_of_lt hm hn)
  have hol := hword n (Nat.le_refl n)
  have hfc := hword _ hflags
  have hcl := hword _ hcontent
  obtain ⟨t, ht, hsucc, -, hout⟩ := exec_decompress_success hsrc (by rw [hfc, packFlags_length]) hcl.symm hchk
    (hol.symm ▸ hcap) (by rw [hol, hfc]; exact expandBlob_inputTokens B hn)
  rw [hol, hfc, hcl] at hsucc
  exact ⟨t, ht, hsucc, hout⟩

/-- Settles O37: COMPRESS leaves the input's blob at the destination (`exec_compress_success`), and DECOMPRESS of it gives
the input (`exec_decompress_inputBlob`). -/
theorem compressThenDecompressGivesTheInputBack : Obligations.CompressThenDecompressGivesTheInputBack := by
  intro s t u dst cap hchk ht hmem hsrc hsl hdst hcap hrange hover hfit
  obtain ⟨t', ht', ⟨-, -, -, hres, -⟩, hblob⟩ := exec_compress_success hchk
  obtain rfl : t' = t := Host.Outcome.next.inj (ht'.symm.trans ht)
  obtain ⟨-, hdstRange, -, halloc⟩ := compressChecks_none hchk
  have hlen := inputBlob_length_le (sourceByte s) s.latched.srcLen.toNat
  have hresult : t'.resultLen.toNat = (inputBlob (sourceByte s) s.latched.srcLen.toNat).length := by
    have hcap := s.latched.dstCap.isLt
    rw [hres, BitVec.toNat_ofNat, Nat.mod_eq_of_lt (hlen.trans_lt (halloc.trans_lt hcap))]
  have hholds : SourceHolds u (inputBlob (sourceByte s) s.latched.srcLen.toNat) := by
    refine ⟨by rw [hsl, hresult], sourceBytes_eq fun i hi => ?_⟩
    rw [sourceByte, readByte, hmem, hsrc]
    exact hblob i hi
  have hchku : decompressChecks u.latched = none := by
    refine (decompressChecks_eq_none_iff _).2 ⟨?_, by rwa [hdst, hcap], hover⟩
    rw [hsrc, hsl, hresult]
    exact (Nat.add_le_add_left (hlen.trans halloc) _).trans hdstRange
  obtain ⟨v, hv, ⟨hstatus, -, -, hlenv, -⟩, hout⟩ :=
    exec_decompress_inputBlob s.latched.srcLen.isLt hholds hchku (by rwa [hcap])
  have haddr : v.latched.dstAddr = dst := by rw [(instructionsKeepTheConfiguration _ u v hv).2, hdst]
  refine ⟨v, hv, by rw [hstatus], by rw [hstatus], by rw [hstatus], ?_, fun i hi => ?_⟩
  · rw [hlenv, BitVec.ofNat_toNat, BitVec.setWidth_eq]
  · rw [← haddr, ← firstBytes_getD (sourceByte s) hi]
    exact hout i (by rwa [firstBytes_length])

end Sys2Proof.Machine

/-! PROOFS. The interrupt output, the two completions, and what wakes an idle engine (60_exceptions.md R204, R205, R210,
R216). -/

namespace Sys2Proof.Machine

/-! ### The interrupt output (R210) -/

theorem getLsbD_zero_irqEnWord (doneIe : Bool) : (irqEnWord doneIe).getLsbD 0 = doneIe := by
  simp [irqEnWord]

/-- A CMD write to an idle engine that answers a next state is an acceptance (R28). -/
theorem eq_acceptCommand_of_writeCmd {w : Word} {s t : State} (hb : s.status.busy = false)
    (h : writeCmd w s = .next t) : t = acceptCommand w s := by
  rw [writeCmd, if_neg (by simp [hb])] at h
  split at h
  · cases h
  · cases h; rfl

/-- Settles O16: the two words hold DONE_IE and DONE; a STATUS write lowers the interrupt (`statusWriteOneToClear`), and an
acceptance clears DONE. -/
theorem irqIsDoneAndEnabled : Obligations.IrqIsDoneAndEnabled := by
  intro s
  refine ⟨?_, fun w t h1 ht => ?_, fun w t hb ht => ?_, fun w => ?_⟩
  · rw [regValue, regValue, getLsbD_zero_irqEnWord, getLsbD_statusWord]
    rfl
  · obtain ⟨u, hu, -, -, hirq, -⟩ := statusWriteOneToClear s w
    obtain rfl : u = t := Host.Outcome.next.inj (hu.symm.trans ht)
    exact hirq h1
  · rw [hostOp_wr (by decide)] at ht
    obtain rfl := eq_acceptCommand_of_writeCmd hb ht
    simp [irq]
  · exact ⟨{ s with doneIe := w.getLsbD 0 }, hostOp_wr (by decide) w s, rfl, rfl⟩

/-! ### Completions (R204, R205) -/

/-- Settles O40: a command answers a completion (`exec_command`). -/
theorem commandsEndInACompletion : Obligations.CommandsEndInACompletion := by
  intro i s hi
  obtain ⟨t, ht, hc⟩ := exec_command hi s
  exact ⟨t, ht, hc.done, hc.busy, hc.phase, hc.loop, hc.cause⟩

/-! ### An idle engine (R216) -/

/-- Every move of the engine but `stay` needs a running command (R233). -/
theorem EngineMove.eq_of_idle {s t : State} (h : EngineMove s t) (hb : s.status.busy = false) : t = s := by
  cases h with
  | stay => rfl
  | complete hr | beginCompress hr | beginDecompress hr | beginFind hr | encode hr | token hr | candidate hr =>
    rw [hb] at hr; cases hr

/-- Of the host's moves only an acceptance sets BUSY (R28). -/
theorem HostMove.accept_of_busy {op : HostOp} {s t : State} (h : HostMove s op t) (hb : s.status.busy = false)
    (ht : t.status.busy = true) : ∃ w, op = .wr 0x00 8 w ∧ t.cmd = w := by
  have hne : t.status.busy ≠ s.status.busy := by rw [hb, ht]; decide
  cases h with
  | accept w => exact ⟨w, rfl, rfl⟩
  | quiet h => exact absurd (by rw [h]) hne
  | drop | clear | store => exact absurd rfl hne
  | reset => cases ht

/-- Settles O43: of the moves a step can make, the engine's leave an idle engine as it is and only the host's acceptance
sets BUSY. -/
theorem onlyACmdWriteWakesTheEngine : Obligations.OnlyACmdWriteWakesTheEngine := by
  intro s t hb h
  obtain rfl | ⟨hn, op, rest, hh, hm⟩ | ⟨-, hm⟩ := step_cases h
  · exact ⟨fun ht => absurd (hb.symm.trans ht) (by decide), fun _ => rfl⟩
  · refine ⟨fun ht => ?_, fun hne => absurd hn hne⟩
    obtain ⟨w, rfl, hw⟩ := hm.accept_of_busy hb ht
    exact ⟨hn, w, rest, hh, hw⟩
  · obtain rfl := hm.eq_of_idle hb
    exact ⟨fun ht => absurd (hb.symm.trans ht) (by decide), fun _ => rfl⟩

end Sys2Proof.Machine

/-! PROOFS. Reset (70_reset_and_hazards.md R230 to R232): what the reset input does to memory, and the invariant in the state
it leaves. -/

namespace Sys2Proof.Machine

/-! ### Memory (R231, R232) -/

/-- Where a running command's destination is not: no command runs, it has none, or the address is outside it (R62). -/
theorem inRunningDest_eq_false_iff {s : State} {x : Nat} :
    inRunningDest s x = false ↔ ¬(s.status.busy = true ∧ reachesDest s.latched.cmd = true ∧
      s.latched.dstAddr.toNat ≤ x ∧ x < s.latched.dstAddr.toNat + s.latched.dstCap.toNat) := by
  simp only [inRunningDest, inRegion, ← Bool.not_eq_true, Bool.and_eq_true, decide_eq_true_eq, and_assoc]

/-- An abandoned command loses the bytes of its destination region and no other; where there is no such command, memory is
kept whole. -/
theorem keepsOutsideDest_abandonCommand (s : State) : KeepsOutsideDest s (abandonCommand s) := by
  rw [abandonCommand]
  split
  · next h =>
    obtain ⟨hb, hd⟩ := Bool.and_eq_true_iff.mp h
    exact .of_sameOutside hb hd (drawBytes_outside s _ _)
  · exact .of_mem rfl

theorem readByte_resetEngine (s : State) (x : Nat) : readByte (resetEngine s) x = readByte (abandonCommand s) x := rfl

/-- Settles O19: the memory after reset is the abandoned command's. -/
theorem resetKeepsMemory : Obligations.ResetKeepsMemory := by
  intro s
  refine ⟨resetEngine s, rfl, fun x hx => ?_⟩
  rw [readByte_resetEngine]
  exact keepsOutsideDest_abandonCommand s x (inRunningDest_eq_false_iff.mpr hx)

/-! ### The invariant (R230) -/

/-- Settles O48: at reset no command is in progress, STATUS is 0 in the phase IDLE, and memory lists nothing. -/
theorem invariantHoldsAtReset : Obligations.InvariantHoldsAtReset :=
  have hmem : memWf State.reset.mem = true := rfl
  have hstatus : StatusLegal State.reset := by decide
  have hcommand : CommandLegal State.reset := by decide
  inv_of_not_inLoop hmem hstatus hcommand rfl

end Sys2Proof.Machine
